-- ==== Sys2Proof/Word.lean ====
section
/-! DEFINITION. The byte and the byte string of 00_scope.md section 6.1. -/

namespace Sys2Proof

/-- A byte is an integer in [0, 255] (00_scope.md 6.1). -/
abbrev Byte := BitVec 8

/-- A byte string, `s[0]` first (00_scope.md 6.1). -/
abbrev Bytes := List Byte

end Sys2Proof
end

