-- ==== Sys2Proof/Machine/Bytes.lean ====
section
/-! DEFINITION. Byte strings: slices, fills, exclusive or, and the byte orders of 00_scope.md 6.1 and R31. -/

namespace Sys2Proof.Machine

/-- `zeros(n)`. -/
def zeros (n : Nat) : Bytes := List.replicate n 0#8

/-- `rep(b, n)`. -/
def rep (b : Byte) (n : Nat) : Bytes := List.replicate n b

/-- `s[a .. a + n]`, cut short where `s` ends. -/
def slice (s : Bytes) (a n : Nat) : Bytes := (s.drop a).take n

/-- `a XOR b` on byte strings of one length. -/
def xorBytes (a b : Bytes) : Bytes := List.zipWith (· ^^^ ·) a b

/-- `be(s)`: the byte string read as an unsigned integer, most significant byte first. -/
def beNat (s : Bytes) : Nat := s.foldl (fun acc b => 256 * acc + b.toNat) 0

/-- `le(s)`: the byte string read as an unsigned integer, least significant byte first. -/
def leNat : Bytes → Nat
  | [] => 0
  | b :: s => b.toNat + 256 * leNat s

/-- `BE_n(v)`. -/
def beBytes : Nat → Nat → Bytes
  | 0, _ => []
  | n + 1, v => BitVec.ofNat 8 (v / 256 ^ n) :: beBytes n v

/-- `LE_n(v)`. -/
def leBytes : Nat → Nat → Bytes
  | 0, _ => []
  | n + 1, v => BitVec.ofNat 8 v :: leBytes n (v / 256)

/-- The consecutive `n`-byte slices of a byte string, `count` of them: slice `i` is `s[n·i .. n·i + n]`. -/
def blocks (n count : Nat) (s : Bytes) : List Bytes := (List.range count).map fun i => slice s (n * i) n

/-- A byte string of known length as a register's contents. -/
def toReg (n : Nat) (s : Bytes) : Vector Byte n := Vector.ofFn fun i => s.getD i.val 0#8

end Sys2Proof.Machine
end

