-- ==== Sys2Proof/Config.lean ====
section
/-! DEFINITION. The parameters R8 leaves open, and the free values. -/

namespace Sys2Proof

/-- `X25519_64_MODE` (R8, R141): what the 64-byte-scalar ladder computes. -/
inductive Ladder64Mode where
  | extended
  | refuse
  deriving DecidableEq, Repr

namespace Config

/-- `CBC_IV` (R106, decision D17): the spec does not give its value, so nothing here does. Every statement about CBC holds
for every value of it. DESIGN CHOICE (assumption 5). -/
opaque cbcIv : Vector Byte 16

/-- `RND` (R37, U7): the 32 bytes the entropy source answers to request number `n` when the environment has queued no answer
of its own. A FREE VALUE: any value. DESIGN CHOICE (assumption 4). -/
opaque draw : Nat → Vector Byte 32

/-- DESIGN CHOICE (assumption 6): `X25519_64_MODE` at the default the spec names (R8, R141, decision D21). -/
def ladder64Mode : Ladder64Mode := .extended

end Config

end Sys2Proof
end

