-- ==== Sys2Proof/Syntax.lean ====
section
/-! DEFINITION. The commands of 30_encoding.md R48, with their operand strings; the command as the host sends it. -/

namespace Sys2Proof

/-- The hash variant: S32 (32-bit words) or S64 (64-bit words) (R47, R60). -/
inductive Variant where
  | s32
  | s64
  deriving DecidableEq, Repr

/-- A field register number, `F0` to `F15` (R11, R46). -/
abbrev FReg := Fin 16

/-- One constructor per row of R48. `sel` stays the raw 8-bit field: a value outside the command's set still names that
command, which then raises `InvalidSelector` (R48). A `Bytes` argument is one operand string of `DIN`, in `DIN`'s order. -/
inductive Instr where
  | nop
  | rdStatus
  | softReset
  | hashInit (sel : BitVec 8)
  | hashUpdate (sel : BitVec 8) (data : Bytes)
  | hashFinal (sel : BitVec 8)
  | hashDigest (sel : BitVec 8) (message : Bytes)
  | hmacConfig (sel : BitVec 8)
  | hmacDigest (key message : Bytes)
  | hmacRead
  | aesKeyexp (sel : BitVec 8) (key : Bytes)
  | aesCipher (block : Bytes)
  | aesInvcipher (block : Bytes)
  | cbcEncrypt (plaintext : Bytes)
  | cbcDecrypt (ciphertext : Bytes)
  | feUnpack (rd : FReg) (bytes : Bytes)
  | fePack (ra : FReg)
  | feAdd (rd ra rb : FReg)
  | feSub (rd ra rb : FReg)
  | feMul (rd ra rb : FReg)
  | feSqr (rd ra : FReg)
  | feCarry (rd ra : FReg)
  | feCswap (ra rb : FReg) (sel : BitVec 8)
  | feInv (rd ra : FReg)
  | feConst (rd : FReg) (sel : BitVec 8)
  | feMov (rd ra : FReg)
  | x25519 (scalar point : Bytes)
  | x25519_64 (scalar point : Bytes)
  | kxKeygen
  | kxShared (peer : Bytes)
  deriving DecidableEq, Repr

/-- What the host puts on `CMD` and `DIN` for one command (R34, R35, R45). -/
structure Command where
  word : BitVec 32
  din  : List Bytes
  deriving DecidableEq, Repr

end Sys2Proof
end

