-- ==== Sys2Proof/Machine/Memory.lean ====
section
/-! DEFINITION. The local buffers (R30): a buffer is a list of (offset, byte) cells in canonical form, and an offset it does
not list reads 0, the reset contents R22 gives every buffer. DESIGN CHOICE (assumption 14). -/

namespace Sys2Proof.Machine

/-- The contents of one of the three buffers of R30. Each has offsets of its own, starting at 0. -/
abbrev Memory := List Host.Cell

/-- The byte at an offset. -/
def Memory.read : Memory → Nat → Byte
  | [], _ => 0#8
  | (k, v) :: m, a => if k = a then v else Memory.read m a

/-- The buffer after byte `b` is stored at offset `a`. Storing 0 takes the cell out. -/
def Memory.write : Memory → Nat → Byte → Memory
  | [], a, b => if b = 0#8 then [] else [(a, b)]
  | (k, v) :: m, a, b =>
    if a < k then (if b = 0#8 then (k, v) :: m else (a, b) :: (k, v) :: m)
    else if a = k then (if b = 0#8 then m else (a, b) :: m)
    else (k, v) :: Memory.write m a b

/-- `MemRead(space, a, n)`. -/
def Memory.readBytes (m : Memory) (a n : Nat) : Bytes := (List.range n).map fun i => m.read (a + i)

/-- `MemWrite(space, a, n, s)`, with `n = len(s)`. -/
def Memory.writeBytes : Memory → Nat → Bytes → Memory
  | m, _, [] => m
  | m, a, b :: s => Memory.writeBytes (m.write a b) (a + 1) s

/-- The buffer after `MemWrite(space, 0, size, zeros(size))`: every byte is 0, so no cell is listed. -/
def Memory.cleared : Memory := []

/-- Every cell lies at offset `lo` or above, offsets strictly rise, and no cell holds 0. -/
def Memory.sortedFrom : Nat → Memory → Bool
  | _, [] => true
  | lo, (k, v) :: m => decide (lo ≤ k) && decide (v ≠ 0#8) && Memory.sortedFrom (k + 1) m

/-- The canonical form of a buffer of `size` bytes: offsets strictly rising, all below `size`, no cell equal to what an
unlisted offset reads. -/
def Memory.wf (size : Nat) (m : Memory) : Bool := Memory.sortedFrom 0 m && m.all fun c => decide (c.1 < size)

end Sys2Proof.Machine
end

