-- ==== Sys2Proof/Machine/State.lean ====
section
/-! DEFINITION. The architectural state of R10, unit by unit; the host's side of the ports; the reasons a step can stop; the
machine right after reset (R22). -/

namespace Sys2Proof.Machine

/-- A field register's contents: 16 limbs, each in a 64-bit two's complement container (R11, R116). -/
abbrev Elem := Vector (BitVec 64) 16

/-- The state of hash unit `v` (R15): `H_v`, `BUF_v`, `FILL_v` (0 to B − 1) and `LEN_v`, the count of message bits. -/
structure HashUnit (v : Variant) where
  h    : Vector (BitVec v.wordBits) 8
  buf  : Memory
  fill : Fin v.blockBytes
  len  : BitVec v.lenBits
  deriving DecidableEq, Repr

/-- The state of the HMAC unit (R16): `HCFG`, `HSEL`, `HOUT`. -/
structure HmacUnit where
  hcfg : Bool
  hsel : Variant
  hout : Memory
  deriving DecidableEq, Repr

/-- The values `NK` can hold: 0, 4, 6, 8 (R10, R17). -/
inductive KeyLen where
  | zero
  | four
  | six
  | eight
  deriving DecidableEq, Repr

/-- The state of the cipher unit (R17): `KEYED`, `NK` and the round-key words `W`. Byte `W[i][0]` is a word's most
significant byte, as R92 writes words in hex. -/
structure CipherUnit where
  keyed : Bool
  nk    : KeyLen
  w     : Vector (BitVec 32) 60
  deriving DecidableEq, Repr

/-- The state of the CBC unit (R18): the registers `IV` and `LAST`. -/
structure CbcUnit where
  iv   : Vector Byte 16
  last : Vector Byte 16
  deriving DecidableEq, Repr

/-- The state of the key-exchange unit (R19): `PRIVV` and `PRIV`. -/
structure KxUnit where
  privv : Bool
  priv  : Vector Byte 32
  deriving DecidableEq, Repr

/-- What CORE puts on `RSP` and `DOUT` for one command (R34, R36, R160). -/
structure Response where
  code : BitVec 4
  dout : Bytes
  deriving DecidableEq, Repr

/-- What the host can do to the machine (R41): issue a command, or assert reset between two commands (R180). No reset
lands inside a command: DESIGN CHOICE (assumption 16). -/
inductive Input where
  | command (c : Command)
  | reset
  deriving DecidableEq, Repr

/-- The architectural state of R10 (`f` to `lasterr`), and the MODEL's own record of the ports (assumptions 1, 3, 4). -/
structure State where
  /-- `F[0..15]` (R11). -/
  f       : Vector Elem 16
  /-- Hash unit S32 (R15). -/
  s32     : HashUnit .s32
  /-- Hash unit S64 (R15). -/
  s64     : HashUnit .s64
  /-- HMAC unit (R16). -/
  hmac    : HmacUnit
  /-- Cipher unit (R17). -/
  ciph    : CipherUnit
  /-- CBC unit (R18). -/
  cbc     : CbcUnit
  /-- Key-exchange unit (R19). -/
  kx      : KxUnit
  /-- `ERRS`, sticky (R13, R163). -/
  errs    : Bool
  /-- `LASTERR` (R10, R163). -/
  lasterr : BitVec 4
  /-- The model's own: what the host will do, in order; ports `CMD` and `DIN` (R34, R38). -/
  inputs  : List Input
  /-- The model's own: the response last put on `RSP` and `DOUT`, none since reset (R34, R36). -/
  resp    : Option Response
  /-- The model's own: answers queued on port `RND` (R37). -/
  rnd     : List (Vector Byte 32)
  /-- The model's own: how many `RND` requests have been made (R37). -/
  drawn   : Nat
  deriving DecidableEq, Repr

/-- Why the machine could stop with a fault. CORE has no such stop: whatever is wrong with a command, it answers with an
error response and is ready for the next one (R163, R168). So no meaning raises a fault, and the type has no constructor. DEDUCED, safe
(assumption 19). -/
inductive Fault : Type
  deriving DecidableEq, Repr

/-- Why the model gives a command no meaning. The spec asks for each of these refusals; each is safe. -/
inductive Refusal where
  /-- Raised by no meaning: an arm of `exec` whose command is not modelled. Safe. -/
  | notModelled (mnemonic : String)
  /-- Raised by `HASH_UPDATE`, `HASH_DIGEST` and `HMAC_DIGEST` when a message's bit length would reach 2^64 (S32) or 2^128
  (S64): "a model refuses such a step" (R68, U1). Safe. -/
  | hashLengthOutOfDomain
  /-- Raised by `FE_ADD`, `FE_SUB`, `FE_MUL`, `FE_SQR`, `FE_CARRY`, `FE_INV` and `FE_PACK` when a named value leaves the
  64-bit signed range: "this spec gives it no meaning, and a model refuses it" (R116, U2). Safe. -/
  | limbOutOfDomain
  /-- Raised by `X25519_64` where `X25519_64_MODE` is `refuse`: "the command has no defined result; a model refuses it"
  (R141, U5). Safe. -/
  | ladder64Refused
  deriving DecidableEq, Repr

/-- Hash unit `v` as `HASH_INIT v` leaves it (R64) and as reset does (R22). -/
def HashUnit.init (v : Variant) : HashUnit v :=
  { h := h0 v, buf := Memory.cleared, fill := ⟨0, by cases v <;> decide⟩, len := 0#v.lenBits }

/-- The machine right after reset (R22), with no input pending, no response given and no entropy queued. -/
def State.reset : State :=
  { f := Vector.replicate 16 (Vector.replicate 16 0#64)
    s32 := HashUnit.init .s32
    s64 := HashUnit.init .s64
    hmac := { hcfg := false, hsel := .s32, hout := Memory.cleared }
    ciph := { keyed := false, nk := .zero, w := Vector.replicate 60 0#32 }
    cbc := { iv := Config.cbcIv, last := Config.cbcIv }
    kx := { privv := false, priv := Vector.replicate 32 0#8 }
    errs := false
    lasterr := 0#4
    inputs := []
    resp := none
    rnd := []
    drawn := 0 }

end Sys2Proof.Machine
end

