-- ==== Sys2Proof/Machine/Ops.lean ====
section
/-! DEFINITION. The named operations on the state: the response (R36), raising an error (R163), the field registers (R11),
the hash units (R15), the other units' registers, the entropy port (R37) and reset (R22, R152, R180). -/

namespace Sys2Proof.Machine

/-- The outcome of a command. -/
abbrev Result := Host.Outcome State Fault Refusal

/-- The errors of R160. -/
inductive Err where
  | invalidInputLength
  | illegalCommand
  | invalidSelector
  | notConfigured
  deriving DecidableEq, Repr

/-- The code of an error (R160). -/
def Err.code : Err → BitVec 4
  | .invalidInputLength => 1#4
  | .illegalCommand => 2#4
  | .invalidSelector => 3#4
  | .notConfigured => 4#4

/-- The code `OK` (R160). -/
def okCode : BitVec 4 := 0#4

/-- The response to a command that executed: `OK` and its result string (R36). -/
def respond (dout : Bytes) (s : State) : State := { s with resp := some { code := okCode, dout := dout } }

/-- `raise E` (R163): `ERRS` ← 1, `LASTERR` ← the code, `RSP` ← the code, `DOUT` empty, and nothing else. -/
def raise (e : Err) (s : State) : State :=
  { s with errs := true, lasterr := e.code, resp := some { code := e.code, dout := [] } }

/-- A command that executed: its final state, with its response. -/
def done (dout : Bytes) (s : State) : Result := .next (respond dout s)

/-- A command that ended in an error. -/
def failed (e : Err) (s : State) : Result := .next (raise e s)

/-- `F[i]` (R11). -/
def getF (s : State) (i : FReg) : Elem := s.f[i]

/-- `F[i] <- v` (R11). -/
def setF (i : FReg) (v : Elem) (s : State) : State := { s with f := s.f.set i v }

/-- Hash unit `v` (R15). -/
def getUnit (s : State) : (v : Variant) → HashUnit v
  | .s32 => s.s32
  | .s64 => s.s64

/-- Hash unit `v` written whole (R15). -/
def setUnit : (v : Variant) → HashUnit v → State → State
  | .s32, u, s => { s with s32 := u }
  | .s64, u, s => { s with s64 := u }

/-- `HASH_INIT v` on the state (R64). -/
def initUnit (v : Variant) (s : State) : State := setUnit v (HashUnit.init v) s

/-- `HCFG <- 1; HSEL <- v` (R81). -/
def setHmacConfig (v : Variant) (s : State) : State := { s with hmac := { s.hmac with hcfg := true, hsel := v } }

/-- `HOUT <- m`. -/
def setHout (m : Memory) (s : State) : State := { s with hmac := { s.hmac with hout := m } }

/-- `KEYED <- 1`, `NK` and `W` written (R95). -/
def setKey (nk : KeyLen) (w : Vector (BitVec 32) 60) (s : State) : State :=
  { s with ciph := { keyed := true, nk := nk, w := w } }

/-- `IV` and `LAST` written (R105). -/
def setCbc (iv last : Vector Byte 16) (s : State) : State := { s with cbc := { iv := iv, last := last } }

/-- `PRIV <- d; PRIVV <- 1` (R146). -/
def setPriv (d : Vector Byte 32) (s : State) : State := { s with kx := { privv := true, priv := d } }

/-- What the next `RND(32)` yields (R37): the answer the environment has queued, else a free value. -/
def drawValue (s : State) : Vector Byte 32 := s.rnd.headD (Config.draw s.drawn)

/-- The state after one `RND(32)`: the read consumes the answer (R37). -/
def drawConsumed (s : State) : State := { s with rnd := s.rnd.tail, drawn := s.drawn + 1 }

/-- Every state element at its reset value (R22, R180). The inputs still to come and the entropy source are outside CORE and
stay; no response has been given since. DESIGN CHOICE (assumptions 12, 13). -/
def resetState (s : State) : State := { State.reset with inputs := s.inputs, rnd := s.rnd, drawn := s.drawn }

end Sys2Proof.Machine
end

