-- ==== Sys2Proof/Machine/Operands.lean ====
section
/-! DEFINITION. The selector enumerations of R47 and the key-size table of R91. A value outside the enumeration has no
reading, and the command raises `InvalidSelector` (R162). -/

namespace Sys2Proof.Machine

/-- The hash variant `sel` names (R47). -/
def variantOf (sel : BitVec 8) : Option Variant :=
  if sel = 0#8 then some .s32 else if sel = 1#8 then some .s64 else none

/-- The key size `sel` names (R47, R91). -/
def keyLenOf (sel : BitVec 8) : Option KeyLen :=
  if sel = 0#8 then some .four else if sel = 1#8 then some .six else if sel = 2#8 then some .eight else none

/-- The swap bit `sel` names (R47). -/
def swapBitOf (sel : BitVec 8) : Option Bool :=
  if sel = 0#8 then some false else if sel = 1#8 then some true else none

/-- `NK` as a number (R10). -/
def KeyLen.words : KeyLen → Nat
  | .zero => 0
  | .four => 4
  | .six => 6
  | .eight => 8

/-- `NR = NK + 6` (R10, R91). -/
def KeyLen.rounds (nk : KeyLen) : Nat := nk.words + 6

/-- The selected hash variant, or `InvalidSelector`. -/
def withVariant (sel : BitVec 8) (s : State) (k : Variant → Result) : Result :=
  match variantOf sel with
  | none => failed .invalidSelector s
  | some v => k v

/-- Go on when `ok` holds, else end with error `e`: one check of R164. -/
def require (e : Err) (ok : Bool) (s : State) (k : Result) : Result := if ok then k else failed e s

end Sys2Proof.Machine
end

