-- ==== Sys2Proof/Machine/CipherCore.lean ====
section
/-! DEFINITION. The cipher's arithmetic and round transformations (R93, R94), key expansion (R95), forward and inverse
cipher (R96, R97). -/

namespace Sys2Proof.Machine

/-- `xtime(a)` (R93). -/
def xtime (a : Byte) : Byte := if a < 0x80#8 then a <<< 1 else (a <<< 1) ^^^ 0x1b#8

/-- The XOR of `xtime^i(a)` over the low `n` bits i of `b` that are set. -/
def gmulBits : Nat → Byte → Byte → Byte
  | 0, _, _ => 0#8
  | n + 1, a, b => (if b.getLsbD 0 then a else 0#8) ^^^ gmulBits n (xtime a) (b >>> 1)

/-- `gmul(a, b)`, the product in GF(2^8) (R93). -/
def gmul (a b : Byte) : Byte := gmulBits 8 a b

/-- `SubBytes` (R94). -/
def subBytes (s : Bytes) : Bytes := s.map sbox

/-- `InvSubBytes` (R94). -/
def invSubBytes (s : Bytes) : Bytes := s.map invSbox

/-- The cipher state whose byte `r + 4c` is byte `src r c` of `s` (R92). -/
def permute (src : Nat → Nat → Nat) (s : Bytes) : Bytes :=
  (List.range 16).map fun i => s.getD (src (i % 4) (i / 4)) 0#8

/-- `ShiftRows` (R94): row r rotated left by r columns. -/
def shiftRows (s : Bytes) : Bytes := permute (fun r c => r + 4 * ((c + r) % 4)) s

/-- `InvShiftRows` (R94): row r rotated right by r columns. -/
def invShiftRows (s : Bytes) : Bytes := permute (fun r c => r + 4 * ((c + 4 - r) % 4)) s

/-- A function of the four bytes of a column, applied to each of the four columns (R92, R94). -/
def onColumns (f : Byte → Byte → Byte → Byte → Bytes) (s : Bytes) : Bytes :=
  (List.range 4).flatMap fun c =>
    f (s.getD (4 * c) 0#8) (s.getD (4 * c + 1) 0#8) (s.getD (4 * c + 2) 0#8) (s.getD (4 * c + 3) 0#8)

/-- One column of `MixColumns` (R94). -/
def mixColumn (a0 a1 a2 a3 : Byte) : Bytes :=
  [ gmul a0 2 ^^^ gmul a1 3 ^^^ a2 ^^^ a3,
    a0 ^^^ gmul a1 2 ^^^ gmul a2 3 ^^^ a3,
    a0 ^^^ a1 ^^^ gmul a2 2 ^^^ gmul a3 3,
    gmul a0 3 ^^^ a1 ^^^ a2 ^^^ gmul a3 2 ]

/-- One column of `InvMixColumns` (R94). -/
def invMixColumn (a0 a1 a2 a3 : Byte) : Bytes :=
  [ gmul a0 14 ^^^ gmul a1 11 ^^^ gmul a2 13 ^^^ gmul a3 9,
    gmul a0 9 ^^^ gmul a1 14 ^^^ gmul a2 11 ^^^ gmul a3 13,
    gmul a0 13 ^^^ gmul a1 9 ^^^ gmul a2 14 ^^^ gmul a3 11,
    gmul a0 11 ^^^ gmul a1 13 ^^^ gmul a2 9 ^^^ gmul a3 14 ]

/-- `MixColumns` (R94). -/
def mixColumns (s : Bytes) : Bytes := onColumns mixColumn s

/-- `InvMixColumns` (R94). -/
def invMixColumns (s : Bytes) : Bytes := onColumns invMixColumn s

/-- The four bytes of a round-key word, `W[i][0]` first (R92). -/
def wordBytes (x : BitVec 32) : Bytes := beBytes 4 x.toNat

/-- The round-key word of four bytes, `W[i][0]` first (R92). -/
def wordOfBytes (b : Bytes) : BitVec 32 := BitVec.ofNat 32 (beNat b)

/-- Round key `r`: `W[4r] || W[4r+1] || W[4r+2] || W[4r+3]` (R92). -/
def roundKey (w : Vector (BitVec 32) 60) (r : Nat) : Bytes := ((w.toList.drop (4 * r)).take 4).flatMap wordBytes

/-- `AddRoundKey(s, r)` (R94). -/
def addRoundKey (w : Vector (BitVec 32) 60) (r : Nat) (s : Bytes) : Bytes := xorBytes s (roundKey w r)

/-- `RotWord` (R95). -/
def rotWord (t : BitVec 32) : BitVec 32 := t.rotateLeft 8

/-- `SubWord` (R95). -/
def subWord (t : BitVec 32) : BitVec 32 := wordOfBytes ((wordBytes t).map sbox)

/-- The word XORed with `W[i − NK]` to give `W[i]`, from `W[i − 1]` (R95). -/
def keyTemp (nk i : Nat) (prev : BitVec 32) : BitVec 32 :=
  if i % nk = 0 then subWord (rotWord prev) ^^^ (rc (i / nk)).setWidth 32 <<< 24
  else if nk > 6 ∧ i % nk = 4 then subWord prev
  else prev

/-- The next `n` round-key words from word `i` on; `ws` holds the words so far, latest first (R95). -/
def expandFrom (nk : Nat) : Nat → Nat → List (BitVec 32) → List (BitVec 32)
  | 0, _, ws => ws
  | n + 1, i, ws => expandFrom nk n (i + 1) ((ws.getD (nk - 1) 0 ^^^ keyTemp nk i (ws.getD 0 0)) :: ws)

/-- The round-key words of a key, in order: 4·(NR + 1) of them (R95). -/
def keyWords (nk : KeyLen) (key : Bytes) : List (BitVec 32) :=
  let first := (blocks 4 nk.words key).map wordOfBytes
  (expandFrom nk.words (4 * (nk.rounds + 1) - nk.words) nk.words first.reverse).reverse

/-- `W[0..59]` after key expansion: the words above the schedule are zero (R95). -/
def keySchedule (nk : KeyLen) (key : Bytes) : Vector (BitVec 32) 60 :=
  Vector.ofFn fun i => (keyWords nk key).getD i.val 0#32

/-- One inner round of the forward cipher (R96). -/
def cipherRound (w : Vector (BitVec 32) 60) (s : Bytes) (r : Nat) : Bytes :=
  addRoundKey w r (mixColumns (shiftRows (subBytes s)))

/-- `Cipher(W, NR, b)` (R96). -/
def cipher (w : Vector (BitVec 32) 60) (nr : Nat) (b : Bytes) : Bytes :=
  let s := (List.range' 1 (nr - 1)).foldl (cipherRound w) (addRoundKey w 0 b)
  addRoundKey w nr (shiftRows (subBytes s))

/-- One inner round of the inverse cipher (R97). -/
def invCipherRound (w : Vector (BitVec 32) 60) (s : Bytes) (r : Nat) : Bytes :=
  invMixColumns (addRoundKey w r (invSubBytes (invShiftRows s)))

/-- `InvCipher(W, NR, b)` (R97). -/
def invCipher (w : Vector (BitVec 32) 60) (nr : Nat) (b : Bytes) : Bytes :=
  let s := (List.range' 1 (nr - 1)).reverse.foldl (invCipherRound w) (addRoundKey w nr b)
  addRoundKey w 0 (invSubBytes (invShiftRows s))

end Sys2Proof.Machine
end

