-- ==== Sys2Proof/Machine/Cbc.lean ====
section
/-! DEFINITION. The chaining mode (R106 to R109) and its commands: `CBC_ENCRYPT`, `CBC_DECRYPT`. -/

namespace Sys2Proof.Machine

/-- Zero-fill to 16 bytes (R107): only a short last block changes. -/
def fillBlock (b : Bytes) : Bytes := b ++ zeros (16 - b.length)

/-- The ciphertext blocks of plaintext blocks, with `last` the chaining state before the first (R107). -/
def cbcChain (c : Bytes → Bytes) : Bytes → List Bytes → Bytes
  | _, [] => []
  | last, b :: bs =>
    let out := c (xorBytes (fillBlock b) last)
    out ++ cbcChain c out bs

/-- The plaintext of ciphertext blocks, with `last` the chaining state before the first: the chain takes the input block
(R108). -/
def cbcUnchain (d : Bytes → Bytes) : Bytes → List Bytes → Bytes
  | _, [] => []
  | last, b :: bs => xorBytes (d b) last ++ cbcUnchain d b bs

/-- `CBC_ENCRYPT`'s result from a given IV (R107). -/
def cbcEncrypt (iv : Bytes) (w : Vector (BitVec 32) 60) (nr : Nat) (p : Bytes) : Bytes :=
  cbcChain (cipher w nr) iv (blocks 16 ((p.length + 15) / 16) p)

/-- `CBC_DECRYPT`'s result from a given IV (R108). -/
def cbcDecrypt (iv : Bytes) (w : Vector (BitVec 32) 60) (nr : Nat) (c : Bytes) : Bytes :=
  cbcUnchain (invCipher w nr) iv (blocks 16 (c.length / 16) c)

/-- `IV` and `LAST` at the end of a call: both `CBC_IV` (R106, R109). -/
def resetChain (s : State) : State := setCbc Config.cbcIv Config.cbcIv s

/-- `CBC_ENCRYPT plaintext` (R107). -/
def execCbcEncrypt (plaintext : Bytes) (s : State) : Result :=
  require .notConfigured s.ciph.keyed s
    (done (cbcEncrypt Config.cbcIv.toList s.ciph.w s.ciph.nk.rounds plaintext) (resetChain s))

/-- `CBC_DECRYPT ciphertext` (R108). -/
def execCbcDecrypt (ciphertext : Bytes) (s : State) : Result :=
  require .notConfigured s.ciph.keyed s
    (require .invalidInputLength (decide (ciphertext.length % 16 = 0)) s
      (done (cbcDecrypt Config.cbcIv.toList s.ciph.w s.ciph.nk.rounds ciphertext) (resetChain s)))

end Sys2Proof.Machine
end

