-- ==== Sys2Proof/Machine/Cipher.lean ====
section
/-! DEFINITION. The cipher commands: `AES_KEYEXP`, `AES_CIPHER`, `AES_INVCIPHER` (R95 to R97). -/

namespace Sys2Proof.Machine

/-- `AES_KEYEXP size, key` (R95). -/
def execAesKeyexp (sel : BitVec 8) (key : Bytes) (s : State) : Result :=
  match keyLenOf sel with
  | none => failed .invalidSelector s
  | some nk =>
    require .invalidInputLength (decide (key.length = 4 * nk.words)) s (done [] (setKey nk (keySchedule nk key) s))

/-- The checks of a single-block command, in order: a key (R165), then 16 bytes (R167). -/
def withBlock (block : Bytes) (s : State) (k : Result) : Result :=
  require .notConfigured s.ciph.keyed s (require .invalidInputLength (decide (block.length = 16)) s k)

/-- `AES_CIPHER block` (R96). -/
def execAesCipher (block : Bytes) (s : State) : Result :=
  withBlock block s (done (cipher s.ciph.w s.ciph.nk.rounds block) s)

/-- `AES_INVCIPHER block` (R97). -/
def execAesInvcipher (block : Bytes) (s : State) : Result :=
  withBlock block s (done (invCipher s.ciph.w s.ciph.nk.rounds block) s)

end Sys2Proof.Machine
end

