-- ==== Sys2Proof/Machine/FieldCore.lean ====
section
/-! DEFINITION. The field functions on elements of 16 integer limbs (R115 to R128), and for each command the integer values
its rule names, which R116 confines to the 64-bit signed range. -/

namespace Sys2Proof.Machine

/-- A field element as the rules compute with it: its limbs, limb 0 first, mathematical integers (R9 6.1, R115). -/
abbrev Fe := List Int

/-- `val(e) = Σ e[k]·2^(16k)` (R115). -/
def Fe.val : Fe → Int
  | [] => 0
  | x :: e => x + 2 ^ 16 * Fe.val e

/-- The prime p = 2^255 − 19 (R115). -/
def fieldPrime : Int := 2 ^ 255 - 19

/-- The limbs of p (R115). -/
def primeLimbs : Fe := 0xffed :: (List.replicate 14 0xffff ++ [0x7fff])

/-- The limbs a register's containers hold (R116). -/
def Elem.toFe (e : Elem) : Fe := e.toList.map BitVec.toInt

/-- The containers holding an element's limbs (R116). -/
def Fe.toElem (e : Fe) : Elem := Vector.ofFn fun k => BitVec.ofInt 64 (e.getD k.val 0)

/-- A value a 64-bit two's complement container can hold (R116). -/
def fits64 (x : Int) : Bool := decide (-2 ^ 63 ≤ x) && decide (x < 2 ^ 63)

/-- The domain of R116: every named value fits its container. Which values count as named: DEDUCED (assumption 7). -/
def inDomain (named : List Int) : Bool := named.all fits64

/-- FN, fully normalised (R117): every limb in [0, 2^16). -/
def Fe.fn (e : Fe) : Bool := e.all fun x => decide (0 ≤ x) && decide (x < 2 ^ 16)

/-- WN, weakly normalised (R117): limbs 1..15 in [0, 2^16), limb 0 in [−38, 2^16 + 38). -/
def Fe.wn (e : Fe) : Bool := decide (-38 ≤ e.headD 0) && decide (e.headD 0 < 2 ^ 16 + 38) && Fe.fn e.tail

/-- β-bounded (R131): every limb has absolute value at most β. -/
def Fe.bounded (β : Int) (e : Fe) : Bool := e.all fun x => decide (-β ≤ x) && decide (x ≤ β)

/-! ### Carry normalisation (R118) -/

/-- The limbs from one on, with the carry `c` coming in; the second part is the carry going out. -/
def carryChain (c : Int) : Fe → Fe × Int
  | [] => ([], c)
  | x :: e =>
    let v := x + c
    let out := v / 2 ^ 16
    let rest := carryChain out e
    ((v - out * 2 ^ 16) :: rest.1, rest.2)

/-- The values `carryChain` names: each limb with its carry in, and each carry out. -/
def carryChainNamed (c : Int) : Fe → List Int
  | [] => []
  | x :: e =>
    let v := x + c
    v :: v / 2 ^ 16 :: carryChainNamed (v / 2 ^ 16) e

/-- `o[0] <- o[0] + x`. -/
def addToLimb0 (x : Int) : Fe → Fe
  | [] => []
  | y :: e => (y + x) :: e

/-- `Carry(e)`: one carry pass (R118). -/
def Fe.carry (e : Fe) : Fe :=
  let r := carryChain 0 e
  addToLimb0 (38 * r.2) r.1

/-- The values one carry pass names. -/
def Fe.carryNamed (e : Fe) : List Int := carryChainNamed 0 e ++ Fe.carry e

/-! ### Unpack, constants (R119, R128) -/

/-- `Unpack(b)` (R119). -/
def Fe.unpack (b : Bytes) : Fe :=
  (List.range 16).map fun k =>
    let limb := (b.getD (2 * k) 0#8).toNat + 256 * (b.getD (2 * k + 1) 0#8).toNat
    if k = 15 then ((limb &&& 0x7fff : Nat) : Int) else (limb : Int)

/-- An element with limb 0 and limb 1 as given, other limbs 0. -/
def Fe.small (x y : Int) : Fe := x :: y :: List.replicate 14 0

/-- `CONST[0]`, the element zero (R128). -/
def Fe.zero : Fe := Fe.small 0 0

/-- `CONST[1]`, the element one (R128). -/
def Fe.one : Fe := Fe.small 1 0

/-- `CONST[2]`, the element 121665 (R128, R135). -/
def Fe.a24 : Fe := Fe.small 0xDB41 1

/-- `CONST[3]`, the element 9 (R128, R145). -/
def Fe.nine : Fe := Fe.small 9 0

/-- The constant `sel` names (R47, R128). -/
def constOf (sel : BitVec 8) : Option Fe :=
  if sel = 0#8 then some Fe.zero else if sel = 1#8 then some Fe.one else if sel = 2#8 then some Fe.a24
  else if sel = 3#8 then some Fe.nine else none

/-! ### Add, subtract, multiply, square (R121 to R124) -/

/-- `Add(a, b)` (R121). -/
def Fe.add (a b : Fe) : Fe := List.zipWith (· + ·) a b

/-- `Sub(a, b)` (R122). -/
def Fe.sub (a b : Fe) : Fe := List.zipWith (· - ·) a b

/-- `t` with `row` added to it from limb 0 on. -/
def addInto : List Int → List Int → List Int
  | t, [] => t
  | [], _ => []
  | x :: t, y :: row => (x + y) :: addInto t row

/-- `t` with `row` added to it from limb `i` on. -/
def addAt : Nat → List Int → List Int → List Int
  | 0, t, row => addInto t row
  | _, [], _ => []
  | i + 1, x :: t, row => x :: addAt i t row

/-- The convolution's outer loop from index `i` on: `t[i+j] <- t[i+j] + a[i]·b[j]` (R123). -/
def convolve (b : Fe) : Nat → Fe → List Int → List Int
  | _, [], t => t
  | i, x :: a, t => convolve b (i + 1) a (addAt i t (b.map (x * ·)))

/-- The values the convolution names: all of `t` after each pass of the outer loop. Each entry of `t` changes at most once
in a pass. -/
def convolveNamed (b : Fe) : Nat → Fe → List Int → List Int
  | _, [], _ => []
  | i, x :: a, t =>
    let t' := addAt i t (b.map (x * ·))
    t' ++ convolveNamed b (i + 1) a t'

/-- The 31 limbs of the product, before the fold (R123). -/
def product (a b : Fe) : List Int := convolve b 0 a (List.replicate 31 0)

/-- Limbs 16 to 30 folded onto 0 to 14, times 38; limbs 0 to 15 are kept (R123). -/
def fold38 (t : List Int) : Fe := addInto (t.take 16) ((t.drop 16).map (38 * ·))

/-- `Mul(a, b)` (R123). -/
def Fe.mul (a b : Fe) : Fe := Fe.carry (Fe.carry (fold38 (product a b)))

/-- The values `Mul(a, b)` names. -/
def Fe.mulNamed (a b : Fe) : List Int :=
  let o := fold38 (product a b)
  convolveNamed b 0 a (List.replicate 31 0) ++ o ++ Fe.carryNamed o ++ Fe.carryNamed (Fe.carry o)

/-- `Sqr(a)` (R124). -/
def Fe.sqr (a : Fe) : Fe := Fe.mul a a

/-- `CSwap(p, q, bit)` (R125). -/
def cswap {α : Type} (p q : α) (bit : Bool) : α × α := if bit then (q, p) else (p, q)

/-! ### Inversion (R126) -/

/-- One iteration, at position `k`: a square, and a multiply unless `k` is 2 or 4 (R126). -/
def invStep (a c : Fe) (k : Nat) : Fe := if k ≠ 2 ∧ k ≠ 4 then Fe.mul (Fe.sqr c) a else Fe.sqr c

/-- Iterations `k − 1` down to 0 (R126). -/
def invLoop (a : Fe) : Nat → Fe → Fe
  | 0, c => c
  | k + 1, c => invLoop a k (invStep a c k)

/-- `Inv(a)` (R126). -/
def Fe.inv (a : Fe) : Fe := invLoop a 254 a

/-- Whether iterations `k − 1` down to 0 stay in the domain of R116. -/
def invLoopDomain (a : Fe) : Nat → Fe → Bool
  | 0, _ => true
  | k + 1, c =>
    inDomain (Fe.mulNamed c c) && (decide (k = 2 ∨ k = 4) || inDomain (Fe.mulNamed (Fe.sqr c) a))
      && invLoopDomain a k (invStep a c k)

/-- Whether `Inv(a)` stays in the domain of R116. On a 2^26-bounded element it always does (R126, R131 (b)), so only a larger
one is followed through the loop. DEDUCED (assumption 8). -/
def Fe.invDomain (a : Fe) : Bool := Fe.bounded (2 ^ 26) a || invLoopDomain a 254 a

/-! ### Pack (R127) -/

/-- `bit16(v)` (R127). -/
def bit16 (v : Int) : Int := v / 2 ^ 16 % 2

/-- `t − p` limb by limb with the borrow `bw` coming in: every limb but the last reduced modulo 2^16; the second part is the
final borrow (R127). -/
def subtractPrime (bw : Int) : List (Int × Int) → Fe × Int
  | [] => ([], bw)
  | [(t, p)] => ([t - p - bw], bit16 (t - p - bw))
  | (t, p) :: rest =>
    let m := t - p - bw
    let r := subtractPrime (bit16 m) rest
    (m % 2 ^ 16 :: r.1, r.2)

/-- The values `subtractPrime` names: each `m[i]` before its reduction. -/
def subtractNamed (bw : Int) : List (Int × Int) → List Int
  | [] => []
  | (t, p) :: rest => (t - p - bw) :: subtractNamed (bit16 (t - p - bw)) rest

/-- One round of the conditional subtraction: `t − p` when there was no borrow (R127). -/
def reduceOnce (t : Fe) : Fe :=
  let r := subtractPrime 0 (t.zip primeLimbs)
  (cswap t r.1 (decide (1 - r.2 = 1))).1

/-- Limbs written little-endian, two bytes each (R31 (b), R127). -/
def limbBytes (t : Fe) : Bytes := t.flatMap fun x => [BitVec.ofInt 8 x, BitVec.ofInt 8 (x / 256)]

/-- `Pack(e)` (R127), with two rounds (decision D20), outside its value-level domain too (U4). DESIGN CHOICE (assumption 22). -/
def Fe.pack (e : Fe) : Bytes := limbBytes (reduceOnce (reduceOnce (Fe.carry (Fe.carry e))))

/-- The values `Pack(e)` names. -/
def Fe.packNamed (e : Fe) : List Int :=
  let t := Fe.carry (Fe.carry e)
  Fe.carryNamed e ++ Fe.carryNamed (Fe.carry e) ++ subtractNamed 0 (t.zip primeLimbs)
    ++ subtractNamed 0 ((reduceOnce t).zip primeLimbs)

end Sys2Proof.Machine
end

