-- ==== Sys2Proof/Machine/Field.lean ====
section
/-! DEFINITION. The field commands on the registers F0 to F15 (R119 to R129). Every command reads its sources before it
writes (R46, R188). -/

namespace Sys2Proof.Machine

/-- `F[rd] <- e`, a command without result. -/
def writeFe (rd : FReg) (e : Fe) (s : State) : Result := done [] (setF rd e.toElem s)

/-- Go on inside the domain of R116, refuse outside it (U2). -/
def ifInDomain (ok : Bool) (k : Result) : Result := if ok then k else .refused .limbOutOfDomain

/-- `F[i]` as an element of integers (R116). -/
def feOf (s : State) (i : FReg) : Fe := (getF s i).toFe

/-- `FE_UNPACK rd, bytes` (R119). -/
def execFeUnpack (rd : FReg) (bytes : Bytes) (s : State) : Result :=
  require .invalidInputLength (decide (bytes.length = 32)) s (writeFe rd (Fe.unpack bytes) s)

/-- `FE_PACK ra` (R127). -/
def execFePack (ra : FReg) (s : State) : Result :=
  ifInDomain (inDomain (Fe.packNamed (feOf s ra))) (done (Fe.pack (feOf s ra)) s)

/-- `FE_ADD rd, ra, rb` (R121). -/
def execFeAdd (rd ra rb : FReg) (s : State) : Result :=
  let o := Fe.add (feOf s ra) (feOf s rb)
  ifInDomain (inDomain o) (writeFe rd o s)

/-- `FE_SUB rd, ra, rb` (R122). -/
def execFeSub (rd ra rb : FReg) (s : State) : Result :=
  let o := Fe.sub (feOf s ra) (feOf s rb)
  ifInDomain (inDomain o) (writeFe rd o s)

/-- `FE_MUL rd, ra, rb` (R123). -/
def execFeMul (rd ra rb : FReg) (s : State) : Result :=
  ifInDomain (inDomain (Fe.mulNamed (feOf s ra) (feOf s rb))) (writeFe rd (Fe.mul (feOf s ra) (feOf s rb)) s)

/-- `FE_SQR rd, ra` (R124). -/
def execFeSqr (rd ra : FReg) (s : State) : Result :=
  ifInDomain (inDomain (Fe.mulNamed (feOf s ra) (feOf s ra))) (writeFe rd (Fe.sqr (feOf s ra)) s)

/-- `FE_CARRY rd, ra` (R120). -/
def execFeCarry (rd ra : FReg) (s : State) : Result :=
  ifInDomain (inDomain (Fe.carryNamed (feOf s ra))) (writeFe rd (Fe.carry (feOf s ra)) s)

/-- `FE_CSWAP ra, rb, bit` (R125): the containers are exchanged as they are. -/
def execFeCswap (ra rb : FReg) (sel : BitVec 8) (s : State) : Result :=
  match swapBitOf sel with
  | none => failed .invalidSelector s
  | some b =>
    let r := cswap (getF s ra) (getF s rb) b
    done [] (setF rb r.2 (setF ra r.1 s))

/-- `FE_INV rd, ra` (R126). -/
def execFeInv (rd ra : FReg) (s : State) : Result :=
  ifInDomain (Fe.invDomain (feOf s ra)) (writeFe rd (Fe.inv (feOf s ra)) s)

/-- `FE_CONST rd, id` (R128). -/
def execFeConst (rd : FReg) (sel : BitVec 8) (s : State) : Result :=
  match constOf sel with
  | none => failed .invalidSelector s
  | some e => writeFe rd e s

/-- `FE_MOV rd, ra` (R129). -/
def execFeMov (rd ra : FReg) (s : State) : Result := done [] (setF rd (getF s ra) s)

end Sys2Proof.Machine
end

