-- ==== Sys2Proof/Machine/HashCore.lean ====
section
/-! DEFINITION. The compression function (R61 to R63), the pure digest (R69) and the streaming of a message through a hash
unit (R65, R66). -/

namespace Sys2Proof.Machine

/-- `BSIG0` (R61, R62). -/
def bsig0 : (v : Variant) → BitVec v.wordBits → BitVec v.wordBits
  | .s32, x => x.rotateRight 2 ^^^ x.rotateRight 13 ^^^ x.rotateRight 22
  | .s64, x => x.rotateRight 28 ^^^ x.rotateRight 34 ^^^ x.rotateRight 39

/-- `BSIG1` (R61, R62). -/
def bsig1 : (v : Variant) → BitVec v.wordBits → BitVec v.wordBits
  | .s32, x => x.rotateRight 6 ^^^ x.rotateRight 11 ^^^ x.rotateRight 25
  | .s64, x => x.rotateRight 14 ^^^ x.rotateRight 18 ^^^ x.rotateRight 41

/-- `SSIG0` (R61, R62). -/
def ssig0 : (v : Variant) → BitVec v.wordBits → BitVec v.wordBits
  | .s32, x => x.rotateRight 7 ^^^ x.rotateRight 18 ^^^ (x >>> 3)
  | .s64, x => x.rotateRight 1 ^^^ x.rotateRight 8 ^^^ (x >>> 7)

/-- `SSIG1` (R61, R62). -/
def ssig1 : (v : Variant) → BitVec v.wordBits → BitVec v.wordBits
  | .s32, x => x.rotateRight 17 ^^^ x.rotateRight 19 ^^^ (x >>> 10)
  | .s64, x => x.rotateRight 19 ^^^ x.rotateRight 61 ^^^ (x >>> 6)

/-- The 16 message words of a block, each read big-endian (R31 (a), R63). -/
def messageWords (v : Variant) (block : Bytes) : List (BitVec v.wordBits) :=
  (blocks v.wordBytes 16 block).map fun s => BitVec.ofNat v.wordBits (beNat s)

/-- The next schedule word, from the words so far, latest first: `Wt[t-2]` is entry 1 (R63). -/
def nextWord (v : Variant) (ws : List (BitVec v.wordBits)) : BitVec v.wordBits :=
  ssig1 v (ws.getD 1 0) + ws.getD 6 0 + ssig0 v (ws.getD 14 0) + ws.getD 15 0

/-- The schedule extended by `n` words, latest first (R63). -/
def extendSchedule (v : Variant) : Nat → List (BitVec v.wordBits) → List (BitVec v.wordBits)
  | 0, ws => ws
  | n + 1, ws => extendSchedule v n (nextWord v ws :: ws)

/-- The message schedule `Wt[0 .. NROUNDS − 1]` (R63). -/
def schedule (v : Variant) (block : Bytes) : List (BitVec v.wordBits) :=
  (extendSchedule v (v.rounds - 16) (messageWords v block).reverse).reverse

/-- The eight working variables of the compression function (R63). -/
structure WorkVars (v : Variant) where
  a : BitVec v.wordBits
  b : BitVec v.wordBits
  c : BitVec v.wordBits
  d : BitVec v.wordBits
  e : BitVec v.wordBits
  f : BitVec v.wordBits
  g : BitVec v.wordBits
  h : BitVec v.wordBits
  deriving DecidableEq, Repr

/-- `CH` (R63). -/
def choose {w : Nat} (e f g : BitVec w) : BitVec w := (e &&& f) ^^^ (~~~e &&& g)

/-- `MAJ` (R63). -/
def majority {w : Nat} (a b c : BitVec w) : BitVec w := (a &&& b) ^^^ (a &&& c) ^^^ (b &&& c)

/-- One round, with its constant `K[t]` and schedule word `Wt[t]` (R63). -/
def hashRound (v : Variant) (x : WorkVars v) (kw : BitVec v.wordBits × BitVec v.wordBits) : WorkVars v :=
  let t1 := x.h + bsig1 v x.e + choose x.e x.f x.g + kw.1 + kw.2
  let t2 := bsig0 v x.a + majority x.a x.b x.c
  { a := t1 + t2, b := x.a, c := x.b, d := x.c, e := x.d + t1, f := x.e, g := x.f, h := x.g }

/-- `COMPRESS_v(H, block)` (R63). -/
def compress (v : Variant) (H : Vector (BitVec v.wordBits) 8) (block : Bytes) : Vector (BitVec v.wordBits) 8 :=
  let x := ((roundConstants v).zip (schedule v block)).foldl (hashRound v)
    { a := H[0], b := H[1], c := H[2], d := H[3], e := H[4], f := H[5], g := H[6], h := H[7] }
  #v[H[0] + x.a, H[1] + x.b, H[2] + x.c, H[3] + x.d, H[4] + x.e, H[5] + x.f, H[6] + x.g, H[7] + x.h]

/-- The digest string of a running state: its words big-endian, concatenated (R31 (a), R66). -/
def digestBytes (v : Variant) (H : Vector (BitVec v.wordBits) 8) : Bytes :=
  H.toList.flatMap fun x => beBytes v.wordBytes x.toNat

/-- One message byte into a unit: stored at `FILL_v`, counted in bits, and the block compressed when it is full (R65). -/
def absorbByte {v : Variant} (u : HashUnit v) (b : Byte) : HashUnit v :=
  let buf := u.buf.write u.fill.val b
  let len := u.len + 8#v.lenBits
  if h : u.fill.val + 1 < v.blockBytes then { u with buf := buf, fill := ⟨u.fill.val + 1, h⟩, len := len }
  else
    { h := compress v u.h (buf.readBytes 0 v.blockBytes), buf := Memory.cleared,
      fill := ⟨0, by cases v <;> decide⟩, len := len }

/-- The bytes of a message into a unit, in order (R65). -/
def absorb {v : Variant} (u : HashUnit v) (data : Bytes) : HashUnit v := data.foldl absorbByte u

/-- A unit whose buffer is full: compressed, and the buffer zeroed (R66). -/
def compressBuffer {v : Variant} (u : HashUnit v) : HashUnit v :=
  { u with h := compress v u.h (u.buf.readBytes 0 v.blockBytes), buf := Memory.cleared }

/-- The padding and the last compressions of a message (R66): the unit before it is initialised again. -/
def padAndCompress {v : Variant} (u : HashUnit v) : HashUnit v :=
  let marked := { u with buf := u.buf.write u.fill.val 0x80#8 }
  let roomy := if u.fill.val + 1 > v.blockBytes - v.lenBytes then compressBuffer marked else marked
  let sized := roomy.buf.writeBytes (v.blockBytes - v.lenBytes) (beBytes v.lenBytes u.len.toNat)
  compressBuffer { roomy with buf := sized }

/-- The digest `HASH_FINAL v` returns (R66). -/
def finalDigest {v : Variant} (u : HashUnit v) : Bytes := digestBytes v (padAndCompress u).h

/-- Whether a unit can absorb `n` more message bytes: `LEN_v + 8·n` stays below 2^(8·lenbytes) (R65, R68). -/
def lengthFits {v : Variant} (u : HashUnit v) (n : Nat) : Bool := decide (u.len.toNat + 8 * n < 2 ^ v.lenBits)

/-- The zero bytes of the padding: the least z with (n + 1 + z) mod B = B − lenbytes (R69). -/
def padZeros (v : Variant) (n : Nat) : Nat := (2 * v.blockBytes - v.lenBytes - 1 - n % v.blockBytes) % v.blockBytes

/-- The padded message M (R69). -/
def padded (v : Variant) (m : Bytes) : Bytes :=
  m ++ [0x80#8] ++ zeros (padZeros v m.length) ++ beBytes v.lenBytes (8 * m.length)

/-- The pure function `Digest_v(m)` (R69). -/
def digest (v : Variant) (m : Bytes) : Bytes :=
  let M := padded v m
  digestBytes v ((blocks v.blockBytes (M.length / v.blockBytes) M).foldl (compress v) (h0 v))

/-- Whether a message of `n` bytes is in the domain of `Digest_v` (R68, R69). -/
def digestDomain (v : Variant) (n : Nat) : Bool := decide (8 * n < 2 ^ v.lenBits)

end Sys2Proof.Machine
end

