-- ==== Sys2Proof/Machine/Hash.lean ====
section
/-! DEFINITION. The hash commands: `HASH_INIT`, `HASH_UPDATE`, `HASH_FINAL`, `HASH_DIGEST` (R64 to R68). -/

namespace Sys2Proof.Machine

/-- `HASH_INIT v` (R64). -/
def execHashInit (sel : BitVec 8) (s : State) : Result :=
  withVariant sel s fun v => done [] (initUnit v s)

/-- `HASH_UPDATE v, data` (R65), refused beyond the length field (R68). -/
def execHashUpdate (sel : BitVec 8) (data : Bytes) (s : State) : Result :=
  withVariant sel s fun v =>
    if lengthFits (getUnit s v) data.length then done [] (setUnit v (absorb (getUnit s v) data) s)
    else .refused .hashLengthOutOfDomain

/-- `HASH_FINAL v` (R66). -/
def execHashFinal (sel : BitVec 8) (s : State) : Result :=
  withVariant sel s fun v => done (finalDigest (getUnit s v)) (initUnit v s)

/-- `HASH_DIGEST v, message` (R67): `HASH_INIT v`, `HASH_UPDATE v, message`, `HASH_FINAL v` as one command. -/
def execHashDigest (sel : BitVec 8) (message : Bytes) (s : State) : Result :=
  withVariant sel s fun v =>
    if lengthFits (HashUnit.init v) message.length then
      done (finalDigest (absorb (HashUnit.init v) message)) (initUnit v s)
    else .refused .hashLengthOutOfDomain

end Sys2Proof.Machine
end

