-- ==== Sys2Proof/Machine/Hmac.lean ====
section
/-! DEFINITION. The keyed-hash function (R80) and its commands: `HMAC_CONFIG`, `HMAC_DIGEST`, `HMAC_READ` (R81 to R83). -/

namespace Sys2Proof.Machine

/-- The key as the pads use it: hashed first when longer than a block (R80). -/
def hmacKey (v : Variant) (key : Bytes) : Bytes := if key.length > v.blockBytes then digest v key else key

/-- The prepared key K0, exactly B bytes (R80). -/
def hmacK0 (v : Variant) (key : Bytes) : Bytes :=
  hmacKey v key ++ zeros (v.blockBytes - (hmacKey v key).length)

/-- `Hmac_v(key, message)` (R80). -/
def hmac (v : Variant) (key message : Bytes) : Bytes :=
  let ipad := xorBytes (hmacK0 v key) (rep 0x36#8 v.blockBytes)
  let opad := xorBytes (hmacK0 v key) (rep 0x5c#8 v.blockBytes)
  digest v (opad ++ digest v (ipad ++ message))

/-- Whether every digest of `Hmac_v` is in its domain (R68, U1): the key's, when it is hashed, and the inner one. The outer
message is short. DEDUCED (assumption 17). -/
def hmacDomain (v : Variant) (key message : Bytes) : Bool :=
  (decide (key.length ≤ v.blockBytes) || digestDomain v key.length) && digestDomain v (v.blockBytes + message.length)

/-- `HMAC_CONFIG v` (R81). -/
def execHmacConfig (sel : BitVec 8) (s : State) : Result :=
  withVariant sel s fun v => done [] (setHmacConfig v s)

/-- `HOUT` holding a result: the result's bytes, and zeros after them (R82). -/
def houtOf (r : Bytes) : Memory := Memory.writeBytes Memory.cleared 0 r

/-- `HMAC_DIGEST key, message` (R82), refused beyond the length field (R68, U1). -/
def execHmacDigest (key message : Bytes) (s : State) : Result :=
  require .notConfigured s.hmac.hcfg s
    (if hmacDomain s.hmac.hsel key message then
      let r := hmac s.hmac.hsel key message
      done r (initUnit s.hmac.hsel (setHout (houtOf r) s))
    else .refused .hashLengthOutOfDomain)

/-- `HMAC_READ` (R83). -/
def execHmacRead (s : State) : Result :=
  done (if s.hmac.hcfg then s.hmac.hout.readBytes 0 s.hmac.hsel.digestBytes else []) s

end Sys2Proof.Machine
end

