-- ==== Sys2Proof/Machine/LadderCore.lean ====
section
/-! DEFINITION. Clamping (R136), the ladder step (R137) and the scalar multiplication (R138), on private working registers
(R20): no field register is read or written. No step leaves the domain of R116 (R139): DEDUCED (assumption 9). -/

namespace Sys2Proof.Machine

/-- `Clamp_n(s)`, n the scalar's length (R136). -/
def clamp (s : Bytes) : Bytes :=
  let z := s.set 0 (s.getD 0 0#8 &&& 0xF8#8)
  z.set (s.length - 1) (z.getD (s.length - 1) 0#8 &&& 0x7F#8 ||| 0x40#8)

/-- Bit `i` of the scalar `z` (R31 (c), R138). -/
def scalarBit (z : Bytes) (i : Nat) : Bool := (z.getD (i / 8) 0#8).getLsbD (i % 8)

/-- The four running elements (a : c) and (b : d) (R137). -/
structure Ladder where
  a : Fe
  b : Fe
  c : Fe
  d : Fe
  deriving DecidableEq, Repr

/-- The two swaps of a step, each pair by the same bit (R137). -/
def ladderSwap (r : Bool) (l : Ladder) : Ladder :=
  let ab := cswap l.a l.b r
  let cd := cswap l.c l.d r
  { a := ab.1, b := ab.2, c := cd.1, d := cd.2 }

/-- The arithmetic of a step, between the swaps: the statements of R137 in their order. -/
def ladderArith (x : Fe) (l : Ladder) : Ladder :=
  let e := Fe.add l.a l.c
  let a := Fe.sub l.a l.c
  let c := Fe.add l.b l.d
  let b := Fe.sub l.b l.d
  let d := Fe.sqr e
  let f := Fe.sqr a
  let a := Fe.mul c a
  let c := Fe.mul b e
  let e := Fe.add a c
  let a := Fe.sub a c
  let b := Fe.sqr a
  let c := Fe.sub d f
  let a := Fe.mul c Fe.a24
  let a := Fe.add a d
  let c := Fe.mul c a
  let a := Fe.mul d f
  let d := Fe.mul b x
  let b := Fe.sqr e
  { a := a, b := b, c := c, d := d }

/-- `LadderStep(a, b, c, d, x, r)` (R137). -/
def ladderStep (x : Fe) (r : Bool) (l : Ladder) : Ladder := ladderSwap r (ladderArith x (ladderSwap r l))

/-- The steps at bits `i − 1` down to 0 (R138). -/
def ladderLoop (z : Bytes) (x : Fe) : Nat → Ladder → Ladder
  | 0, l => l
  | i + 1, l => ladderLoop z x i (ladderStep x (scalarBit z i) l)

/-- (a : c) = (1 : 0), (b : d) = (x : 1) (R138). -/
def ladderStart (x : Fe) : Ladder := { a := Fe.one, b := x, c := Fe.zero, d := Fe.one }

/-- `ScalarMult_n(s, q)`, n the scalar's length: bits 8n − 2 down to 0 (R138). -/
def scalarMult (s q : Bytes) : Bytes :=
  let x := Fe.unpack q
  let l := ladderLoop (clamp s) x (8 * s.length - 1) (ladderStart x)
  Fe.pack (Fe.mul l.a (Fe.inv l.c))

/-- `BASE`: 09 followed by 31 zero bytes (R145). -/
def basePoint : Bytes := 0x09#8 :: zeros 31

end Sys2Proof.Machine
end

