-- ==== Sys2Proof/Machine/Kx.lean ====
section
/-! DEFINITION. The key-exchange commands: `KX_KEYGEN`, `KX_SHARED` (R146, R147). -/

namespace Sys2Proof.Machine

/-- `KX_KEYGEN` (R146): one draw, kept as drawn; the public value is the result. -/
def execKxKeygen (s : State) : Result :=
  let d := drawValue s
  done (scalarMult d.toList basePoint) (setPriv d (drawConsumed s))

/-- `KX_SHARED peer` (R147). -/
def execKxShared (peer : Bytes) (s : State) : Result :=
  require .notConfigured s.kx.privv s
    (require .invalidInputLength (decide (peer.length = 32)) s (done (scalarMult s.kx.priv.toList peer) s))

end Sys2Proof.Machine
end

