-- ==== Sys2Proof/Machine/Ladder.lean ====
section
/-! DEFINITION. The ladder commands: `X25519`, `X25519_64` (R140, R141). -/

namespace Sys2Proof.Machine

/-- The length check of a ladder command, for scalars of `n` bytes (R32, R167). -/
def withScalar (n : Nat) (scalar point : Bytes) (s : State) (k : Result) : Result :=
  require .invalidInputLength (decide (scalar.length = n ∧ point.length = 32)) s k

/-- `X25519 scalar, point` (R140). -/
def execX25519 (scalar point : Bytes) (s : State) : Result :=
  withScalar 32 scalar point s (done (scalarMult scalar point) s)

/-- `X25519_64` in a given mode; the length check comes first in both (R141). -/
def x25519Long (mode : Ladder64Mode) (scalar point : Bytes) (s : State) : Result :=
  withScalar 64 scalar point s
    (match mode with
    | .extended => done (scalarMult scalar point) s
    | .refuse => .refused .ladder64Refused)

/-- `X25519_64 scalar, point` (R141), in the configured mode. -/
def execX25519_64 (scalar point : Bytes) (s : State) : Result := x25519Long Config.ladder64Mode scalar point s

end Sys2Proof.Machine
end

