-- ==== Sys2Proof/Machine/Flags.lean ====
section
/-! DEFINITION. The status bits of R13 and the view `STATUS` (R14). There is no arithmetic flag (R13). -/

namespace Sys2Proof.Machine

/-- A one-bit flag as a number. -/
def bit (b : Bool) : Nat := if b then 1 else 0

/-- `NKF` (R14, DEDUCED, assumption 11): 0 for `NK` = 0, 1 for 4, 2 for 6, 3 for 8. -/
def nkf : KeyLen → Nat
  | .zero => 0
  | .four => 1
  | .six => 2
  | .eight => 3

/-- `HSEL` as a number: 0 = S32, 1 = S64 (R10). -/
def hselBit : Variant → Nat
  | .s32 => 0
  | .s64 => 1

/-- `STATUS`, 32 bits (R14), as R151 computes it; bits 6 and 31:12 read 0. -/
def statusWord (s : State) : BitVec 32 :=
  BitVec.ofNat 32 (bit s.ciph.keyed + 2 * nkf s.ciph.nk + 8 * bit s.hmac.hcfg + 16 * hselBit s.hmac.hsel
    + 32 * bit s.kx.privv + 128 * bit s.errs + 256 * s.lasterr.toNat)

end Sys2Proof.Machine
end

