-- ==== Sys2Proof/Machine/System.lean ====
section
/-! DEFINITION. The system commands: `NOP`, `RD_STATUS`, `SOFT_RESET` (R150 to R152). -/

namespace Sys2Proof.Machine

/-- `NOP` (R150): nothing but the response. -/
def execNop (s : State) : Result := done [] s

/-- `RD_STATUS` (R151): `STATUS` as four bytes, little-endian (R31 (g)). -/
def execRdStatus (s : State) : Result := done (leBytes 4 (statusWord s).toNat) s

/-- `SOFT_RESET` (R152): every state element at its reset value, and the response `OK`. -/
def execSoftReset (s : State) : Result := done [] (resetState s)

end Sys2Proof.Machine
end

