-- ==== Sys2Proof/Machine/Dispatch.lean ====
section
/-! DEFINITION. One arm per command of R48: its meaning. -/

namespace Sys2Proof.Machine

def exec (i : Instr) (s : State) : Host.Outcome State Fault Refusal :=
  match i with
  | .nop => Sys2Proof.Machine.execNop s
  | .rdStatus => Sys2Proof.Machine.execRdStatus s
  | .softReset => Sys2Proof.Machine.execSoftReset s
  | .hashInit sel => Sys2Proof.Machine.execHashInit sel s
  | .hashUpdate sel data => Sys2Proof.Machine.execHashUpdate sel data s
  | .hashFinal sel => Sys2Proof.Machine.execHashFinal sel s
  | .hashDigest sel message => Sys2Proof.Machine.execHashDigest sel message s
  | .hmacConfig sel => Sys2Proof.Machine.execHmacConfig sel s
  | .hmacDigest key message => Sys2Proof.Machine.execHmacDigest key message s
  | .hmacRead => Sys2Proof.Machine.execHmacRead s
  | .aesKeyexp sel key => Sys2Proof.Machine.execAesKeyexp sel key s
  | .aesCipher block => Sys2Proof.Machine.execAesCipher block s
  | .aesInvcipher block => Sys2Proof.Machine.execAesInvcipher block s
  | .cbcEncrypt plaintext => Sys2Proof.Machine.execCbcEncrypt plaintext s
  | .cbcDecrypt ciphertext => Sys2Proof.Machine.execCbcDecrypt ciphertext s
  | .feUnpack rd bytes => Sys2Proof.Machine.execFeUnpack rd bytes s
  | .fePack ra => Sys2Proof.Machine.execFePack ra s
  | .feAdd rd ra rb => Sys2Proof.Machine.execFeAdd rd ra rb s
  | .feSub rd ra rb => Sys2Proof.Machine.execFeSub rd ra rb s
  | .feMul rd ra rb => Sys2Proof.Machine.execFeMul rd ra rb s
  | .feSqr rd ra => Sys2Proof.Machine.execFeSqr rd ra s
  | .feCarry rd ra => Sys2Proof.Machine.execFeCarry rd ra s
  | .feCswap ra rb sel => Sys2Proof.Machine.execFeCswap ra rb sel s
  | .feInv rd ra => Sys2Proof.Machine.execFeInv rd ra s
  | .feConst rd sel => Sys2Proof.Machine.execFeConst rd sel s
  | .feMov rd ra => Sys2Proof.Machine.execFeMov rd ra s
  | .x25519 scalar point => Sys2Proof.Machine.execX25519 scalar point s
  | .x25519_64 scalar point => Sys2Proof.Machine.execX25519_64 scalar point s
  | .kxKeygen => Sys2Proof.Machine.execKxKeygen s
  | .kxShared peer => Sys2Proof.Machine.execKxShared peer s

end Sys2Proof.Machine
end

