-- ==== Sys2Proof/Decode.lean ====
section
/-! DEFINITION. The command word's format C (R45), the opcode table (R48), the decoder with its rejections by name (R49),
and the encoder. -/

namespace Sys2Proof

/-- The operand fields of a command word; `opc` and `rsv` stand apart. -/
structure Fields where
  rd  : FReg
  ra  : FReg
  rb  : FReg
  sel : BitVec 8
  deriving DecidableEq, Repr

/-- `opc`, bits 31:24 (R45). -/
def opcOf (w : BitVec 32) : BitVec 8 := w.extractLsb' 24 8

/-- `rsv`, bits 11:8 (R45). -/
def rsvOf (w : BitVec 32) : BitVec 4 := w.extractLsb' 8 4

/-- `rd` 23:20, `ra` 19:16, `rb` 15:12, `sel` 7:0 (R45). -/
def fieldsOf (w : BitVec 32) : Fields :=
  { rd := (w.extractLsb' 20 4).toFin, ra := (w.extractLsb' 16 4).toFin, rb := (w.extractLsb' 12 4).toFin,
    sel := w.extractLsb' 0 8 }

/-- The word of an opcode and its operand fields, `rsv` zero (R45). -/
def wordOf (opc : BitVec 8) (f : Fields) : BitVec 32 :=
  (opc.setWidth 32 <<< 24) ||| ((BitVec.ofFin (w := 4) f.rd).setWidth 32 <<< 20)
    ||| ((BitVec.ofFin (w := 4) f.ra).setWidth 32 <<< 16) ||| ((BitVec.ofFin (w := 4) f.rb).setWidth 32 <<< 12)
    ||| f.sel.setWidth 32

/-- A row of R48: the opcode, the mnemonic, the mask, the number of `DIN` strings, and the command it builds from the
operand fields and exactly that many strings. -/
structure Row where
  opc      : BitVec 8
  mnemonic : String
  mask     : BitVec 32
  din      : Nat
  build    : Fields → List Bytes → Option Instr

/-- `match` of R48: the word with all operand fields 0. -/
def Row.matchWord (r : Row) : BitVec 32 := r.opc.setWidth 32 <<< 24

/-- A row without operand strings. -/
def row0 (opc : BitVec 8) (mnemonic : String) (mask : BitVec 32) (mk : Fields → Instr) : Row :=
  ⟨opc, mnemonic, mask, 0, fun f d => match d with | [] => some (mk f) | _ => none⟩

/-- A row with one operand string. -/
def row1 (opc : BitVec 8) (mnemonic : String) (mask : BitVec 32) (mk : Fields → Bytes → Instr) : Row :=
  ⟨opc, mnemonic, mask, 1, fun f d => match d with | [a] => some (mk f a) | _ => none⟩

/-- A row with two operand strings. -/
def row2 (opc : BitVec 8) (mnemonic : String) (mask : BitVec 32) (mk : Fields → Bytes → Bytes → Instr) : Row :=
  ⟨opc, mnemonic, mask, 2, fun f d => match d with | [a, b] => some (mk f a b) | _ => none⟩

/-- System, hash and HMAC rows of R48. -/
def rowsA : List Row :=
  [ row0 0x00#8 "NOP" 0xFFFFFFFF#32 (fun _ => .nop),
    row0 0x01#8 "RD_STATUS" 0xFFFFFFFF#32 (fun _ => .rdStatus),
    row0 0x02#8 "SOFT_RESET" 0xFFFFFFFF#32 (fun _ => .softReset),
    row0 0x10#8 "HASH_INIT" 0xFFFFFF00#32 (fun f => .hashInit f.sel),
    row1 0x11#8 "HASH_UPDATE" 0xFFFFFF00#32 (fun f a => .hashUpdate f.sel a),
    row0 0x12#8 "HASH_FINAL" 0xFFFFFF00#32 (fun f => .hashFinal f.sel),
    row1 0x13#8 "HASH_DIGEST" 0xFFFFFF00#32 (fun f a => .hashDigest f.sel a),
    row0 0x20#8 "HMAC_CONFIG" 0xFFFFFF00#32 (fun f => .hmacConfig f.sel),
    row2 0x21#8 "HMAC_DIGEST" 0xFFFFFFFF#32 (fun _ a b => .hmacDigest a b),
    row0 0x22#8 "HMAC_READ" 0xFFFFFFFF#32 (fun _ => .hmacRead) ]

/-- Cipher and CBC rows of R48. -/
def rowsB : List Row :=
  [ row1 0x30#8 "AES_KEYEXP" 0xFFFFFF00#32 (fun f a => .aesKeyexp f.sel a),
    row1 0x31#8 "AES_CIPHER" 0xFFFFFFFF#32 (fun _ a => .aesCipher a),
    row1 0x32#8 "AES_INVCIPHER" 0xFFFFFFFF#32 (fun _ a => .aesInvcipher a),
    row1 0x40#8 "CBC_ENCRYPT" 0xFFFFFFFF#32 (fun _ a => .cbcEncrypt a),
    row1 0x41#8 "CBC_DECRYPT" 0xFFFFFFFF#32 (fun _ a => .cbcDecrypt a) ]

/-- Field rows of R48. -/
def rowsC : List Row :=
  [ row1 0x50#8 "FE_UNPACK" 0xFF0FFFFF#32 (fun f a => .feUnpack f.rd a),
    row0 0x51#8 "FE_PACK" 0xFFF0FFFF#32 (fun f => .fePack f.ra),
    row0 0x52#8 "FE_ADD" 0xFF000FFF#32 (fun f => .feAdd f.rd f.ra f.rb),
    row0 0x53#8 "FE_SUB" 0xFF000FFF#32 (fun f => .feSub f.rd f.ra f.rb),
    row0 0x54#8 "FE_MUL" 0xFF000FFF#32 (fun f => .feMul f.rd f.ra f.rb),
    row0 0x55#8 "FE_SQR" 0xFF00FFFF#32 (fun f => .feSqr f.rd f.ra),
    row0 0x56#8 "FE_CARRY" 0xFF00FFFF#32 (fun f => .feCarry f.rd f.ra),
    row0 0x57#8 "FE_CSWAP" 0xFFF00F00#32 (fun f => .feCswap f.ra f.rb f.sel),
    row0 0x58#8 "FE_INV" 0xFF00FFFF#32 (fun f => .feInv f.rd f.ra),
    row0 0x59#8 "FE_CONST" 0xFF0FFF00#32 (fun f => .feConst f.rd f.sel),
    row0 0x5A#8 "FE_MOV" 0xFF00FFFF#32 (fun f => .feMov f.rd f.ra) ]

/-- Ladder and key-exchange rows of R48. -/
def rowsD : List Row :=
  [ row2 0x60#8 "X25519" 0xFFFFFFFF#32 (fun _ a b => .x25519 a b),
    row2 0x61#8 "X25519_64" 0xFFFFFFFF#32 (fun _ a b => .x25519_64 a b),
    row0 0x70#8 "KX_KEYGEN" 0xFFFFFFFF#32 (fun _ => .kxKeygen),
    row1 0x71#8 "KX_SHARED" 0xFFFFFFFF#32 (fun _ a => .kxShared a) ]

/-- The 30 rows of R48. -/
def rows : List Row := rowsA ++ rowsB ++ rowsC ++ rowsD

/-- Why a command is malformed (R49 (a) to (d)). Each raises `IllegalCommand`. DESIGN CHOICE (assumption 20). -/
inductive Reject where
  /-- `opc` is not one of the 30 values. -/
  | unassignedOpcode
  /-- `rsv` is not 0. -/
  | reservedNonzero
  /-- A field the command does not use is not 0. -/
  | unusedNonzero
  /-- The number of operand strings differs from the row's. -/
  | operandCount
  deriving DecidableEq, Repr

/-- The row whose opcode is `opc` (R48). -/
def rowOf (opc : BitVec 8) : Option Row := rows.find? (fun r => r.opc == opc)

/-- The command a word and its operand strings select, or why there is none (R48, R49). -/
def decode (c : Command) : Except Reject Instr :=
  match rowOf (opcOf c.word) with
  | none => .error .unassignedOpcode
  | some r =>
    if rsvOf c.word ≠ 0#4 then .error .reservedNonzero
    else if c.word &&& r.mask ≠ r.matchWord then .error .unusedNonzero
    else match r.build (fieldsOf c.word) c.din with
      | none => .error .operandCount
      | some i => .ok i

/-- The word of a command whose operand fields are as given; a field left out is 0. -/
def enc (opc : BitVec 8) (din : List Bytes) (rd : FReg := 0) (ra : FReg := 0) (rb : FReg := 0) (sel : BitVec 8 := 0) :
    Command :=
  { word := wordOf opc { rd := rd, ra := ra, rb := rb, sel := sel }, din := din }

/-- The word and operand strings of a command (R45, R48). -/
def encode : Instr → Command
  | .nop => enc 0x00 []
  | .rdStatus => enc 0x01 []
  | .softReset => enc 0x02 []
  | .hashInit sel => enc 0x10 [] (sel := sel)
  | .hashUpdate sel data => enc 0x11 [data] (sel := sel)
  | .hashFinal sel => enc 0x12 [] (sel := sel)
  | .hashDigest sel message => enc 0x13 [message] (sel := sel)
  | .hmacConfig sel => enc 0x20 [] (sel := sel)
  | .hmacDigest key message => enc 0x21 [key, message]
  | .hmacRead => enc 0x22 []
  | .aesKeyexp sel key => enc 0x30 [key] (sel := sel)
  | .aesCipher block => enc 0x31 [block]
  | .aesInvcipher block => enc 0x32 [block]
  | .cbcEncrypt plaintext => enc 0x40 [plaintext]
  | .cbcDecrypt ciphertext => enc 0x41 [ciphertext]
  | .feUnpack rd bytes => enc 0x50 [bytes] (rd := rd)
  | .fePack ra => enc 0x51 [] (ra := ra)
  | .feAdd rd ra rb => enc 0x52 [] (rd := rd) (ra := ra) (rb := rb)
  | .feSub rd ra rb => enc 0x53 [] (rd := rd) (ra := ra) (rb := rb)
  | .feMul rd ra rb => enc 0x54 [] (rd := rd) (ra := ra) (rb := rb)
  | .feSqr rd ra => enc 0x55 [] (rd := rd) (ra := ra)
  | .feCarry rd ra => enc 0x56 [] (rd := rd) (ra := ra)
  | .feCswap ra rb sel => enc 0x57 [] (ra := ra) (rb := rb) (sel := sel)
  | .feInv rd ra => enc 0x58 [] (rd := rd) (ra := ra)
  | .feConst rd sel => enc 0x59 [] (rd := rd) (sel := sel)
  | .feMov rd ra => enc 0x5A [] (rd := rd) (ra := ra)
  | .x25519 scalar point => enc 0x60 [scalar, point]
  | .x25519_64 scalar point => enc 0x61 [scalar, point]
  | .kxKeygen => enc 0x70 []
  | .kxShared peer => enc 0x71 [peer]

/-- The operand strings the host's probe of one word sends with it (assumption 2): as many as the row asks for, all bytes
zero, each of the length R32 requires of it, empty where any length is legal. -/
def probeDin (w : BitVec 32) : List Bytes :=
  match (opcOf w).toNat with
  | 0x11 | 0x13 | 0x40 | 0x41 => [[]]
  | 0x21 => [[], []]
  | 0x30 => [List.replicate (16 + 8 * (fieldsOf w).sel.toNat) 0#8]
  | 0x31 | 0x32 => [List.replicate 16 0#8]
  | 0x50 | 0x71 => [List.replicate 32 0#8]
  | 0x60 => [List.replicate 32 0#8, List.replicate 32 0#8]
  | 0x61 => [List.replicate 64 0#8, List.replicate 32 0#8]
  | _ => []

/-- The command the host's probe places for a word of the table. -/
def probeCommand (w : Nat) : Command := { word := BitVec.ofNat 32 w, din := probeDin (BitVec.ofNat 32 w) }

/-- What the decoder reads from a table word whose operand strings are all zeros (assumption 2). Every row of the table has
32 bits, so `nbits` leaves no bit above it. -/
def decodeTableWord (_nbits w : Nat) : Option Instr :=
  if w < 2 ^ 32 then
    match decode (probeCommand w) with
    | .ok i => some i
    | .error _ => none
  else none

end Sys2Proof
end

