-- ==== Sys2Proof/Machine/Fetch.lean ====
section
/-! DEFINITION. Taking the host's next action (R34, R38, R41) and decoding a command (R48, R49). -/

namespace Sys2Proof.Machine

/-- What one step has to do: nothing more (CORE idles, is reset, or has answered a malformed command), or run a command in
the state that has taken it from the port. -/
def fetch (s : State) : Option Instr × State :=
  match s.inputs with
  -- R177: with no command issued, CORE is idle and holds all state.
  | [] => (none, s)
  -- R180: the reset the integration asserts.
  | .reset :: rest => (none, resetState { s with inputs := rest })
  | .command c :: rest =>
    match decode c with
    -- R161: a malformed word or operand count raises `IllegalCommand`.
    | .error _ => (none, raise .illegalCommand { s with inputs := rest })
    | .ok i => (some i, { s with inputs := rest })

/-- The state with a command placed where the next step takes its command. -/
def placeCommand (c : Command) (s : State) : State := { s with inputs := .command c :: s.inputs }

end Sys2Proof.Machine
end

