-- ==== Sys2Proof/Machine/Step.lean ====
section
/-! DEFINITION. One step: the host's next action, whole and atomic (R4, R33, R38). -/

namespace Sys2Proof.Machine

/-- One step. A malformed command, a reset and an idle port end in `fetch`; any other command is run by `exec`. -/
def step (s : State) : Host.Outcome State Fault Refusal :=
  match fetch s with
  | (none, t) => .next t
  | (some i, t) => exec i t

/-- The state with the table word `w`, and operand strings of zeros, as the host's next command (assumption 2). -/
def State.withFetchWord (s : State) (_nbits w : Nat) : State := placeCommand (probeCommand w) s

end Sys2Proof.Machine
end

