-- ==== Sys2Proof/WellFormed.lean ====
section
/-! DEFINITION. The checks of a command that depend on no state: the selector's legal set (R47) and the operand lengths
(R32). A command that fails one is still a command; it raises `InvalidSelector` or `InvalidInputLength`. -/

namespace Sys2Proof

/-- The legal values of `sel`, command by command (R47). -/
def Instr.selLegal : Instr → Bool
  | .hashInit sel | .hashUpdate sel _ | .hashFinal sel | .hashDigest sel _ | .hmacConfig sel | .feCswap _ _ sel =>
    decide (sel.toNat ≤ 1)
  | .aesKeyexp sel _ => decide (sel.toNat ≤ 2)
  | .feConst _ sel => decide (sel.toNat ≤ 3)
  | .nop | .rdStatus | .softReset | .hmacDigest _ _ | .hmacRead | .aesCipher _ | .aesInvcipher _ | .cbcEncrypt _
  | .cbcDecrypt _ | .feUnpack _ _ | .fePack _ | .feAdd _ _ _ | .feSub _ _ _ | .feMul _ _ _ | .feSqr _ _ | .feCarry _ _
  | .feInv _ _ | .feMov _ _ | .x25519 _ _ | .x25519_64 _ _ | .kxKeygen | .kxShared _ => true

/-- The required operand lengths, command by command (R32). A key's length is judged by its selector. -/
def Instr.lengthsLegal : Instr → Bool
  | .aesKeyexp sel key => decide (key.length = 16 + 8 * sel.toNat)
  | .aesCipher block | .aesInvcipher block => decide (block.length = 16)
  | .cbcDecrypt ciphertext => decide (ciphertext.length % 16 = 0)
  | .feUnpack _ bytes => decide (bytes.length = 32)
  | .x25519 scalar point => decide (scalar.length = 32 ∧ point.length = 32)
  | .x25519_64 scalar point => decide (scalar.length = 64 ∧ point.length = 32)
  | .kxShared peer => decide (peer.length = 32)
  | .nop | .rdStatus | .softReset | .hashInit _ | .hashUpdate _ _ | .hashFinal _ | .hashDigest _ _ | .hmacConfig _
  | .hmacDigest _ _ | .hmacRead | .cbcEncrypt _ | .fePack _ | .feAdd _ _ _ | .feSub _ _ _ | .feMul _ _ _ | .feSqr _ _
  | .feCarry _ _ | .feCswap _ _ _ | .feInv _ _ | .feConst _ _ | .feMov _ _ | .kxKeygen => true

/-- A well-formed command: a legal selector and legal operand lengths ("defined only over well-formed fixed-size inputs",
R32). -/
def Instr.wf (i : Instr) : Bool := i.selLegal && i.lengthsLegal

end Sys2Proof
end

