-- ==== Sys2Proof/Safety.lean ====
section
/-! DEFINITION. What counts as a safe step, and the invariants of the state between commands. -/

namespace Sys2Proof.Machine

/-- A step is safe when it gives a next state: CORE goes on (R163, R168). -/
def Safe (r : Result) : Prop := ∃ t, r = .next t

/-- Between commands (R15): `BUF_v` in canonical form, `LEN_v` a multiple of 8, `FILL_v = (LEN_v / 8) mod B`, and bytes
`FILL_v` to B − 1 of `BUF_v` zero. -/
def HashUnit.Inv {v : Variant} (u : HashUnit v) : Prop :=
  u.buf.wf v.blockBytes = true ∧ u.len.toNat % 8 = 0 ∧ u.fill.val = u.len.toNat / 8 % v.blockBytes ∧
    ∀ a, u.fill.val ≤ a → u.buf.read a = 0#8

/-- Every buffer is in canonical form (R30). -/
def State.MemInv (s : State) : Prop :=
  s.s32.buf.wf 64 = true ∧ s.s64.buf.wf 128 = true ∧ s.hmac.hout.wf 64 = true

/-- Both hash units are as R15 says between commands. -/
def State.HashInv (s : State) : Prop := s.s32.Inv ∧ s.s64.Inv

/-- `IV = LAST = CBC_IV` (R18). -/
def State.ChainInv (s : State) : Prop := s.cbc.iv = Config.cbcIv ∧ s.cbc.last = Config.cbcIv

/-- The number of round-key words a key length uses: 4·(NR + 1), or none without a key (R17, R91). -/
def KeyLen.scheduleWords : KeyLen → Nat
  | .zero => 0
  | .four => 44
  | .six => 52
  | .eight => 60

/-- `KEYED` says whether a key is held, and words above the schedule are zero (R17). -/
def State.KeyInv (s : State) : Prop :=
  (s.ciph.keyed = true ↔ s.ciph.nk ≠ .zero) ∧ ∀ i : Fin 60, s.ciph.nk.scheduleWords ≤ i.val → s.ciph.w[i] = 0#32

/-- `PRIV` is zero until `KX_KEYGEN` has run (R19, R22). -/
def State.PrivInv (s : State) : Prop := s.kx.privv = false → s.kx.priv = Vector.replicate 32 0#8

/-- `ERRS` and `LASTERR` tell one story: no error since reset and code 0, or some error and its code, 1 to 4 (R14, R160,
R163). -/
def State.ErrInv (s : State) : Prop :=
  (s.errs = false ∧ s.lasterr = 0#4) ∨ (s.errs = true ∧ 1 ≤ s.lasterr.toNat ∧ s.lasterr.toNat ≤ 4)

/-- The last response has a code of R160; one that reports an error has an empty result, and the error is recorded (R36,
R163). -/
def State.RespInv (s : State) : Prop :=
  ∀ r, s.resp = some r → r.code.toNat ≤ 4 ∧ (r.code ≠ 0#4 → r.dout = [] ∧ s.errs = true ∧ s.lasterr = r.code)

/-- All of them. -/
def State.Inv (s : State) : Prop :=
  s.MemInv ∧ s.HashInv ∧ s.ChainInv ∧ s.KeyInv ∧ s.PrivInv ∧ s.ErrInv ∧ s.RespInv

/-! ### The ladder's domain (R139) -/

/-- The values one ladder step's arithmetic names, in R137's order. -/
def ladderArithNamed (x : Fe) (l : Ladder) : List Int :=
  let e := Fe.add l.a l.c
  let a := Fe.sub l.a l.c
  let c := Fe.add l.b l.d
  let b := Fe.sub l.b l.d
  let d := Fe.sqr e
  let f := Fe.sqr a
  let a' := Fe.mul c a
  let c' := Fe.mul b e
  let e' := Fe.add a' c'
  let a'' := Fe.sub a' c'
  let b' := Fe.sqr a''
  let c'' := Fe.sub d f
  let g := Fe.mul c'' Fe.a24
  let g' := Fe.add g d
  e ++ a ++ c ++ b ++ Fe.mulNamed e e ++ Fe.mulNamed a a ++ Fe.mulNamed c a ++ Fe.mulNamed b e ++ e' ++ a''
    ++ Fe.mulNamed a'' a'' ++ c'' ++ Fe.mulNamed c'' Fe.a24 ++ g' ++ Fe.mulNamed c'' g' ++ Fe.mulNamed d f
    ++ Fe.mulNamed b' x ++ Fe.mulNamed e' e'

/-- Whether the steps at bits `i − 1` down to 0 stay in the domain of R116. -/
def ladderLoopDomain (z : Bytes) (x : Fe) : Nat → Ladder → Bool
  | 0, _ => true
  | i + 1, l =>
    inDomain (ladderArithNamed x (ladderSwap (scalarBit z i) l))
      && ladderLoopDomain z x i (ladderStep x (scalarBit z i) l)

/-- Whether `ScalarMult_n(s, q)` stays in the domain of R116, inversion, last product and pack included (R139). -/
def scalarMultDomain (s q : Bytes) : Bool :=
  let x := Fe.unpack q
  let l := ladderLoop (clamp s) x (8 * s.length - 1) (ladderStart x)
  ladderLoopDomain (clamp s) x (8 * s.length - 1) (ladderStart x) && invLoopDomain l.c 254 l.c
    && inDomain (Fe.mulNamed l.a (Fe.inv l.c)) && inDomain (Fe.packNamed (Fe.mul l.a (Fe.inv l.c)))

/-! ### Errors (R160 to R169) -/

/-- The response says the command executed, with this result (R36). -/
def OkWith (t : State) (d : Bytes) : Prop := t.resp = some { code := 0#4, dout := d }

/-- What a command needs before it runs is absent (R165). -/
def needsConfig (i : Instr) (s : State) : Bool :=
  match i with
  | .aesCipher _ | .aesInvcipher _ | .cbcEncrypt _ | .cbcDecrypt _ => !s.ciph.keyed
  | .hmacDigest _ _ => !s.hmac.hcfg
  | .kxShared _ => !s.kx.privv
  | .nop | .rdStatus | .softReset | .hashInit _ | .hashUpdate _ _ | .hashFinal _ | .hashDigest _ _ | .hmacConfig _
  | .hmacRead | .aesKeyexp _ _ | .feUnpack _ _ | .fePack _ | .feAdd _ _ _ | .feSub _ _ _ | .feMul _ _ _ | .feSqr _ _
  | .feCarry _ _ | .feCswap _ _ _ | .feInv _ _ | .feConst _ _ | .feMov _ _ | .x25519 _ _ | .x25519_64 _ _ | .kxKeygen => false

/-- The columns "uses rd/ra/rb/sel" and "DIN" of R48. -/
structure Uses where
  rd  : Bool
  ra  : Bool
  rb  : Bool
  sel : Bool
  din : Nat
  deriving DecidableEq, Repr

/-- The two columns of R48, opcode by opcode: none for an unassigned one. Written from the columns, not from the masks. -/
def usesOf (opc : BitVec 8) : Option Uses :=
  match opc.toNat with
  | 0x00 | 0x01 | 0x02 | 0x22 | 0x70 => some ⟨false, false, false, false, 0⟩
  | 0x10 | 0x12 | 0x20 => some ⟨false, false, false, true, 0⟩
  | 0x11 | 0x13 | 0x30 => some ⟨false, false, false, true, 1⟩
  | 0x31 | 0x32 | 0x40 | 0x41 | 0x71 => some ⟨false, false, false, false, 1⟩
  | 0x21 | 0x60 | 0x61 => some ⟨false, false, false, false, 2⟩
  | 0x50 => some ⟨true, false, false, false, 1⟩
  | 0x51 => some ⟨false, true, false, false, 0⟩
  | 0x52 | 0x53 | 0x54 => some ⟨true, true, true, false, 0⟩
  | 0x55 | 0x56 | 0x58 | 0x5A => some ⟨true, true, false, false, 0⟩
  | 0x57 => some ⟨false, true, true, true, 0⟩
  | 0x59 => some ⟨true, false, false, true, 0⟩
  | _ => none

/-- A command word with its operand strings is malformed (R49): (a) its opcode is unassigned, (b) `rsv` is not 0, (c) a
field it does not use is not 0, (d) the number of operand strings is not the row's. -/
def Malformed (c : Command) : Prop :=
  match usesOf (c.word.extractLsb' 24 8) with
  | none => True
  | some u =>
    c.word.extractLsb' 8 4 ≠ 0#4
      ∨ (u.rd = false ∧ c.word.extractLsb' 20 4 ≠ 0#4) ∨ (u.ra = false ∧ c.word.extractLsb' 16 4 ≠ 0#4)
      ∨ (u.rb = false ∧ c.word.extractLsb' 12 4 ≠ 0#4) ∨ (u.sel = false ∧ c.word.extractLsb' 0 8 ≠ 0#8)
      ∨ c.din.length ≠ u.din

/-! ### Read and write sets (R24) -/

/-- The state elements of R10. -/
inductive Element where
  | f (i : FReg)
  | h (v : Variant)
  | buf (v : Variant)
  | fill (v : Variant)
  | len (v : Variant)
  | hcfg
  | hsel
  | hout
  | keyed
  | nk
  | w
  | iv
  | last
  | privv
  | priv
  | errs
  | lasterr
  deriving DecidableEq, Repr

/-- The element belongs to hash unit `v`. -/
def Element.inUnit (v : Variant) : Element → Bool
  | .h v' | .buf v' | .fill v' | .len v' => decide (v' = v)
  | .f _ | .hcfg | .hsel | .hout | .keyed | .nk | .w | .iv | .last | .privv | .priv | .errs | .lasterr => false

/-- The element is part of the cipher unit. -/
def Element.inCipher : Element → Bool
  | .keyed | .nk | .w => true
  | .f _ | .h _ | .buf _ | .fill _ | .len _ | .hcfg | .hsel | .hout | .iv | .last | .privv | .priv | .errs | .lasterr => false

/-- The element is one `STATUS` shows (R14). -/
def Element.inStatus : Element → Bool
  | .keyed | .nk | .hcfg | .hsel | .privv | .errs | .lasterr => true
  | .f _ | .h _ | .buf _ | .fill _ | .len _ | .hout | .w | .iv | .last | .priv => false

/-- Two states agree on an element. -/
def Same (x : Element) (s t : State) : Prop :=
  match x with
  | .f i => getF s i = getF t i
  | .h v => (getUnit s v).h = (getUnit t v).h
  | .buf v => (getUnit s v).buf = (getUnit t v).buf
  | .fill v => (getUnit s v).fill = (getUnit t v).fill
  | .len v => (getUnit s v).len = (getUnit t v).len
  | .hcfg => s.hmac.hcfg = t.hmac.hcfg
  | .hsel => s.hmac.hsel = t.hmac.hsel
  | .hout => s.hmac.hout = t.hmac.hout
  | .keyed => s.ciph.keyed = t.ciph.keyed
  | .nk => s.ciph.nk = t.ciph.nk
  | .w => s.ciph.w = t.ciph.w
  | .iv => s.cbc.iv = t.cbc.iv
  | .last => s.cbc.last = t.cbc.last
  | .privv => s.kx.privv = t.kx.privv
  | .priv => s.kx.priv = t.kx.priv
  | .errs => s.errs = t.errs
  | .lasterr => s.lasterr = t.lasterr

/-- The element is in the hash unit a selector names. -/
def inSelected (sel : BitVec 8) (x : Element) : Bool :=
  match variantOf sel with
  | none => false
  | some v => x.inUnit v

/-- The column "writes" of R24. The selected unit of `HMAC_DIGEST` is the state's `HSEL`. -/
def writes (i : Instr) (s : State) (x : Element) : Bool :=
  match i with
  | .nop | .rdStatus | .hmacRead | .aesCipher _ | .aesInvcipher _ | .fePack _ | .x25519 _ _ | .x25519_64 _ _
  | .kxShared _ => false
  | .softReset => true
  | .hashInit sel | .hashUpdate sel _ | .hashFinal sel | .hashDigest sel _ => inSelected sel x
  | .hmacConfig _ => decide (x = .hcfg ∨ x = .hsel)
  | .hmacDigest _ _ => decide (x = .hout) || x.inUnit s.hmac.hsel
  | .aesKeyexp _ _ => x.inCipher
  | .cbcEncrypt _ | .cbcDecrypt _ => decide (x = .iv ∨ x = .last)
  | .feUnpack rd _ | .feConst rd _ | .feAdd rd _ _ | .feSub rd _ _ | .feMul rd _ _ | .feSqr rd _ | .feCarry rd _
  | .feInv rd _ | .feMov rd _ => decide (x = .f rd)
  | .feCswap ra rb _ => decide (x = .f ra ∨ x = .f rb)
  | .kxKeygen => decide (x = .priv ∨ x = .privv)

/-- The column "reads" of R24, the `RND` port apart. -/
def reads (i : Instr) (x : Element) : Bool :=
  match i with
  | .nop | .softReset | .hashInit _ | .hashDigest _ _ | .hmacConfig _ | .aesKeyexp _ _ | .feUnpack _ _ | .feConst _ _
  | .x25519 _ _ | .x25519_64 _ _ | .kxKeygen => false
  | .rdStatus => x.inStatus
  | .hashUpdate sel _ | .hashFinal sel => inSelected sel x
  | .hmacDigest _ _ => decide (x = .hcfg ∨ x = .hsel)
  | .hmacRead => decide (x = .hcfg ∨ x = .hsel ∨ x = .hout)
  | .aesCipher _ | .aesInvcipher _ | .cbcEncrypt _ | .cbcDecrypt _ => x.inCipher
  | .fePack ra | .feSqr _ ra | .feCarry _ ra | .feInv _ ra | .feMov _ ra => decide (x = .f ra)
  | .feAdd _ ra rb | .feSub _ ra rb | .feMul _ ra rb | .feCswap ra rb _ => decide (x = .f ra ∨ x = .f rb)
  | .kxShared _ => decide (x = .priv ∨ x = .privv)

/-- The commands R33 lists as idempotent. -/
def idempotent : Instr → Bool
  | .nop | .rdStatus | .softReset | .hashInit _ | .hashDigest _ _ | .hmacConfig _ | .hmacDigest _ _ | .hmacRead
  | .aesKeyexp _ _ | .aesCipher _ | .aesInvcipher _ | .cbcEncrypt _ | .cbcDecrypt _ | .feUnpack _ _ | .fePack _
  | .feConst _ _ | .feMov _ _ | .x25519 _ _ | .x25519_64 _ _ | .kxShared _ => true
  | .feAdd rd ra rb | .feSub rd ra rb | .feMul rd ra rb => decide (rd ≠ ra ∧ rd ≠ rb)
  | .feSqr rd ra | .feCarry rd ra | .feInv rd ra => decide (rd ≠ ra)
  | .feCswap _ _ sel => decide (sel = 0#8)
  | .hashUpdate _ _ | .hashFinal _ | .kxKeygen => false

/-! ### Limbs (R116) -/

/-- `F[i][k]`, the integer its container holds (R11, R116). -/
def limb (s : State) (i : FReg) (k : Fin 16) : Int := (getF s i)[k].toInt

/-- A value in [−2^63, 2^63) (R116). -/
def InRange (x : Int) : Prop := -2 ^ 63 ≤ x ∧ x < 2 ^ 63

/-- One of the values a field command names is outside [−2^63, 2^63), where R116 gives it no meaning. Which values are named is
DEDUCED (assumption 7); `FE_INV` is followed through all its iterations (R126). -/
def leavesDomain (i : Instr) (s : State) : Bool :=
  match i with
  | .feAdd _ ra rb => !inDomain (Fe.add (feOf s ra) (feOf s rb))
  | .feSub _ ra rb => !inDomain (Fe.sub (feOf s ra) (feOf s rb))
  | .feMul _ ra rb => !inDomain (Fe.mulNamed (feOf s ra) (feOf s rb))
  | .feSqr _ ra => !inDomain (Fe.mulNamed (feOf s ra) (feOf s ra))
  | .feCarry _ ra => !inDomain (Fe.carryNamed (feOf s ra))
  | .feInv _ ra => !invLoopDomain (feOf s ra) 254 (feOf s ra)
  | .fePack ra => !inDomain (Fe.packNamed (feOf s ra))
  | .nop | .rdStatus | .softReset | .hashInit _ | .hashUpdate _ _ | .hashFinal _ | .hashDigest _ _ | .hmacConfig _
  | .hmacDigest _ _ | .hmacRead | .aesKeyexp _ _ | .aesCipher _ | .aesInvcipher _ | .cbcEncrypt _ | .cbcDecrypt _
  | .feUnpack _ _ | .feCswap _ _ _ | .feConst _ _ | .feMov _ _ | .x25519 _ _ | .x25519_64 _ _ | .kxKeygen | .kxShared _ => false

/-! ### Runs of commands, and the ladder at the value level (R142) -/

/-- Commands executed one after the other, up to the first that stops (R38). -/
def runAll : List Instr → State → Result
  | [], s => .next s
  | i :: is, s =>
    match exec i s with
    | .next t => runAll is t
    | .fault r => .fault r
    | .refused r => .refused r

/-- The responses a host sees while commands execute one after the other, up to the first that stops (R36, R41). -/
def responses : List Instr → State → List (Option Response)
  | [], _ => []
  | i :: is, s =>
    match exec i s with
    | .next t => t.resp :: responses is t
    | .fault _ | .refused _ => []

/-- A hash unit as `HASH_INIT` leaves it: `H_v` initial, every byte of `BUF_v` 0, `FILL_v` and `LEN_v` 0 (R64). -/
def HashUnit.Fresh {v : Variant} (u : HashUnit v) : Prop :=
  u.h = h0 v ∧ (∀ a, u.buf.read a = 0#8) ∧ u.fill.val = 0 ∧ u.len.toNat = 0

/-- The running values of R142. -/
structure ValueLadder where
  x2 : Int
  z2 : Int
  x3 : Int
  z3 : Int
  deriving DecidableEq, Repr

/-- The two conditional swaps of R142. -/
def valueSwap (kt : Bool) (l : ValueLadder) : ValueLadder :=
  if kt then { x2 := l.x3, z2 := l.z3, x3 := l.x2, z3 := l.z2 } else l

/-- One step of R142, between its swaps, in GF(p). -/
def valueArith (x1 : Int) (l : ValueLadder) : ValueLadder :=
  let A := l.x2 + l.z2
  let AA := A ^ 2
  let B := l.x2 - l.z2
  let BB := B ^ 2
  let E := AA - BB
  let C := l.x3 + l.z3
  let D := l.x3 - l.z3
  let DA := D * A
  let CB := C * B
  { x3 := (DA + CB) ^ 2 % fieldPrime, z3 := x1 * (DA - CB) ^ 2 % fieldPrime, x2 := AA * BB % fieldPrime,
    z2 := E * (AA + 121665 * E) % fieldPrime }

/-- The steps of R142 for the bits t − 1 down to 0 of `k`. -/
def valueLoop (k : Nat) (x1 : Int) : Nat → ValueLadder → ValueLadder
  | 0, l => l
  | t + 1, l => valueLoop k x1 t (valueSwap (k.testBit t) (valueArith x1 (valueSwap (k.testBit t) l)))

/-- The value R142 gives `ScalarMult_n(s, q)`: x2 · z2^(p−2) in GF(p). -/
def valueScalarMult (s q : Bytes) : Int :=
  let u := (leNat q % 2 ^ 255 : Nat) % fieldPrime
  let l := valueLoop (leNat (clamp s)) u (8 * s.length - 1) { x2 := 1, z2 := 0, x3 := u, z3 := 1 }
  l.x2 * l.z2 ^ (2 ^ 255 - 21) % fieldPrime

end Sys2Proof.Machine
end

