-- ==== Sys2Proof/Certificates/Slice0/Obligations.lean ====
section
/-! DEFINITION. The statements for the provers. Each docstring names the rule of spec/ it formalises, or the section it rests
on and what in it is the model's own choice. -/

section

open Sys2Proof Sys2Proof.Machine

/-! ### Encoding (30_encoding.md) -/

/-- R45, R48, D31: every command's word and operand strings decode to that command, whatever its fields. -/
def Obligations.DecodeInvertsEncode : Prop := ∀ i : Instr, decode (encode i) = .ok i

/-- D31: a legal word with its operand strings is the encoding of the one command it decodes to. -/
def Obligations.EncodeInvertsDecode : Prop := ∀ (c : Command) (i : Instr), decode c = .ok i → encode i = c

/-- R51: the example words decode to the commands they stand for. -/
def Obligations.ExampleWordsDecode : Prop :=
  decode ⟨0x13000000#32, [[0x61, 0x62, 0x63]]⟩ = .ok (.hashDigest 0 [0x61, 0x62, 0x63])
    ∧ decode ⟨0x11000001#32, [[0x00, 0xff]]⟩ = .ok (.hashUpdate 1 [0x00, 0xff])
    ∧ decode ⟨0x20000000#32, []⟩ = .ok (.hmacConfig 0)
    ∧ decode ⟨0x21000000#32, [[0x0b, 0x0b], [0x48, 0x69, 0x20, 0x54, 0x68, 0x65, 0x72, 0x65]]⟩
      = .ok (.hmacDigest [0x0b, 0x0b] [0x48, 0x69, 0x20, 0x54, 0x68, 0x65, 0x72, 0x65])
    ∧ decode ⟨0x30000002#32, [zeros 32]⟩ = .ok (.aesKeyexp 2 (zeros 32))
    ∧ decode ⟨0x54201000#32, []⟩ = .ok (.feMul 2 0 1)
    ∧ decode ⟨0x55330000#32, []⟩ = .ok (.feSqr 3 3)
    ∧ decode ⟨0x57045001#32, []⟩ = .ok (.feCswap 4 5 1)
    ∧ decode ⟨0x59700002#32, []⟩ = .ok (.feConst 7 2)
    ∧ decode ⟨0x51020000#32, []⟩ = .ok (.fePack 2)
    ∧ decode ⟨0x60000000#32, [zeros 32, basePoint]⟩ = .ok (.x25519 (zeros 32) basePoint)

/-- R49, R161: the next command's word with its operand strings is malformed in one of the four ways exactly when it is no
command; the step then ends with `IllegalCommand` and changes no other state element. Opcodes 0x03..0x0F, 0x14..0x1F,
0x23..0x2F, 0x33..0x3F, 0x42..0x4F, 0x5B..0x5F, 0x62..0x6F, 0x72..0xFF are the unassigned ones. -/
def Obligations.MalformedCommands : Prop :=
  (∀ (s : State) (c : Command) (rest : List Input), s.inputs = .command c :: rest →
    (Malformed c →
      step s = .next { s with inputs := rest, errs := true, lasterr := 2#4, resp := some ⟨2#4, []⟩ }) ∧
    (¬Malformed c → ∃ i, decode c = .ok i ∧ step s = exec i { s with inputs := rest })) ∧
  ∀ opc : BitVec 8, usesOf opc = none ↔
    (0x03 ≤ opc.toNat ∧ opc.toNat ≤ 0x0F) ∨ (0x14 ≤ opc.toNat ∧ opc.toNat ≤ 0x1F)
      ∨ (0x23 ≤ opc.toNat ∧ opc.toNat ≤ 0x2F) ∨ (0x33 ≤ opc.toNat ∧ opc.toNat ≤ 0x3F)
      ∨ (0x42 ≤ opc.toNat ∧ opc.toNat ≤ 0x4F) ∨ (0x5B ≤ opc.toNat ∧ opc.toNat ≤ 0x5F)
      ∨ (0x62 ≤ opc.toNat ∧ opc.toNat ≤ 0x6F) ∨ 0x72 ≤ opc.toNat

/-- R48: the (match, mask) pairs of any two rows are disjoint, so at most one row selects a word; and a word with its operand strings is a command exactly
when some row selects it and it has that row's number of strings. -/
def Obligations.RowSelection : Prop :=
  (rows.Pairwise fun r q => ∀ w : BitVec 32, ¬(w &&& r.mask = r.matchWord ∧ w &&& q.mask = q.matchWord)) ∧
  ∀ c : Command, (∃ i, decode c = .ok i) ↔ ∃ r ∈ rows, c.word &&& r.mask = r.matchWord ∧ c.din.length = r.din

/-! ### Steps and errors (20_memory.md, 60_exceptions.md) -/

/-- R33, R38: a step whose next input is a command runs the command its word decodes to, in the state that has taken it from
the port; the model's `withFetchWord` (assumption 2) places exactly the command `decodeTableWord` reads. -/
def Obligations.StepRunsDecodedCommand : Prop :=
  (∀ (s : State) (c : Command) (rest : List Input) (i : Instr), s.inputs = .command c :: rest → decode c = .ok i →
    step s = exec i { s with inputs := rest }) ∧
  ∀ (s : State) (nbits w : Nat) (i : Instr), decodeTableWord nbits w = some i → step (s.withFetchWord nbits w) = exec i s

/-- R177, R180: with nothing to do CORE holds all state; an asserted reset puts every state element at its reset value. What
stays outside CORE, the inputs to come and the entropy source, is kept (assumption 12). -/
def Obligations.StepIdleAndReset : Prop :=
  (∀ s : State, s.inputs = [] → step s = .next s) ∧
  ∀ (s : State) (rest : List Input), s.inputs = .reset :: rest →
    step s = .next { State.reset with inputs := rest, rnd := s.rnd, drawn := s.drawn }

/-- R164, with R162, R165, R167 for what each check is and R163 for what an error does: the next command is decoded, then its
selector is checked, then the configuration, then the lengths; the first check that fails ends it with its code and nothing
else changes; a command that passes them all and completes answers `OK`. -/
def Obligations.ErrorOrder : Prop :=
  ∀ (s : State) (c : Command) (rest : List Input), s.inputs = .command c :: rest →
    (Malformed c →
      step s = .next { s with inputs := rest, errs := true, lasterr := 2#4, resp := some ⟨2#4, []⟩ }) ∧
    ∀ i : Instr, decode c = .ok i →
      (i.selLegal = false →
        step s = .next { s with inputs := rest, errs := true, lasterr := 3#4, resp := some ⟨3#4, []⟩ }) ∧
      (i.selLegal = true → needsConfig i s = true →
        step s = .next { s with inputs := rest, errs := true, lasterr := 4#4, resp := some ⟨4#4, []⟩ }) ∧
      (i.selLegal = true → needsConfig i s = false → i.lengthsLegal = false →
        step s = .next { s with inputs := rest, errs := true, lasterr := 1#4, resp := some ⟨1#4, []⟩ }) ∧
      (i.selLegal = true → needsConfig i s = false → i.lengthsLegal = true →
        ∀ t, step s = .next t → ∃ d, OkWith t d)

/-- R13's columns "set to 1 by" and "cleared to 0 by", for the commands that decode (a malformed one: `MalformedCommands`),
and R163's `LASTERR`: the code of the most recent failure. -/
def Obligations.FlagTable : Prop :=
  ∀ (i : Instr) (s t : State), exec i s = .next t →
    (t.ciph.keyed = true ↔ (∃ sel key d, i = .aesKeyexp sel key ∧ OkWith t d) ∨ (s.ciph.keyed = true ∧ i ≠ .softReset)) ∧
    (t.hmac.hcfg = true ↔ (∃ sel d, i = .hmacConfig sel ∧ OkWith t d) ∨ (s.hmac.hcfg = true ∧ i ≠ .softReset)) ∧
    (t.kx.privv = true ↔ (∃ d, i = .kxKeygen ∧ OkWith t d) ∨ (s.kx.privv = true ∧ i ≠ .softReset)) ∧
    (t.errs = true ↔ (∀ d, ¬OkWith t d) ∨ (s.errs = true ∧ i ≠ .softReset)) ∧
    (∀ r, t.resp = some r → r.code ≠ 0#4 → t.lasterr = r.code) ∧
    (∀ d, OkWith t d → t.lasterr = if i = .softReset then 0#4 else s.lasterr)

/-- R68, R116, R141: a decoded command is refused only where the spec gives it no meaning: a message whose bit length does
not fit the length field (for `HMAC_DIGEST` the key's digest and the inner one count, assumption 17); a field command one of
whose named values is outside [−2^63, 2^63) (which values are named is the model's reading, assumptions 7 and 8), and then, by
R131's bound, some source register has a limb above 2^26 in absolute value; or `X25519_64` in the mode the model does not take
(assumption 6). None is refused as not modelled. -/
def Obligations.OnlyDomainRefusals : Prop :=
  ∀ (i : Instr) (s : State) (r : Refusal), exec i s = .refused r →
    (r = .hashLengthOutOfDomain ∧
      ((∃ sel data v, i = .hashUpdate sel data ∧ variantOf sel = some v
          ∧ 2 ^ v.lenBits ≤ (getUnit s v).len.toNat + 8 * data.length) ∨
        (∃ sel m v, i = .hashDigest sel m ∧ variantOf sel = some v ∧ 2 ^ v.lenBits ≤ 8 * m.length) ∨
        ∃ key m, i = .hmacDigest key m ∧ 2 ^ s.hmac.hsel.lenBits ≤ 8 * max key.length (s.hmac.hsel.blockBytes + m.length))) ∨
    (r = .limbOutOfDomain ∧ leavesDomain i s = true ∧
      ∃ x : FReg, reads i (.f x) = true ∧ Fe.bounded (2 ^ 26) (feOf s x) = false) ∨
    (r = .ladder64Refused ∧ Config.ladder64Mode = .refuse ∧ ∃ k q, i = .x25519_64 k q)

/-- R24's column "writes", every byte of every buffer included: a command that completes leaves every state element outside
its row as it was; `ERRS` and `LASTERR` change only when it fails, and then nothing else does. The model's own fields: the
inputs to come never change in `exec`, and only `KX_KEYGEN` draws (R37). -/
def Obligations.WriteSets : Prop :=
  ∀ (i : Instr) (s t : State), exec i s = .next t →
    (∀ x : Element, writes i s x = false → x ≠ .errs → x ≠ .lasterr → Same x s t) ∧
    (∀ d, OkWith t d → ∀ x : Element, writes i s x = false → Same x s t) ∧
    ((∀ d, ¬OkWith t d) → ∀ x : Element, x ≠ .errs → x ≠ .lasterr → Same x s t) ∧
    t.inputs = s.inputs ∧ (i ≠ .kxKeygen → t.rnd = s.rnd ∧ t.drawn = s.drawn)

/-- R24's column "reads": from two states that agree on what a command reads (and, for `KX_KEYGEN`, on the draw), it ends in
the same way, with the same response, and where it executes it leaves the same values in all it writes. -/
def Obligations.ReadSets : Prop :=
  ∀ (i : Instr) (s t : State), (∀ x : Element, reads i x = true → Same x s t) →
    (i = .kxKeygen → drawValue s = drawValue t) →
    match exec i s, exec i t with
    | .next s', .next t' =>
      s'.resp = t'.resp ∧ ∀ d, OkWith s' d → ∀ x : Element, writes i s x = true → Same x s' t'
    | .refused a, .refused b => a = b
    | _, _ => False

/-- R19, R20 (c), R149: the private scalar is observable only through `KX_SHARED`: whatever `PRIV` holds, a host that issues
any other commands sees the same responses. -/
def Obligations.PrivStaysSecret : Prop :=
  ∀ (is : List Instr) (s : State) (p : Vector Byte 32), (∀ i ∈ is, ∀ q, i ≠ .kxShared q) →
    responses is { s with kx := { s.kx with priv := p } } = responses is s

/-- R33: a command the rule lists as idempotent, issued again with the same operands, leaves the same state and gives the same
response. -/
def Obligations.IdempotentCommands : Prop :=
  ∀ (i : Instr) (s t : State), idempotent i = true → exec i s = .next t → exec i t = .next t

/-! ### Reset and the system commands (10_state.md, 47_system.md) -/

/-- R22: the value of every element after reset, power-on or `SOFT_RESET`. -/
def Obligations.ResetValues : Prop :=
  ∀ t : State, (t = State.reset ∨ ∃ s, exec .softReset s = .next t) →
    (∀ i k, limb t i k = 0) ∧
    t.s32.h = #v[0x6a09e667#32, 0xbb67ae85#32, 0x3c6ef372#32, 0xa54ff53a#32, 0x510e527f#32, 0x9b05688c#32, 0x1f83d9ab#32,
      0x5be0cd19#32] ∧
    t.s64.h = #v[0x6a09e667f3bcc908#64, 0xbb67ae8584caa73b#64, 0x3c6ef372fe94f82b#64, 0xa54ff53a5f1d36f1#64,
      0x510e527fade682d1#64, 0x9b05688c2b3e6c1f#64, 0x1f83d9abfb41bd6b#64, 0x5be0cd19137e2179#64] ∧
    (∀ a, t.s32.buf.read a = 0#8) ∧ (∀ a, t.s64.buf.read a = 0#8) ∧
    t.s32.fill.val = 0 ∧ t.s64.fill.val = 0 ∧ t.s32.len.toNat = 0 ∧ t.s64.len.toNat = 0 ∧
    t.hmac.hcfg = false ∧ t.hmac.hsel = .s32 ∧ (∀ a, t.hmac.hout.read a = 0#8) ∧
    t.ciph.keyed = false ∧ t.ciph.nk = .zero ∧ (∀ i : Fin 60, t.ciph.w[i] = 0#32) ∧
    t.cbc.iv = Config.cbcIv ∧ t.cbc.last = Config.cbcIv ∧
    t.kx.privv = false ∧ (∀ i : Fin 32, t.kx.priv[i] = 0#8) ∧
    t.errs = false ∧ t.lasterr = 0#4

/-- R150: `NOP` changes nothing but the response. R152: `SOFT_RESET` puts every state element at its reset value. R151:
`RD_STATUS` returns the four bytes of `STATUS` and changes nothing. -/
def Obligations.SystemCommands : Prop :=
  (∀ s : State, exec .nop s = .next { s with resp := some ⟨0#4, []⟩ }) ∧
  (∀ s : State, ∃ t, exec .softReset s = .next t ∧ OkWith t [] ∧ ∀ x : Element, Same x t State.reset) ∧
  ∀ s : State, exec .rdStatus s =
    .next { s with
      resp := some ⟨0#4,
        [ BitVec.ofNat 8
            ((if s.ciph.keyed then 1 else 0)
              + 2 * (match s.ciph.nk with | .zero => 0 | .four => 1 | .six => 2 | .eight => 3)
              + 8 * (if s.hmac.hcfg then 1 else 0) + 16 * (match s.hmac.hsel with | .s32 => 0 | .s64 => 1)
              + 32 * (if s.kx.privv then 1 else 0) + 128 * (if s.errs then 1 else 0)),
          s.lasterr.setWidth 8, 0#8, 0#8 ]⟩ }

/-! ### Hash (40_hash.md) -/

/-- R64: the selected unit holds `H0_v`, an empty zero buffer and a zero count; nothing else changes but the response. -/
def Obligations.HashInit : Prop :=
  (∀ s : State, exec (.hashInit 0#8) s = .next { s with s32 := HashUnit.init .s32, resp := some ⟨0#4, []⟩ }) ∧
  (∀ s : State, exec (.hashInit 1#8) s = .next { s with s64 := HashUnit.init .s64, resp := some ⟨0#4, []⟩ }) ∧
  (HashUnit.init .s32).Fresh ∧ (HashUnit.init .s64).Fresh ∧
  ∀ (sel : BitVec 8) (s : State), 1 < sel.toNat → exec (.hashInit sel) s = .next (raise .invalidSelector s)

/-- R65, its loop turn by turn: each byte is stored at `FILL_v`, `LEN_v` grows by 8, and a block that it completes is
compressed and the buffer zeroed; then the rest of the operand follows; an empty operand changes nothing. Every other byte of
the buffer and every element outside the unit stay. The premise on the buffer is its canonical form (`InvariantKept`). -/
def Obligations.HashUpdate : Prop :=
  (∀ (v : Variant) (sel : BitVec 8) (b : Byte) (s : State), variantOf sel = some v →
    (getUnit s v).buf.wf v.blockBytes = true → (getUnit s v).len.toNat + 8 < 2 ^ v.lenBits →
    ∃ t, exec (.hashUpdate sel [b]) s = .next t ∧ OkWith t [] ∧ (∀ x : Element, x.inUnit v = false → Same x s t) ∧
      (getUnit t v).len.toNat = (getUnit s v).len.toNat + 8 ∧
      (∀ data, exec (.hashUpdate sel (b :: data)) s = exec (.hashUpdate sel data) t) ∧
      if (getUnit s v).fill.val + 1 = v.blockBytes then
        (getUnit t v).h = compress v (getUnit s v).h ((getUnit s v).buf.readBytes 0 (v.blockBytes - 1) ++ [b]) ∧
          (getUnit t v).fill.val = 0 ∧ ∀ a, (getUnit t v).buf.read a = 0#8
      else
        (getUnit t v).h = (getUnit s v).h ∧ (getUnit t v).fill.val = (getUnit s v).fill.val + 1 ∧
          ∀ a, (getUnit t v).buf.read a = if a = (getUnit s v).fill.val then b else (getUnit s v).buf.read a) ∧
  (∀ (sel : BitVec 8) (s : State), sel.toNat ≤ 1 →
    exec (.hashUpdate sel []) s = .next { s with resp := some ⟨0#4, []⟩ }) ∧
  ∀ (sel : BitVec 8) (data : Bytes) (s : State), 1 < sel.toNat →
    exec (.hashUpdate sel data) s = .next (raise .invalidSelector s)

/-- R65: the split of a message into operands does not matter (an inference the spec marks as its own). -/
def Obligations.HashUpdateSplits : Prop :=
  ∀ (sel : BitVec 8) (x y : Bytes) (s t : State), exec (.hashUpdate sel x) s = .next t →
    exec (.hashUpdate sel y) t = exec (.hashUpdate sel (x ++ y)) s

/-- R68: `HASH_UPDATE` and `HASH_DIGEST` complete on every message whose bit length fits the length field, counting its bits,
and are refused on every longer one; an empty operand changes nothing but the response. -/
def Obligations.HashLengthBound : Prop :=
  ∀ (v : Variant) (sel : BitVec 8) (m : Bytes) (s : State), variantOf sel = some v →
    ((getUnit s v).len.toNat + 8 * m.length < 2 ^ v.lenBits →
      ∃ u : HashUnit v, exec (.hashUpdate sel m) s = .next (respond [] (setUnit v u s)) ∧
        u.len.toNat = (getUnit s v).len.toNat + 8 * m.length ∧
        u.fill.val = ((getUnit s v).fill.val + m.length) % v.blockBytes ∧ (m = [] → u = getUnit s v)) ∧
    (2 ^ v.lenBits ≤ (getUnit s v).len.toNat + 8 * m.length →
      exec (.hashUpdate sel m) s = .refused .hashLengthOutOfDomain) ∧
    (8 * m.length < 2 ^ v.lenBits → ∃ t d, exec (.hashDigest sel m) s = .next t ∧ OkWith t d) ∧
    (2 ^ v.lenBits ≤ 8 * m.length → exec (.hashDigest sel m) s = .refused .hashLengthOutOfDomain)

/-- R66, with R31 (a): the padding, in one block or two, the big-endian digest, and the unit left initialised. The premises on
the buffer are R15's invariants (`InvariantKept`). -/
def Obligations.HashFinal : Prop :=
  (∀ (v : Variant) (sel : BitVec 8) (s : State), variantOf sel = some v →
    (getUnit s v).buf.wf v.blockBytes = true → (∀ a, (getUnit s v).fill.val ≤ a → (getUnit s v).buf.read a = 0#8) →
    ∃ H : Vector (BitVec v.wordBits) 8,
      exec (.hashFinal sel) s =
        .next (respond (H.toList.flatMap fun x => beBytes v.wordBytes x.toNat) (setUnit v (HashUnit.init v) s)) ∧
      H =
        (let u := getUnit s v
        let tail := u.buf.readBytes 0 u.fill.val ++ [0x80#8]
        let size := beBytes v.lenBytes u.len.toNat
        if u.fill.val + 1 ≤ v.blockBytes - v.lenBytes then
          compress v u.h (tail ++ zeros (v.blockBytes - v.lenBytes - (u.fill.val + 1)) ++ size)
        else
          compress v (compress v u.h (tail ++ zeros (v.blockBytes - (u.fill.val + 1))))
            (zeros (v.blockBytes - v.lenBytes) ++ size))) ∧
  ∀ (sel : BitVec 8) (s : State), 1 < sel.toNat → exec (.hashFinal sel) s = .next (raise .invalidSelector s)

/-- R67: `HASH_INIT`, `HASH_UPDATE`, `HASH_FINAL` as one command; the result is `Digest_v(message)`. -/
def Obligations.HashDigest : Prop :=
  (∀ (v : Variant) (sel : BitVec 8) (m : Bytes) (s : State), variantOf sel = some v → 8 * m.length < 2 ^ v.lenBits →
    exec (.hashDigest sel m) s = .next (respond (digest v m) (setUnit v (HashUnit.init v) s)) ∧
    exec (.hashDigest sel m) s = runAll [.hashInit sel, .hashUpdate sel m, .hashFinal sel] s) ∧
  ∀ (sel : BitVec 8) (m : Bytes) (s : State), 1 < sel.toNat →
    exec (.hashDigest sel m) s = .next (raise .invalidSelector s)

/-- R69: every way of streaming a message through a unit gives `Digest_v` of it, also without `HASH_INIT` on a unit that is
already initialised (an inference the spec marks as its own). -/
def Obligations.StreamingEqualsDigest : Prop :=
  ∀ (v : Variant) (sel : BitVec 8) (pieces : List Bytes) (s : State), variantOf sel = some v →
    8 * pieces.flatten.length < 2 ^ v.lenBits →
    runAll (.hashInit sel :: (pieces.map (Instr.hashUpdate sel) ++ [.hashFinal sel])) s =
        .next (respond (digest v pieces.flatten) (setUnit v (HashUnit.init v) s)) ∧
      (getUnit s v = HashUnit.init v →
        runAll (pieces.map (Instr.hashUpdate sel) ++ [.hashFinal sel]) s =
          .next (respond (digest v pieces.flatten) (setUnit v (HashUnit.init v) s)))

/-- R69: z is the least number with (n + 1 + z) mod B = B − lenbytes, and the padded message fills whole blocks: the message,
0x80, z zeros, the bit length big-endian. -/
def Obligations.PaddingLayout : Prop :=
  ∀ (v : Variant) (m : Bytes), ∃ z : Nat,
    (m.length + 1 + z) % v.blockBytes = v.blockBytes - v.lenBytes ∧
    (∀ z', (m.length + 1 + z') % v.blockBytes = v.blockBytes - v.lenBytes → z ≤ z') ∧
    padded v m = m ++ [0x80#8] ++ List.replicate z 0#8 ++ beBytes v.lenBytes (8 * m.length) ∧
    (padded v m).length % v.blockBytes = 0

/-- R63: `COMPRESS_v(H, block)`. The schedule has NROUNDS words, the block's 16 big-endian words and then the recursion; the
working variables start as the words of H; each round t computes CH, MAJ, T1 and T2 with `K[t]` and `Wt[t]` and moves the
variables on; the result adds the last ones to H. `n p q` is p for S32 and q for S64, the amounts of R61 and R62, where `K[t]`
is the first w bits of the fractional part of the cube root of prime number t. Every sum is modulo 2^w. -/
def Obligations.CompressionFunction : Prop :=
  ∀ v : Variant,
    let n : Nat → Nat → Nat := fun p q => match v with | .s32 => p | .s64 => q
    ∀ (H : Vector (BitVec v.wordBits) 8) (block : Bytes),
    let W : Nat → BitVec v.wordBits := fun t => (schedule v block).getD t 0
    let K : Nat → BitVec v.wordBits := fun t => (roundConstants v).getD t 0
    (schedule v block).length = n 64 80 ∧
    (∀ t, t < 16 → W t = BitVec.ofNat v.wordBits (beNat (slice block (t * n 4 8) (n 4 8)))) ∧
    (∀ t, 16 ≤ t → t < n 64 80 →
      W t =
        ((W (t - 2)).rotateRight (n 17 19) ^^^ (W (t - 2)).rotateRight (n 19 61) ^^^ (W (t - 2) >>> n 10 6)) + W (t - 7)
          + ((W (t - 15)).rotateRight (n 7 1) ^^^ (W (t - 15)).rotateRight (n 18 8) ^^^ (W (t - 15) >>> n 3 7))
          + W (t - 16)) ∧
    (∀ t, t < n 64 80 → ∃ p root : Nat,
      ((List.range 410).filter fun m => decide (2 ≤ m ∧ ∀ d ∈ List.range m, 2 ≤ d → m % d ≠ 0))[t]? = some p ∧
      (root * 2 ^ n 32 64 + (K t).toNat) ^ 3 ≤ p * 2 ^ (3 * n 32 64) ∧
      p * 2 ^ (3 * n 32 64) < (root * 2 ^ n 32 64 + (K t).toNat + 1) ^ 3) ∧
    ∃ x : Nat → WorkVars v,
      x 0 = { a := H[0], b := H[1], c := H[2], d := H[3], e := H[4], f := H[5], g := H[6], h := H[7] } ∧
      (∀ t, t < n 64 80 →
        let y := x t
        let ch := (y.e &&& y.f) ^^^ (~~~y.e &&& y.g)
        let maj := (y.a &&& y.b) ^^^ (y.a &&& y.c) ^^^ (y.b &&& y.c)
        let t1 := y.h + (y.e.rotateRight (n 6 14) ^^^ y.e.rotateRight (n 11 18) ^^^ y.e.rotateRight (n 25 41)) + ch + K t + W t
        let t2 := (y.a.rotateRight (n 2 28) ^^^ y.a.rotateRight (n 13 34) ^^^ y.a.rotateRight (n 22 39)) + maj
        x (t + 1) = { a := t1 + t2, b := y.a, c := y.b, d := y.c, e := y.d + t1, f := y.e, g := y.f, h := y.g }) ∧
      compress v H block =
        (let y := x (n 64 80)
        #v[H[0] + y.a, H[1] + y.b, H[2] + y.c, H[3] + y.d, H[4] + y.e, H[5] + y.f, H[6] + y.g, H[7] + y.h])

/-! ### HMAC (41_hmac.md) -/

/-- R81: `HMAC_CONFIG` writes `HSEL` and `HCFG` and keeps `HOUT` and everything else. R83: `HMAC_READ` returns the first `HL`
bytes of `HOUT`, or nothing when unconfigured, raises no error and writes nothing. -/
def Obligations.HmacConfigRead : Prop :=
  (∀ s : State, exec (.hmacConfig 0#8) s =
    .next { s with hmac := { s.hmac with hcfg := true, hsel := .s32 }, resp := some ⟨0#4, []⟩ }) ∧
  (∀ s : State, exec (.hmacConfig 1#8) s =
    .next { s with hmac := { s.hmac with hcfg := true, hsel := .s64 }, resp := some ⟨0#4, []⟩ }) ∧
  (∀ (sel : BitVec 8) (s : State), 1 < sel.toNat → exec (.hmacConfig sel) s = .next (raise .invalidSelector s)) ∧
  ∀ s : State, exec .hmacRead s =
    .next { s with
      resp := some ⟨0#4,
        if s.hmac.hcfg then
          (List.range (match s.hmac.hsel with | .s32 => 32 | .s64 => 64)).map fun a => s.hmac.hout.read a
        else []⟩ }

/-- R80: `Hmac_v` is two passes of `Digest_v` over the prepared key of exactly B bytes: the key, or its digest where it is
longer than B, then zeros; each byte XORed with 0x36 for the inner pass and with 0x5c for the outer. -/
def Obligations.HmacFunction : Prop :=
  ∀ (v : Variant) (key message k0 : Bytes), k0.length = v.blockBytes →
    (∀ j, j < v.blockBytes → k0.getD j 0#8 = (if v.blockBytes < key.length then digest v key else key).getD j 0#8) →
    hmac v key message =
      digest v (k0.map (· ^^^ 0x5c#8) ++ digest v (k0.map (· ^^^ 0x36#8) ++ message))

/-- R82: the result is `Hmac_v(key, message)` for the configured variant; `HOUT` holds it, with zeros after it; hash unit v is
left initialised. The premises on lengths are R68's bound for its digests. -/
def Obligations.HmacDigest : Prop :=
  ∀ (key message : Bytes) (s : State),
    (s.hmac.hcfg = false → exec (.hmacDigest key message) s = .next (raise .notConfigured s)) ∧
    (s.hmac.hcfg = true → (s.hmac.hsel.blockBytes < key.length → 8 * key.length < 2 ^ s.hmac.hsel.lenBits) →
      8 * (s.hmac.hsel.blockBytes + message.length) < 2 ^ s.hmac.hsel.lenBits →
      ∃ m : Memory,
        exec (.hmacDigest key message) s =
          .next (respond (hmac s.hmac.hsel key message)
            (setUnit s.hmac.hsel (HashUnit.init s.hmac.hsel) { s with hmac := { s.hmac with hout := m } })) ∧
        (hmac s.hmac.hsel key message).length = (match s.hmac.hsel with | .s32 => 32 | .s64 => 64) ∧
        m.wf 64 = true ∧ ∀ a, m.read a = (hmac s.hmac.hsel key message).getD a 0#8)

/-- R84: keys that differ only by trailing zeros, both at most B bytes long, give the same result, and so do a key longer than
B and its own digest (inferences the spec marks as its own). -/
def Obligations.HmacKeyPreparation : Prop :=
  (∀ (v : Variant) (key message : Bytes) (n : Nat), key.length + n ≤ v.blockBytes →
    hmac v (key ++ zeros n) message = hmac v key message) ∧
  ∀ (v : Variant) (key message : Bytes), v.blockBytes < key.length → hmac v (digest v key) message = hmac v key message

/-! ### Cipher (42_cipher.md) -/

/-- R95, with R92's layout: the two errors, and for a key that fits its selector the round-key words, byte by byte, with zeros
above them, `NK` and `KEYED`. -/
def Obligations.AesKeyexp : Prop :=
  ∀ (sel : BitVec 8) (key : Bytes) (s : State),
    (2 < sel.toNat → exec (.aesKeyexp sel key) s = .next (raise .invalidSelector s)) ∧
    (sel.toNat ≤ 2 → key.length ≠ 16 + 8 * sel.toNat → exec (.aesKeyexp sel key) s = .next (raise .invalidInputLength s)) ∧
    (sel.toNat ≤ 2 → key.length = 16 + 8 * sel.toNat →
      ∃ (nk : KeyLen) (w : Vector (BitVec 32) 60), nk.words = 4 + 2 * sel.toNat ∧
        exec (.aesKeyexp sel key) s =
          .next { s with ciph := { keyed := true, nk := nk, w := w }, resp := some ⟨0#4, []⟩ } ∧
        ∀ i, i < 60 →
          wordBytes (w.toList.getD i 0) =
            if i < nk.words then slice key (4 * i) 4
            else if i < 4 * (nk.words + 7) then
              xorBytes (wordBytes (w.toList.getD (i - nk.words) 0))
                (match wordBytes (w.toList.getD (i - 1) 0) with
                | [t0, t1, t2, t3] =>
                  if i % nk.words = 0 then [sbox t1 ^^^ rc (i / nk.words), sbox t2, sbox t3, sbox t0]
                  else if 6 < nk.words ∧ i % nk.words = 4 then [sbox t0, sbox t1, sbox t2, sbox t3]
                  else [t0, t1, t2, t3]
                | _ => [])
            else [0#8, 0#8, 0#8, 0#8])

/-- R96: the two errors, and for a 16-byte block under a key the rounds of the forward cipher, the last without `MixColumns`;
no state is written. -/
def Obligations.AesCipher : Prop :=
  ∀ (b : Bytes) (s : State),
    (s.ciph.keyed = false → exec (.aesCipher b) s = .next (raise .notConfigured s)) ∧
    (s.ciph.keyed = true → b.length ≠ 16 → exec (.aesCipher b) s = .next (raise .invalidInputLength s)) ∧
    (s.ciph.keyed = true → b.length = 16 →
      ∃ S : Nat → Bytes, S 0 = addRoundKey s.ciph.w 0 b ∧
        (∀ r, 1 ≤ r → r ≤ s.ciph.nk.words + 5 →
          S r = addRoundKey s.ciph.w r (mixColumns (shiftRows (subBytes (S (r - 1)))))) ∧
        exec (.aesCipher b) s =
          .next { s with
            resp := some ⟨0#4,
              addRoundKey s.ciph.w (s.ciph.nk.words + 6) (shiftRows (subBytes (S (s.ciph.nk.words + 5))))⟩ } ∧
        (addRoundKey s.ciph.w (s.ciph.nk.words + 6) (shiftRows (subBytes (S (s.ciph.nk.words + 5))))).length = 16)

/-- R97: as R96, with the inverse transformations from the last round key to the first. -/
def Obligations.AesInvcipher : Prop :=
  ∀ (b : Bytes) (s : State),
    (s.ciph.keyed = false → exec (.aesInvcipher b) s = .next (raise .notConfigured s)) ∧
    (s.ciph.keyed = true → b.length ≠ 16 → exec (.aesInvcipher b) s = .next (raise .invalidInputLength s)) ∧
    (s.ciph.keyed = true → b.length = 16 →
      ∃ S : Nat → Bytes, S (s.ciph.nk.words + 6) = addRoundKey s.ciph.w (s.ciph.nk.words + 6) b ∧
        (∀ r, 1 ≤ r → r ≤ s.ciph.nk.words + 5 →
          S r = invMixColumns (addRoundKey s.ciph.w r (invSubBytes (invShiftRows (S (r + 1)))))) ∧
        exec (.aesInvcipher b) s =
          .next { s with resp := some ⟨0#4, addRoundKey s.ciph.w 0 (invSubBytes (invShiftRows (S 1)))⟩ } ∧
        (addRoundKey s.ciph.w 0 (invSubBytes (invShiftRows (S 1)))).length = 16)

/-- R94: each of the four pairs of transformations is mutually inverse on the 16-byte states. -/
def Obligations.RoundTransformsInvert : Prop :=
  ∀ s : Bytes, s.length = 16 →
    (invSubBytes (subBytes s) = s ∧ subBytes (invSubBytes s) = s) ∧
    (invShiftRows (shiftRows s) = s ∧ shiftRows (invShiftRows s) = s) ∧
    (invMixColumns (mixColumns s) = s ∧ mixColumns (invMixColumns s) = s) ∧
    ∀ (w : Vector (BitVec 32) 60) (r : Nat), r ≤ 14 → addRoundKey w r (addRoundKey w r s) = s

/-- R93: each S-box entry is the affine map of the multiplicative inverse in GF(2^8), `INV_SBOX` inverts `SBOX`, and the round
constants are the powers of x. -/
def Obligations.SboxAlgebra : Prop :=
  (∀ a : Byte, ∃ x : Byte, (if a = 0#8 then x = 0#8 else gmul a x = 1#8) ∧
    sbox a = x ^^^ x.rotateRight 4 ^^^ x.rotateRight 5 ^^^ x.rotateRight 6 ^^^ x.rotateRight 7 ^^^ 0x63#8) ∧
  (∀ a : Byte, invSbox (sbox a) = a ∧ sbox (invSbox a) = a) ∧
  rc 1 = 1#8 ∧ ∀ j, 1 ≤ j → j < 10 → rc (j + 1) = xtime (rc j)

/-- R98: under any key held, `AES_INVCIPHER` undoes `AES_CIPHER`, and the other way round, on every block (an inference the
spec marks as its own). -/
def Obligations.CipherInverse : Prop :=
  ∀ (s : State) (b : Bytes), s.ciph.keyed = true → b.length = 16 →
    (∃ t u c, exec (.aesCipher b) s = .next t ∧ OkWith t c ∧ exec (.aesInvcipher c) t = .next u ∧ OkWith u b) ∧
    ∃ t u c, exec (.aesInvcipher b) s = .next t ∧ OkWith t c ∧ exec (.aesCipher c) t = .next u ∧ OkWith u b

/-! ### CBC (43_cbc.md) -/

/-- R107, with R105, R106, R109: block by block, a block zero-filled to 16 bytes, XORed with the ciphertext block before it
(`CBC_IV` before the first) and enciphered; `IV` and `LAST` end at `CBC_IV`. -/
def Obligations.CbcEncrypt : Prop :=
  ∀ (p : Bytes) (s : State),
    (s.ciph.keyed = false → exec (.cbcEncrypt p) s = .next (raise .notConfigured s)) ∧
    (s.ciph.keyed = true →
      ∃ c : Bytes,
        exec (.cbcEncrypt p) s =
          .next { s with cbc := { iv := Config.cbcIv, last := Config.cbcIv }, resp := some ⟨0#4, c⟩ } ∧
        c.length = 16 * ((p.length + 15) / 16) ∧
        ∀ i, i < (p.length + 15) / 16 →
          slice c (16 * i) 16 =
            cipher s.ciph.w (s.ciph.nk.words + 6)
              (xorBytes (slice p (16 * i) 16 ++ zeros (16 - (slice p (16 * i) 16).length))
                (if i = 0 then Config.cbcIv.toList else slice c (16 * (i - 1)) 16)))

/-- R108, with R105, R106, R109: block by block, the inverse cipher of a block XORed with the ciphertext block before it
(`CBC_IV` before the first); `IV` and `LAST` end at `CBC_IV`. -/
def Obligations.CbcDecrypt : Prop :=
  ∀ (c : Bytes) (s : State),
    (s.ciph.keyed = false → exec (.cbcDecrypt c) s = .next (raise .notConfigured s)) ∧
    (s.ciph.keyed = true → c.length % 16 ≠ 0 → exec (.cbcDecrypt c) s = .next (raise .invalidInputLength s)) ∧
    (s.ciph.keyed = true → c.length % 16 = 0 →
      ∃ p : Bytes,
        exec (.cbcDecrypt c) s =
          .next { s with cbc := { iv := Config.cbcIv, last := Config.cbcIv }, resp := some ⟨0#4, p⟩ } ∧
        p.length = c.length ∧
        ∀ i, i < c.length / 16 →
          slice p (16 * i) 16 =
            xorBytes (invCipher s.ciph.w (s.ciph.nk.words + 6) (slice c (16 * i) 16))
              (if i = 0 then Config.cbcIv.toList else slice c (16 * (i - 1)) 16))

/-- R110: `CBC_DECRYPT` of `CBC_ENCRYPT`'s result is the plaintext, zero-filled to whole blocks (an inference the spec marks
as its own). -/
def Obligations.CbcRoundTrip : Prop :=
  ∀ (p : Bytes) (s : State), s.ciph.keyed = true →
    ∃ t u c, exec (.cbcEncrypt p) s = .next t ∧ OkWith t c ∧ exec (.cbcDecrypt c) t = .next u ∧
      OkWith u (p ++ zeros ((16 - p.length % 16) % 16))

/-! ### Field (44_field.md) -/

/-- R119: the limbs unpacked, the top one masked to 15 bits, their value, and the length error. -/
def Obligations.FeUnpack : Prop :=
  ∀ (rd : FReg) (b : Bytes) (s : State),
    (b.length ≠ 32 → exec (.feUnpack rd b) s = .next (raise .invalidInputLength s)) ∧
    (b.length = 32 →
      ∃ e : Elem, exec (.feUnpack rd b) s = .next (respond [] (setF rd e s)) ∧
        (∀ k : Fin 16, e[k].toInt =
          ((if k.val = 15 then ((b.getD 30 0#8).toNat + 256 * (b.getD 31 0#8).toNat) % 2 ^ 15
            else (b.getD (2 * k.val) 0#8).toNat + 256 * (b.getD (2 * k.val + 1) 0#8).toNat : Nat) : Int)) ∧
        Fe.val e.toFe = ((leNat b % 2 ^ 255 : Nat) : Int))

/-- R128: the four constants, and the selector error. -/
def Obligations.FeConst : Prop :=
  ∀ (rd : FReg) (s : State),
    exec (.feConst rd 0#8) s = .next (respond [] (setF rd (#v[0, 0, 0, 0, 0, 0, 0, 0, 0, 0, 0, 0, 0, 0, 0, 0]) s)) ∧
    exec (.feConst rd 1#8) s = .next (respond [] (setF rd (#v[1, 0, 0, 0, 0, 0, 0, 0, 0, 0, 0, 0, 0, 0, 0, 0]) s)) ∧
    exec (.feConst rd 2#8) s = .next (respond [] (setF rd (#v[0xDB41, 1, 0, 0, 0, 0, 0, 0, 0, 0, 0, 0, 0, 0, 0, 0]) s)) ∧
    exec (.feConst rd 3#8) s = .next (respond [] (setF rd (#v[9, 0, 0, 0, 0, 0, 0, 0, 0, 0, 0, 0, 0, 0, 0, 0]) s)) ∧
    ∀ sel : BitVec 8, 3 < sel.toNat → exec (.feConst rd sel) s = .next (raise .invalidSelector s)

/-- R129: `FE_MOV` copies all 16 limbs, unchanged. R125, `FE_CSWAP`: with bit 0 no register changes, with bit 1 the two exchange all 16 limbs, also when they are the same register; any
other selector is an error. -/
def Obligations.FeMovCswap : Prop :=
  (∀ (rd ra : FReg) (s : State), ∃ f : Vector Elem 16,
    exec (.feMov rd ra) s = .next { s with f := f, resp := some ⟨0#4, []⟩ } ∧
      ∀ i : FReg, f[i] = if i = rd then getF s ra else getF s i) ∧
  ∀ (ra rb : FReg) (s : State),
    exec (.feCswap ra rb 0#8) s = .next { s with resp := some ⟨0#4, []⟩ } ∧
    (∃ f : Vector Elem 16, exec (.feCswap ra rb 1#8) s = .next { s with f := f, resp := some ⟨0#4, []⟩ } ∧
      ∀ i : FReg, f[i] = if i = ra then getF s rb else if i = rb then getF s ra else getF s i) ∧
    ∀ sel : BitVec 8, 1 < sel.toNat → exec (.feCswap ra rb sel) s = .next (raise .invalidSelector s)

/-- R121, R122: limb by limb, no carry or borrow and no reduction; refused where a sum or difference leaves the 64-bit range
(R116). -/
def Obligations.FeAddSub : Prop :=
  ∀ (rd ra rb : FReg) (s : State),
    ((∀ k, InRange (limb s ra k + limb s rb k)) →
      ∃ e : Elem, exec (.feAdd rd ra rb) s = .next (respond [] (setF rd e s)) ∧
        ∀ k : Fin 16, e[k].toInt = limb s ra k + limb s rb k) ∧
    ((∃ k, ¬InRange (limb s ra k + limb s rb k)) → exec (.feAdd rd ra rb) s = .refused .limbOutOfDomain) ∧
    ((∀ k, InRange (limb s ra k - limb s rb k)) →
      ∃ e : Elem, exec (.feSub rd ra rb) s = .next (respond [] (setF rd e s)) ∧
        ∀ k : Fin 16, e[k].toInt = limb s ra k - limb s rb k) ∧
    ((∃ k, ¬InRange (limb s ra k - limb s rb k)) → exec (.feSub rd ra rb) s = .refused .limbOutOfDomain)

/-- R123, `FE_MUL`: the 31-limb convolution, limbs 16..30 folded onto 0..14 times 38, and two carry passes. Which values must stay in
the 64-bit range (`Fe.mulNamed`) is the model's reading of R116 (assumption 7). R124: `FE_SQR` is the product of the register
with itself, limb for limb, and completes wherever that product does. -/
def Obligations.FeMulSqr : Prop :=
  (∀ (rd ra rb : FReg) (s : State),
    (inDomain (Fe.mulNamed (feOf s ra) (feOf s rb)) = true →
      ∃ (e : Elem) (o : Fe), exec (.feMul rd ra rb) s = .next (respond [] (setF rd e s)) ∧
        e.toFe = Fe.carry (Fe.carry o) ∧ o.length = 16 ∧
        ∀ k, k < 16 →
          o.getD k 0 =
            (let t : Nat → Int := fun n =>
              ((List.range 16).map fun i =>
                if i ≤ n ∧ n ≤ i + 15 then (feOf s ra).getD i 0 * (feOf s rb).getD (n - i) 0 else 0).sum
            if k < 15 then t k + 38 * t (k + 16) else t k)) ∧
    (inDomain (Fe.mulNamed (feOf s ra) (feOf s rb)) = false → exec (.feMul rd ra rb) s = .refused .limbOutOfDomain)) ∧
  ∀ (rd ra : FReg) (s : State), exec (.feSqr rd ra) s = exec (.feMul rd ra ra) s ∧
    (inDomain (Fe.mulNamed (feOf s ra) (feOf s ra)) = true →
      ∃ e : Elem, exec (.feSqr rd ra) s = .next (respond [] (setF rd e s)) ∧ e.toFe = Fe.mul (feOf s ra) (feOf s ra))

/-- R120, with R118's loop: each limb takes the carry of the one below it, keeps what is left below 2^16 and passes the floor
on; 38 times the last carry goes to limb 0. The domain is the model's reading of R116 (assumption 7). -/
def Obligations.FeCarry : Prop :=
  ∀ (rd ra : FReg) (s : State),
    (inDomain (Fe.carryNamed (feOf s ra)) = true →
      ∃ (e : Elem) (c : Nat → Int), exec (.feCarry rd ra) s = .next (respond [] (setF rd e s)) ∧
        ∀ k : Fin 16,
          c k.val = (limb s ra k + if k.val = 0 then 0 else c (k.val - 1)) / 2 ^ 16 ∧
          e[k].toInt = (limb s ra k + if k.val = 0 then 0 else c (k.val - 1)) - c k.val * 2 ^ 16
            + if k.val = 0 then 38 * c 15 else 0) ∧
    (inDomain (Fe.carryNamed (feOf s ra)) = false → exec (.feCarry rd ra) s = .refused .limbOutOfDomain)

/-- R118's properties: a pass changes the value by a multiple of 2p and leaves limbs 1 to 15 in [0, 2^16); under the bounds it
gives, one or two passes reach FN (inferences the spec marks as its own). -/
def Obligations.CarryNormalises : Prop :=
  ∀ e : Fe, e.length = 16 →
    (∃ k : Int, Fe.val (Fe.carry e) = Fe.val e - k * (2 * fieldPrime)) ∧
    Fe.fn (Fe.carry e).tail = true ∧
    (Fe.fn e.tail = true → -65498 ≤ e.headD 0 → e.headD 0 ≤ 131033 → Fe.fn (Fe.carry e) = true) ∧
    (Fe.bounded (2 ^ 26) e = true → Fe.fn (Fe.carry (Fe.carry e)) = true)

/-- R123, R131 (b): the product's value is the product of the values modulo p; on 2^26-bounded operands no named value leaves
the 64-bit range and the product is WN (inferences the spec marks as its own). -/
def Obligations.MulValue : Prop :=
  ∀ a b : Fe, a.length = 16 → b.length = 16 →
    (Fe.val (Fe.mul a b) - Fe.val a * Fe.val b) % fieldPrime = 0 ∧
    (Fe.bounded (2 ^ 26) a = true → Fe.bounded (2 ^ 26) b = true →
      inDomain (Fe.mulNamed a b) = true ∧ Fe.wn (Fe.mul a b) = true)

/-- R126: 254 iterations from k = 253 down to 0, each a square and, unless k is 2 or 4, a product with the operand. The domain
is the model's reading of R116 (assumption 7); that the model's short way to it on a 2^26-bounded register agrees with all the
iterations rests on R131 (b) (assumption 8). -/
def Obligations.FeInv : Prop :=
  ∀ (rd ra : FReg) (s : State),
    (invLoopDomain (feOf s ra) 254 (feOf s ra) = true →
      ∃ (e : Elem) (c : Nat → Fe), exec (.feInv rd ra) s = .next (respond [] (setF rd e s)) ∧
        c 254 = feOf s ra ∧ e.toFe = c 0 ∧
        ∀ k, k < 254 →
          c k = if k = 2 ∨ k = 4 then Fe.sqr (c (k + 1)) else Fe.mul (Fe.sqr (c (k + 1))) (feOf s ra)) ∧
    (invLoopDomain (feOf s ra) 254 (feOf s ra) = false → exec (.feInv rd ra) s = .refused .limbOutOfDomain)

/-- R126: the inverse's value is the operand's to the power p − 2 modulo p; on a 2^26-bounded operand it is WN and no named
value leaves the 64-bit range (inferences the spec marks as its own). -/
def Obligations.InvValue : Prop :=
  ∀ a : Fe, a.length = 16 →
    (Fe.val (Fe.inv a) - Fe.val a ^ (2 ^ 255 - 21)) % fieldPrime = 0 ∧
    (Fe.bounded (2 ^ 26) a = true → invLoopDomain a 254 a = true ∧ Fe.wn (Fe.inv a) = true)

/-- R127, decision D20: the result is `Pack` of the register, 32 bytes, and nothing is written; it completes on every
2^26-bounded register. The domain is the model's reading of R116 (assumption 7). -/
def Obligations.FePack : Prop :=
  ∀ (ra : FReg) (s : State),
    (inDomain (Fe.packNamed (feOf s ra)) = true →
      exec (.fePack ra) s = .next { s with resp := some ⟨0#4, Fe.pack (feOf s ra)⟩ } ∧
        (Fe.pack (feOf s ra)).length = 32) ∧
    (inDomain (Fe.packNamed (feOf s ra)) = false → exec (.fePack ra) s = .refused .limbOutOfDomain) ∧
    (Fe.bounded (2 ^ 26) (feOf s ra) = true → inDomain (Fe.packNamed (feOf s ra)) = true)

/-- R127: where two carry passes reach FN, `Pack` is the canonical little-endian encoding of the value modulo p (an inference
the spec marks as its own). -/
def Obligations.PackCanonical : Prop :=
  ∀ e : Fe, e.length = 16 → Fe.fn (Fe.carry (Fe.carry e)) = true →
    Fe.pack e = leBytes 32 (Fe.val e % fieldPrime).toNat

/-! ### Ladder and key exchange (45_ladder.md, 46_kx.md) -/

/-- R136: bytes 0 and n − 1 clamped, the others kept; as an integer a multiple of 8 in [2^(8n−2), 2^(8n−1)); idempotent. -/
def Obligations.ClampScalars : Prop :=
  ∀ s : Bytes, (s.length = 32 ∨ s.length = 64) →
    (clamp s).length = s.length ∧
    (∀ i, i < s.length →
      (clamp s).getD i 0#8 =
        if i = 0 then s.getD 0 0#8 &&& 0xF8#8
        else if i = s.length - 1 then (s.getD i 0#8 &&& 0x7F#8) ||| 0x40#8
        else s.getD i 0#8) ∧
    leNat (clamp s) % 8 = 0 ∧ 2 ^ (8 * s.length - 2) ≤ leNat (clamp s) ∧ leNat (clamp s) < 2 ^ (8 * s.length - 1) ∧
    clamp (clamp s) = clamp s

/-- R138: from (1 : 0) and (x : 1), one ladder step at each bit of the clamped scalar from 8n − 2 down to 0, then the numerator
times the inverse of the denominator, packed. -/
def Obligations.LadderSteps : Prop :=
  ∀ s q : Bytes, (s.length = 32 ∨ s.length = 64) → q.length = 32 →
    ∃ l : Nat → Ladder,
      l (8 * s.length - 1) = { a := Fe.one, b := Fe.unpack q, c := Fe.zero, d := Fe.one } ∧
      (∀ i, i < 8 * s.length - 1 →
        l i = ladderStep (Fe.unpack q) ((leNat (clamp s)).testBit i) (l (i + 1))) ∧
      scalarMult s q = Fe.pack (Fe.mul (l 0).a (Fe.inv (l 0).c))

/-- R139: inside a scalar multiplication no field operation leaves the domain of R116, so the ladder and key-exchange commands
check none (an inference the spec marks as its own; assumption 9). -/
def Obligations.LadderInDomain : Prop :=
  ∀ s q : Bytes, (s.length = 32 ∨ s.length = 64) → q.length = 32 → scalarMultDomain s q = true

/-- R142: the limb-level ladder computes the value-level one in GF(p), and its result is canonical (an inference the spec
marks as its own). -/
def Obligations.LadderValueLevel : Prop :=
  ∀ s q : Bytes, (s.length = 32 ∨ s.length = 64) → q.length = 32 →
    scalarMult s q = leBytes 32 (valueScalarMult s q).toNat

/-- R140: the length error, else `ScalarMult_32`, with no state read or written. -/
def Obligations.X25519 : Prop :=
  ∀ (k q : Bytes) (s : State),
    (¬(k.length = 32 ∧ q.length = 32) → exec (.x25519 k q) s = .next (raise .invalidInputLength s)) ∧
    (k.length = 32 → q.length = 32 → exec (.x25519 k q) s = .next { s with resp := some ⟨0#4, scalarMult k q⟩ })

/-- R141 in both modes of `X25519_64_MODE`; `exec` takes the mode of Config, `extended`, the model's choice of the spec's
default (assumption 6). -/
def Obligations.X25519Long : Prop :=
  ∀ (k q : Bytes) (s : State),
    (∀ mode, ¬(k.length = 64 ∧ q.length = 32) → x25519Long mode k q s = .next (raise .invalidInputLength s)) ∧
    (k.length = 64 → q.length = 32 →
      x25519Long .extended k q s = .next { s with resp := some ⟨0#4, scalarMult k q⟩ } ∧
      x25519Long .refuse k q s = .refused .ladder64Refused ∧
      exec (.x25519_64 k q) s = .next { s with resp := some ⟨0#4, scalarMult k q⟩ }) ∧
    exec (.x25519_64 k q) s = x25519Long Config.ladder64Mode k q s

/-- R146, with R37 and R145: one draw, the environment's next answer or else a free value (assumption 4); `PRIV` holds it as
drawn, `PRIVV` is set, and the result is the multiple of the base point 09 00 … 00. -/
def Obligations.KxKeygen : Prop :=
  ∀ s : State,
    (∀ d rest, s.rnd = d :: rest →
      exec .kxKeygen s =
        .next { s with
          kx := { privv := true, priv := d }, rnd := rest, drawn := s.drawn + 1,
          resp := some ⟨0#4, scalarMult d.toList (0x09#8 :: zeros 31)⟩ }) ∧
    (s.rnd = [] →
      exec .kxKeygen s =
        .next { s with
          kx := { privv := true, priv := Config.draw s.drawn }, drawn := s.drawn + 1,
          resp := some ⟨0#4, scalarMult (Config.draw s.drawn).toList (0x09#8 :: zeros 31)⟩ })

/-- R147: the two errors in their order, else the peer's value multiplied by `PRIV`; nothing is written. -/
def Obligations.KxShared : Prop :=
  ∀ (q : Bytes) (s : State),
    (s.kx.privv = false → exec (.kxShared q) s = .next (raise .notConfigured s)) ∧
    (s.kx.privv = true → q.length ≠ 32 → exec (.kxShared q) s = .next (raise .invalidInputLength s)) ∧
    (s.kx.privv = true → q.length = 32 →
      exec (.kxShared q) s = .next { s with resp := some ⟨0#4, scalarMult s.kx.priv.toList q⟩ })

/-! ### Invariants -/

/-- R15, R17, R18, R19, R30, R36, R163: every step keeps the invariants of the state between commands: canonical buffers, the
hash units' counts and zero tails, `IV = LAST = CBC_IV`, `KEYED` with `NK` and zero words above the schedule, `PRIV` zero
before a key pair, and `ERRS`, `LASTERR` and the response telling one story. -/
def Obligations.InvariantKept : Prop := ∀ s t : State, s.Inv → step s = .next t → t.Inv

/-- R22: the reset state meets the invariants. -/
def Obligations.InvariantAtReset : Prop := State.reset.Inv

end
end

