-- ==== Sys2Proof/Laws/Bytes.lean ====
section
/-! SUPPORT. Lengths of byte strings, and registers read back as strings. -/

namespace Sys2Proof.Machine

@[simp] theorem length_zeros (n : Nat) : (zeros n).length = n := by simp [zeros]

@[simp] theorem length_rep (b : Byte) (n : Nat) : (rep b n).length = n := by simp [rep]

@[simp] theorem length_slice (s : Bytes) (a n : Nat) : (slice s a n).length = min n (s.length - a) := by simp [slice]

@[simp] theorem length_xorBytes (a b : Bytes) : (xorBytes a b).length = min a.length b.length := by simp [xorBytes]

@[simp] theorem length_blocks (n count : Nat) (s : Bytes) : (blocks n count s).length = count := by simp [blocks]

@[simp] theorem length_beBytes (n v : Nat) : (beBytes n v).length = n := by
  induction n with
  | zero => rfl
  | succ n ih => simp [beBytes, ih]

@[simp] theorem length_leBytes (n v : Nat) : (leBytes n v).length = n := by
  induction n generalizing v with
  | zero => rfl
  | succ n ih => simp [leBytes, ih]

/-- A string of the register's length reads back whole. -/
theorem toList_toReg {n : Nat} {s : Bytes} (h : s.length = n) : (toReg n s).toList = s := by
  subst h
  apply List.ext_getElem
  · simp
  · intro i h1 h2
    simp [toReg, List.getD_eq_getElem?_getD]

/-- A register's string, loaded again, is the register. -/
@[simp] theorem toReg_toList {n : Nat} (v : Vector Byte n) : toReg n v.toList = v := by
  apply Vector.ext
  intro i hi
  simp [toReg, List.getD_eq_getElem?_getD]

/-- XOR with the same string twice is no change. -/
theorem xorBytes_cancel {a b : Bytes} (h : a.length = b.length) : xorBytes (xorBytes a b) b = a := by
  induction a generalizing b with
  | nil => rfl
  | cons x a ih =>
    cases b with
    | nil => simp at h
    | cons y b =>
      have hl : a.length = b.length := by simpa using h
      show (x ^^^ y ^^^ y) :: xorBytes (xorBytes a b) b = x :: a
      rw [ih hl, BitVec.xor_assoc, BitVec.xor_self, BitVec.xor_zero]

end Sys2Proof.Machine
end

