-- ==== Sys2Proof/Laws/Cipher.lean ====
section
/-! SUPPORT. A cipher state keeps its 16 bytes through every transformation. -/

namespace Sys2Proof.Machine

@[simp] theorem length_subBytes (s : Bytes) : (subBytes s).length = s.length := by simp [subBytes]

@[simp] theorem length_invSubBytes (s : Bytes) : (invSubBytes s).length = s.length := by simp [invSubBytes]

@[simp] theorem length_shiftRows (s : Bytes) : (shiftRows s).length = 16 := by simp [shiftRows, permute]

@[simp] theorem length_invShiftRows (s : Bytes) : (invShiftRows s).length = 16 := by simp [invShiftRows, permute]

@[simp] theorem length_mixColumns (s : Bytes) : (mixColumns s).length = 16 := by
  simp [mixColumns, onColumns, mixColumn, List.range_succ]

@[simp] theorem length_invMixColumns (s : Bytes) : (invMixColumns s).length = 16 := by
  simp [invMixColumns, onColumns, invMixColumn, List.range_succ]

/-- A round key has 16 bytes: the schedule has room for round 14 (R92). -/
theorem length_roundKey (w : Vector (BitVec 32) 60) {r : Nat} (h : r ≤ 14) : (roundKey w r).length = 16 := by
  have hf : ∀ l : List (BitVec 32), (l.flatMap wordBytes).length = 4 * l.length := by
    intro l
    induction l with
    | nil => rfl
    | cons x l ih => simp [wordBytes, ih]; omega
  rw [roundKey, hf]
  simp
  omega

theorem length_addRoundKey (w : Vector (BitVec 32) 60) {r : Nat} (h : r ≤ 14) {s : Bytes} (hs : s.length = 16) :
    (addRoundKey w r s).length = 16 := by simp [addRoundKey, length_roundKey w h, hs]

/-- The number of rounds is at most 14 (R91). -/
theorem KeyLen.rounds_le (nk : KeyLen) : nk.rounds ≤ 14 := by cases nk <;> decide

/-- The forward cipher gives 16 bytes (R96). -/
theorem length_cipher (w : Vector (BitVec 32) 60) {nr : Nat} (h : nr ≤ 14) (b : Bytes) : (cipher w nr b).length = 16 := by
  simp only [cipher]
  exact length_addRoundKey w h (by simp)

/-- The inverse cipher gives 16 bytes (R97). -/
theorem length_invCipher (w : Vector (BitVec 32) 60) (nr : Nat) (b : Bytes) : (invCipher w nr b).length = 16 := by
  simp only [invCipher]
  exact length_addRoundKey w (by omega) (by simp)

/-- A filled block has 16 bytes (R107). -/
theorem length_fillBlock {b : Bytes} (h : b.length ≤ 16) : (fillBlock b).length = 16 := by
  simp [fillBlock]; omega

end Sys2Proof.Machine
end

