-- ==== Sys2Proof/Laws/Encoding.lean ====
section
/-! SUPPORT. The fields of a command word: what `wordOf` puts in, `opcOf`, `rsvOf` and `fieldsOf` read out. -/

namespace Sys2Proof

@[simp] theorem opcOf_wordOf (opc : BitVec 8) (f : Fields) : opcOf (wordOf opc f) = opc := by
  apply BitVec.eq_of_getLsbD_eq
  intro i hi
  interval_cases i <;> simp [opcOf, wordOf]

@[simp] theorem rsvOf_wordOf (opc : BitVec 8) (f : Fields) : rsvOf (wordOf opc f) = 0#4 := by
  apply BitVec.eq_of_getLsbD_eq
  intro i hi
  interval_cases i <;> simp [rsvOf, wordOf]

/-- The operand fields a word was made of are the fields read from it (R45). -/
@[simp] theorem fieldsOf_wordOf (opc : BitVec 8) (f : Fields) : fieldsOf (wordOf opc f) = f := by
  obtain ⟨rd, ra, rb, sel⟩ := f
  have h1 : (wordOf opc ⟨rd, ra, rb, sel⟩).extractLsb' 20 4 = BitVec.ofFin (w := 4) rd := by
    apply BitVec.eq_of_getLsbD_eq
    intro i hi
    interval_cases i <;> simp [wordOf]
  have h2 : (wordOf opc ⟨rd, ra, rb, sel⟩).extractLsb' 16 4 = BitVec.ofFin (w := 4) ra := by
    apply BitVec.eq_of_getLsbD_eq
    intro i hi
    interval_cases i <;> simp [wordOf]
  have h3 : (wordOf opc ⟨rd, ra, rb, sel⟩).extractLsb' 12 4 = BitVec.ofFin (w := 4) rb := by
    apply BitVec.eq_of_getLsbD_eq
    intro i hi
    interval_cases i <;> simp [wordOf]
  have h4 : (wordOf opc ⟨rd, ra, rb, sel⟩).extractLsb' 0 8 = sel := by
    apply BitVec.eq_of_getLsbD_eq
    intro i hi
    interval_cases i <;> simp [wordOf]
  simp [fieldsOf, h1, h2, h3, h4]

end Sys2Proof
end

