-- ==== Sys2Proof/Laws/Field.lean ====
section
/-! SUPPORT. Elements keep their 16 limbs; containers hold limbs of the 64-bit range exactly. -/

namespace Sys2Proof.Machine

theorem length_carryChain (c : Int) (e : Fe) : (carryChain c e).1.length = e.length := by
  induction e generalizing c with
  | nil => rfl
  | cons x e ih => simp [carryChain, ih]

theorem length_addToLimb0 (x : Int) (e : Fe) : (addToLimb0 x e).length = e.length := by cases e <;> rfl

@[simp] theorem Fe.length_carry (e : Fe) : (Fe.carry e).length = e.length := by
  simp [Fe.carry, length_addToLimb0, length_carryChain]

@[simp] theorem Fe.length_add (a b : Fe) : (Fe.add a b).length = min a.length b.length := by simp [Fe.add]

@[simp] theorem Fe.length_sub (a b : Fe) : (Fe.sub a b).length = min a.length b.length := by simp [Fe.sub]

theorem length_addInto {t row : List Int} (h : row.length ≤ t.length) : (addInto t row).length = t.length := by
  induction t generalizing row with
  | nil =>
    cases row with
    | nil => rfl
    | cons => simp at h
  | cons x t ih =>
    cases row with
    | nil => rfl
    | cons y row => simpa [addInto] using ih (by simpa using h)

theorem length_addAt {i : Nat} {t row : List Int} (h : i + row.length ≤ t.length) : (addAt i t row).length = t.length := by
  induction i generalizing t with
  | zero => exact length_addInto (by omega)
  | succ i ih =>
    cases t with
    | nil => rfl
    | cons x t => simpa [addAt] using ih (by simp at h; omega)

theorem length_convolve {b : Fe} {i : Nat} {a : Fe} {t : List Int} (h : i + a.length + b.length ≤ t.length + 1) :
    (convolve b i a t).length = t.length := by
  induction a generalizing i t with
  | nil => rfl
  | cons x a ih =>
    simp only [List.length_cons] at h
    have hl : (addAt i t (b.map (x * ·))).length = t.length := length_addAt (by simp; omega)
    simp only [convolve]
    rw [ih (by omega), hl]

/-- The product of two elements has 31 limbs (R123). -/
theorem length_product {a b : Fe} (ha : a.length = 16) (hb : b.length = 16) : (product a b).length = 31 := by
  simp [product, length_convolve, ha, hb]

/-- `Mul` gives 16 limbs (R123). -/
theorem Fe.length_mul {a b : Fe} (ha : a.length = 16) (hb : b.length = 16) : (Fe.mul a b).length = 16 := by
  have hp := length_product ha hb
  simp [Fe.mul, fold38, length_addInto, hp]

/-- `Sqr` gives 16 limbs (R124). -/
theorem Fe.length_sqr {a : Fe} (ha : a.length = 16) : (Fe.sqr a).length = 16 := Fe.length_mul ha ha

/-- `Unpack` gives 16 limbs (R119). -/
@[simp] theorem Fe.length_unpack (b : Bytes) : (Fe.unpack b).length = 16 := by simp [Fe.unpack]

/-- A register holds 16 limbs (R11). -/
@[simp] theorem Elem.length_toFe (e : Elem) : (Elem.toFe e).length = 16 := by simp [Elem.toFe]

/-- Every limb a register holds is in the 64-bit range (R116). -/
theorem Elem.inDomain_toFe (e : Elem) : inDomain (Elem.toFe e) = true := by
  have h : ∀ x : BitVec 64, fits64 x.toInt = true := by
    intro x
    have h1 := BitVec.le_toInt x
    have h2 := BitVec.toInt_lt (x := x)
    simp only [fits64, Bool.and_eq_true, decide_eq_true_eq]
    omega
  simp [inDomain, Elem.toFe, h]

/-- A limb in the 64-bit range is held exactly (R116). -/
theorem toInt_ofInt_of_fits {x : Int} (h : fits64 x = true) : (BitVec.ofInt 64 x).toInt = x := by
  simp only [fits64, Bool.and_eq_true, decide_eq_true_eq] at h
  rw [BitVec.toInt_ofInt, Int.bmod_def]
  split <;> omega

/-- An element of 16 limbs in the 64-bit range is held exactly (R116). -/
theorem Fe.toFe_toElem {e : Fe} (hl : e.length = 16) (hd : inDomain e = true) : (Fe.toElem e).toFe = e := by
  apply List.ext_getElem
  · simp [hl]
  · intro i h1 h2
    have hf : fits64 e[i] = true := by
      simp only [inDomain, List.all_eq_true] at hd
      exact hd _ (List.getElem_mem h2)
    simp [Elem.toFe, Fe.toElem, List.getD_eq_getElem?_getD, h2, toInt_ofInt_of_fits hf]

/-- A register's limbs, put back, are the register. -/
@[simp] theorem Elem.toElem_toFe (e : Elem) : (Elem.toFe e).toElem = e := by
  apply Vector.ext
  intro i hi
  simp [Fe.toElem, Elem.toFe, List.getD_eq_getElem?_getD]

/-- A swap is the identity or the exchange (R125). -/
@[simp] theorem cswap_false {α : Type} (p q : α) : cswap p q false = (p, q) := rfl

@[simp] theorem cswap_true {α : Type} (p q : α) : cswap p q true = (q, p) := rfl

end Sys2Proof.Machine
end

