-- ==== Sys2Proof/Laws/Memory.lean ====
section
/-! SUPPORT. Reading after writing, and the canonical form: every buffer operation keeps it. -/

namespace Sys2Proof.Machine

@[simp] theorem Memory.read_nil (a : Nat) : Memory.read [] a = 0#8 := rfl

@[simp] theorem Memory.read_cleared (a : Nat) : Memory.cleared.read a = 0#8 := rfl

/-- Nothing is listed below where a sorted list of cells starts. -/
theorem Memory.read_below {m : Memory} {lo a : Nat} (hm : Memory.sortedFrom lo m = true) (ha : a < lo) :
    m.read a = 0#8 := by
  induction m generalizing lo with
  | nil => rfl
  | cons c m ih =>
    obtain ⟨k, v⟩ := c
    simp only [Memory.sortedFrom, Bool.and_eq_true, decide_eq_true_eq] at hm
    have hk : k ≠ a := by omega
    simp only [Memory.read, if_neg hk]
    exact ih hm.2 (by omega)

/-- A sorted list of cells may be held to a lower start. -/
theorem Memory.sortedFrom_mono {m : Memory} {lo lo' : Nat} (hm : Memory.sortedFrom lo m = true) (h : lo' ≤ lo) :
    Memory.sortedFrom lo' m = true := by
  cases m with
  | nil => rfl
  | cons c m =>
    obtain ⟨k, v⟩ := c
    simp only [Memory.sortedFrom, Bool.and_eq_true, decide_eq_true_eq] at hm ⊢
    exact ⟨⟨by omega, hm.1.2⟩, hm.2⟩

/-- Writing keeps the order of the cells. -/
theorem Memory.sortedFrom_write {m : Memory} {lo a : Nat} (b : Byte) (hm : Memory.sortedFrom lo m = true) (ha : lo ≤ a) :
    Memory.sortedFrom lo (m.write a b) = true := by
  induction m generalizing lo with
  | nil =>
    by_cases hb : b = 0#8 <;> simp [Memory.write, Memory.sortedFrom, hb, ha]
  | cons c m ih =>
    obtain ⟨k, v⟩ := c
    have hc := hm
    simp only [Memory.sortedFrom, Bool.and_eq_true, decide_eq_true_eq] at hc
    obtain ⟨⟨hk, hv⟩, hr⟩ := hc
    simp only [Memory.write]
    split
    · next hlt =>
      split
      · exact hm
      · next hb =>
        simp only [Memory.sortedFrom, Bool.and_eq_true, decide_eq_true_eq]
        exact ⟨⟨ha, hb⟩, ⟨by omega, hv⟩, hr⟩
    · next hnlt =>
      split
      · next heq =>
        split
        · exact Memory.sortedFrom_mono hr (by omega)
        · next hb =>
          subst heq
          simp only [Memory.sortedFrom, Bool.and_eq_true, decide_eq_true_eq]
          exact ⟨⟨ha, hb⟩, hr⟩
      · next hne =>
        simp only [Memory.sortedFrom, Bool.and_eq_true, decide_eq_true_eq]
        exact ⟨⟨hk, hv⟩, ih hr (by omega)⟩

/-- A read gives what was last written there, and a write leaves every other offset alone. -/
theorem Memory.read_write_from {m : Memory} {lo : Nat} (hm : Memory.sortedFrom lo m = true) (a x : Nat) (b : Byte) :
    (m.write a b).read x = if x = a then b else m.read x := by
  induction m generalizing lo with
  | nil =>
    by_cases hb : b = 0#8
    · simp [Memory.write, hb]
    · by_cases hx : x = a
      · simp [Memory.write, Memory.read, hb, hx]
      · have hx' : a ≠ x := fun e => hx e.symm
        simp [Memory.write, Memory.read, hb, hx, hx']
  | cons c m ih =>
    obtain ⟨k, v⟩ := c
    have hc := hm
    simp only [Memory.sortedFrom, Bool.and_eq_true, decide_eq_true_eq] at hc
    obtain ⟨⟨hk, hv⟩, hr⟩ := hc
    simp only [Memory.write]
    split
    · next hlt =>
      have hbelow : Memory.read ((k, v) :: m) a = 0#8 :=
        Memory.read_below (lo := k) (by simp [Memory.sortedFrom, hv, hr]) hlt
      split
      · next hb =>
        by_cases hx : x = a
        · subst hx; rw [if_pos rfl, hb]; exact hbelow
        · rw [if_neg hx]
      · by_cases hx : x = a
        · simp [Memory.read, hx]
        · have hx' : a ≠ x := fun e => hx e.symm
          simp [Memory.read, hx, hx']
    · next hnlt =>
      split
      · next heq =>
        subst heq
        have hzero : Memory.read m a = 0#8 := Memory.read_below hr (Nat.lt_succ_self a)
        split
        · next hb =>
          by_cases hx : x = a
          · subst hx; rw [if_pos rfl, hb]; exact hzero
          · have hx' : a ≠ x := fun e => hx e.symm
            simp [Memory.read, hx, hx']
        · by_cases hx : x = a
          · simp [Memory.read, hx]
          · have hx' : a ≠ x := fun e => hx e.symm
            simp [Memory.read, hx, hx']
      · next hne =>
        simp only [Memory.read]
        by_cases hkx : k = x
        · have hxa : x ≠ a := by omega
          simp [hkx, hxa]
        · simp only [if_neg hkx]; exact ih hr

/-- The addresses of a buffer after a write: those it had, and the one written. -/
theorem Memory.all_write {m : Memory} {p : Host.Cell → Bool} {a : Nat} {b : Byte} (hm : m.all p = true)
    (hp : p (a, b) = true) : (m.write a b).all p = true := by
  induction m with
  | nil => by_cases hb : b = 0#8 <;> simp [Memory.write, hb, hp]
  | cons c m ih =>
    obtain ⟨k, v⟩ := c
    simp only [List.all_cons, Bool.and_eq_true] at hm
    simp only [Memory.write]
    split
    · split <;> simp_all
    · split
      · split <;> simp_all
      · simp only [List.all_cons, Bool.and_eq_true]; exact ⟨hm.1, ih hm.2⟩

/-- A cleared buffer is in canonical form. -/
@[simp] theorem Memory.wf_cleared (size : Nat) : Memory.cleared.wf size = true := rfl

/-- A write inside the buffer keeps the canonical form. -/
theorem Memory.wf_write {size : Nat} {m : Memory} (hm : m.wf size = true) {a : Nat} (ha : a < size) (b : Byte) :
    (m.write a b).wf size = true := by
  simp only [Memory.wf, Bool.and_eq_true] at hm ⊢
  exact ⟨Memory.sortedFrom_write b hm.1 (Nat.zero_le a), Memory.all_write hm.2 (by simpa using ha)⟩

/-- Reading after writing, in a canonical buffer. -/
theorem Memory.read_write {size : Nat} {m : Memory} (hm : m.wf size = true) (a x : Nat) (b : Byte) :
    (m.write a b).read x = if x = a then b else m.read x := by
  simp only [Memory.wf, Bool.and_eq_true] at hm
  exact Memory.read_write_from hm.1 a x b

/-- A string stored inside the buffer keeps the canonical form. -/
theorem Memory.wf_writeBytes {size : Nat} {m : Memory} (hm : m.wf size = true) {a : Nat} (s : Bytes)
    (ha : a + s.length ≤ size) : (m.writeBytes a s).wf size = true := by
  induction s generalizing m a with
  | nil => exact hm
  | cons b s ih =>
    simp only [List.length_cons] at ha
    exact ih (Memory.wf_write hm (by omega) b) (by omega)

/-- Reading after storing a string, in a canonical buffer: the string's bytes where it was stored, the old bytes elsewhere. -/
theorem Memory.read_writeBytes {size : Nat} {m : Memory} (hm : m.wf size = true) {a : Nat} (s : Bytes)
    (ha : a + s.length ≤ size) (x : Nat) :
    (m.writeBytes a s).read x = if a ≤ x ∧ x < a + s.length then s.getD (x - a) 0#8 else m.read x := by
  induction s generalizing m a with
  | nil =>
    have : ¬(a ≤ x ∧ x < a + ([] : Bytes).length) := by simp
    rw [if_neg this]; rfl
  | cons b s ih =>
    simp only [List.length_cons] at ha ⊢
    simp only [Memory.writeBytes]
    rw [ih (Memory.wf_write hm (by omega) b) (by omega), Memory.read_write hm]
    by_cases hx : x = a
    · subst hx
      rw [if_neg (by omega), if_pos rfl, if_pos (by omega)]
      simp
    · rw [if_neg hx]
      by_cases hin : a ≤ x ∧ x < a + (s.length + 1)
      · rw [if_pos (by omega), if_pos hin]
        have : x - a = (x - (a + 1)) + 1 := by omega
        rw [this, List.getD_cons_succ]
      · rw [if_neg (by omega), if_neg hin]

/-- A canonical buffer lists nothing beyond its size. -/
theorem Memory.read_beyond {size : Nat} {m : Memory} (hm : m.wf size = true) {a : Nat} (ha : size ≤ a) :
    m.read a = 0#8 := by
  simp only [Memory.wf, Bool.and_eq_true] at hm
  have hall := hm.2
  clear hm
  induction m with
  | nil => rfl
  | cons c m ih =>
    obtain ⟨k, v⟩ := c
    simp only [List.all_cons, Bool.and_eq_true, decide_eq_true_eq] at hall
    have hk : k ≠ a := by omega
    simp only [Memory.read, if_neg hk]
    exact ih hall.2

/-- How many bytes `MemRead` gives. -/
@[simp] theorem Memory.length_readBytes (m : Memory) (a n : Nat) : (m.readBytes a n).length = n := by
  simp [Memory.readBytes]

/-- The bytes `MemRead` gives. -/
theorem Memory.getD_readBytes (m : Memory) (a : Nat) {n i : Nat} (h : i < n) :
    (m.readBytes a n).getD i 0#8 = m.read (a + i) := by
  simp [Memory.readBytes, List.getD_eq_getElem?_getD, h]

end Sys2Proof.Machine
end

