-- ==== Sys2Proof/Laws/Hash.lean ====
section
/-! SUPPORT. What absorbing bytes does to a hash unit, and the lengths of digests. -/

namespace Sys2Proof.Machine

@[simp] theorem absorb_nil {v : Variant} (u : HashUnit v) : absorb u [] = u := rfl

@[simp] theorem absorb_cons {v : Variant} (u : HashUnit v) (b : Byte) (s : Bytes) :
    absorb u (b :: s) = absorb (absorbByte u b) s := rfl

/-- A message in two pieces is the message whole (R65). -/
theorem absorb_append {v : Variant} (u : HashUnit v) (x y : Bytes) : absorb u (x ++ y) = absorb (absorb u x) y := by
  simp [absorb]

/-- One byte, and the block is not yet full (R65). -/
theorem absorbByte_room {v : Variant} {u : HashUnit v} (b : Byte) (h : u.fill.val + 1 < v.blockBytes) :
    absorbByte u b =
      { u with buf := u.buf.write u.fill.val b, fill := ⟨u.fill.val + 1, h⟩, len := u.len + 8#v.lenBits } := by
  simp [absorbByte, h]

/-- One byte, and the block is full: it is compressed and the buffer cleared (R65). -/
theorem absorbByte_full {v : Variant} {u : HashUnit v} (b : Byte) (h : ¬u.fill.val + 1 < v.blockBytes) :
    absorbByte u b =
      { h := compress v u.h ((u.buf.write u.fill.val b).readBytes 0 v.blockBytes), buf := Memory.cleared,
        fill := ⟨0, by cases v <;> decide⟩, len := u.len + 8#v.lenBits } := by
  simp [absorbByte, h]

/-- Absorbing a byte keeps the buffer's canonical form. -/
theorem wf_absorbByte {v : Variant} {u : HashUnit v} (b : Byte) (h : u.buf.wf v.blockBytes = true) :
    (absorbByte u b).buf.wf v.blockBytes = true := by
  by_cases hr : u.fill.val + 1 < v.blockBytes
  · rw [absorbByte_room b hr]; exact Memory.wf_write h u.fill.isLt b
  · rw [absorbByte_full b hr]; rfl

/-- Absorbing a message keeps the buffer's canonical form. -/
theorem wf_absorb {v : Variant} {u : HashUnit v} (s : Bytes) (h : u.buf.wf v.blockBytes = true) :
    (absorb u s).buf.wf v.blockBytes = true := by
  induction s generalizing u with
  | nil => exact h
  | cons b s ih => exact ih (wf_absorbByte b h)

/-- A digest string has L bytes (R60). -/
@[simp] theorem length_digestBytes (v : Variant) (H : Vector (BitVec v.wordBits) 8) :
    (digestBytes v H).length = v.digestBytes := by
  have h : ∀ l : List (BitVec v.wordBits), (l.flatMap fun x => beBytes v.wordBytes x.toNat).length = l.length * v.wordBytes := by
    intro l
    induction l with
    | nil => simp
    | cons x l ih => simp [ih, Nat.add_mul, Nat.add_comm]
  rw [digestBytes, h, Vector.length_toList]
  cases v <;> rfl

@[simp] theorem length_finalDigest {v : Variant} (u : HashUnit v) : (finalDigest u).length = v.digestBytes := by
  simp [finalDigest]

@[simp] theorem length_digest (v : Variant) (m : Bytes) : (digest v m).length = v.digestBytes := by simp [digest]

@[simp] theorem length_hmac (v : Variant) (k m : Bytes) : (hmac v k m).length = v.digestBytes := by simp [hmac]

/-- The prepared key has exactly B bytes (R80). -/
@[simp] theorem length_hmacK0 (v : Variant) (k : Bytes) : (hmacK0 v k).length = v.blockBytes := by
  have h : (hmacKey v k).length ≤ v.blockBytes := by
    unfold hmacKey
    split
    · rw [length_digest]; cases v <;> decide
    · omega
  simp [hmacK0]; omega

/-- `HOUT` after a result is stored is in canonical form (R82). -/
theorem wf_houtOf {r : Bytes} (h : r.length ≤ 64) : (houtOf r).wf 64 = true :=
  Memory.wf_writeBytes (Memory.wf_cleared 64) r (by omega)

/-- `HOUT` after a result is stored: the result's bytes, then zeros (R82). -/
theorem read_houtOf {r : Bytes} (h : r.length ≤ 64) (a : Nat) : (houtOf r).read a = r.getD a 0#8 := by
  rw [houtOf, Memory.read_writeBytes (Memory.wf_cleared 64) r (by omega)]
  by_cases ha : a < r.length
  · simp [ha]
  · rw [if_neg (by omega)]
    simp [List.getD_eq_getElem?_getD, Nat.le_of_not_lt ha]

end Sys2Proof.Machine
end

