-- ==== Sys2Proof/Laws/State.lean ====
section
/-! SUPPORT. One lemma per field per named update of the state, so that no proof unfolds a record update. -/

namespace Sys2Proof.Machine

/-! ### respond -/

@[simp] theorem respond_f (d : Bytes) (s : State) : (respond d s).f = s.f := rfl
@[simp] theorem respond_s32 (d : Bytes) (s : State) : (respond d s).s32 = s.s32 := rfl
@[simp] theorem respond_s64 (d : Bytes) (s : State) : (respond d s).s64 = s.s64 := rfl
@[simp] theorem respond_hmac (d : Bytes) (s : State) : (respond d s).hmac = s.hmac := rfl
@[simp] theorem respond_ciph (d : Bytes) (s : State) : (respond d s).ciph = s.ciph := rfl
@[simp] theorem respond_cbc (d : Bytes) (s : State) : (respond d s).cbc = s.cbc := rfl
@[simp] theorem respond_kx (d : Bytes) (s : State) : (respond d s).kx = s.kx := rfl
@[simp] theorem respond_errs (d : Bytes) (s : State) : (respond d s).errs = s.errs := rfl
@[simp] theorem respond_lasterr (d : Bytes) (s : State) : (respond d s).lasterr = s.lasterr := rfl
@[simp] theorem respond_inputs (d : Bytes) (s : State) : (respond d s).inputs = s.inputs := rfl
@[simp] theorem respond_resp (d : Bytes) (s : State) : (respond d s).resp = some { code := okCode, dout := d } := rfl
@[simp] theorem respond_rnd (d : Bytes) (s : State) : (respond d s).rnd = s.rnd := rfl
@[simp] theorem respond_drawn (d : Bytes) (s : State) : (respond d s).drawn = s.drawn := rfl

/-! ### raise -/

@[simp] theorem raise_f (e : Err) (s : State) : (raise e s).f = s.f := rfl
@[simp] theorem raise_s32 (e : Err) (s : State) : (raise e s).s32 = s.s32 := rfl
@[simp] theorem raise_s64 (e : Err) (s : State) : (raise e s).s64 = s.s64 := rfl
@[simp] theorem raise_hmac (e : Err) (s : State) : (raise e s).hmac = s.hmac := rfl
@[simp] theorem raise_ciph (e : Err) (s : State) : (raise e s).ciph = s.ciph := rfl
@[simp] theorem raise_cbc (e : Err) (s : State) : (raise e s).cbc = s.cbc := rfl
@[simp] theorem raise_kx (e : Err) (s : State) : (raise e s).kx = s.kx := rfl
@[simp] theorem raise_errs (e : Err) (s : State) : (raise e s).errs = true := rfl
@[simp] theorem raise_lasterr (e : Err) (s : State) : (raise e s).lasterr = e.code := rfl
@[simp] theorem raise_inputs (e : Err) (s : State) : (raise e s).inputs = s.inputs := rfl
@[simp] theorem raise_resp (e : Err) (s : State) : (raise e s).resp = some { code := e.code, dout := [] } := rfl
@[simp] theorem raise_rnd (e : Err) (s : State) : (raise e s).rnd = s.rnd := rfl
@[simp] theorem raise_drawn (e : Err) (s : State) : (raise e s).drawn = s.drawn := rfl

/-! ### setF -/

@[simp] theorem setF_f (i : FReg) (v : Elem) (s : State) : (setF i v s).f = s.f.set i v := rfl
@[simp] theorem setF_s32 (i : FReg) (v : Elem) (s : State) : (setF i v s).s32 = s.s32 := rfl
@[simp] theorem setF_s64 (i : FReg) (v : Elem) (s : State) : (setF i v s).s64 = s.s64 := rfl
@[simp] theorem setF_hmac (i : FReg) (v : Elem) (s : State) : (setF i v s).hmac = s.hmac := rfl
@[simp] theorem setF_ciph (i : FReg) (v : Elem) (s : State) : (setF i v s).ciph = s.ciph := rfl
@[simp] theorem setF_cbc (i : FReg) (v : Elem) (s : State) : (setF i v s).cbc = s.cbc := rfl
@[simp] theorem setF_kx (i : FReg) (v : Elem) (s : State) : (setF i v s).kx = s.kx := rfl
@[simp] theorem setF_errs (i : FReg) (v : Elem) (s : State) : (setF i v s).errs = s.errs := rfl
@[simp] theorem setF_lasterr (i : FReg) (v : Elem) (s : State) : (setF i v s).lasterr = s.lasterr := rfl
@[simp] theorem setF_inputs (i : FReg) (v : Elem) (s : State) : (setF i v s).inputs = s.inputs := rfl
@[simp] theorem setF_resp (i : FReg) (v : Elem) (s : State) : (setF i v s).resp = s.resp := rfl
@[simp] theorem setF_rnd (i : FReg) (v : Elem) (s : State) : (setF i v s).rnd = s.rnd := rfl
@[simp] theorem setF_drawn (i : FReg) (v : Elem) (s : State) : (setF i v s).drawn = s.drawn := rfl

/-! ### setHmacConfig -/

@[simp] theorem setHmacConfig_f (v : Variant) (s : State) : (setHmacConfig v s).f = s.f := rfl
@[simp] theorem setHmacConfig_s32 (v : Variant) (s : State) : (setHmacConfig v s).s32 = s.s32 := rfl
@[simp] theorem setHmacConfig_s64 (v : Variant) (s : State) : (setHmacConfig v s).s64 = s.s64 := rfl
@[simp] theorem setHmacConfig_hmac (v : Variant) (s : State) : (setHmacConfig v s).hmac = { s.hmac with hcfg := true, hsel := v } := rfl
@[simp] theorem setHmacConfig_ciph (v : Variant) (s : State) : (setHmacConfig v s).ciph = s.ciph := rfl
@[simp] theorem setHmacConfig_cbc (v : Variant) (s : State) : (setHmacConfig v s).cbc = s.cbc := rfl
@[simp] theorem setHmacConfig_kx (v : Variant) (s : State) : (setHmacConfig v s).kx = s.kx := rfl
@[simp] theorem setHmacConfig_errs (v : Variant) (s : State) : (setHmacConfig v s).errs = s.errs := rfl
@[simp] theorem setHmacConfig_lasterr (v : Variant) (s : State) : (setHmacConfig v s).lasterr = s.lasterr := rfl
@[simp] theorem setHmacConfig_inputs (v : Variant) (s : State) : (setHmacConfig v s).inputs = s.inputs := rfl
@[simp] theorem setHmacConfig_resp (v : Variant) (s : State) : (setHmacConfig v s).resp = s.resp := rfl
@[simp] theorem setHmacConfig_rnd (v : Variant) (s : State) : (setHmacConfig v s).rnd = s.rnd := rfl
@[simp] theorem setHmacConfig_drawn (v : Variant) (s : State) : (setHmacConfig v s).drawn = s.drawn := rfl

/-! ### setHout -/

@[simp] theorem setHout_f (m : Memory) (s : State) : (setHout m s).f = s.f := rfl
@[simp] theorem setHout_s32 (m : Memory) (s : State) : (setHout m s).s32 = s.s32 := rfl
@[simp] theorem setHout_s64 (m : Memory) (s : State) : (setHout m s).s64 = s.s64 := rfl
@[simp] theorem setHout_hmac (m : Memory) (s : State) : (setHout m s).hmac = { s.hmac with hout := m } := rfl
@[simp] theorem setHout_ciph (m : Memory) (s : State) : (setHout m s).ciph = s.ciph := rfl
@[simp] theorem setHout_cbc (m : Memory) (s : State) : (setHout m s).cbc = s.cbc := rfl
@[simp] theorem setHout_kx (m : Memory) (s : State) : (setHout m s).kx = s.kx := rfl
@[simp] theorem setHout_errs (m : Memory) (s : State) : (setHout m s).errs = s.errs := rfl
@[simp] theorem setHout_lasterr (m : Memory) (s : State) : (setHout m s).lasterr = s.lasterr := rfl
@[simp] theorem setHout_inputs (m : Memory) (s : State) : (setHout m s).inputs = s.inputs := rfl
@[simp] theorem setHout_resp (m : Memory) (s : State) : (setHout m s).resp = s.resp := rfl
@[simp] theorem setHout_rnd (m : Memory) (s : State) : (setHout m s).rnd = s.rnd := rfl
@[simp] theorem setHout_drawn (m : Memory) (s : State) : (setHout m s).drawn = s.drawn := rfl

/-! ### setKey -/

@[simp] theorem setKey_f (nk : KeyLen) (w : Vector (BitVec 32) 60) (s : State) : (setKey nk w s).f = s.f := rfl
@[simp] theorem setKey_s32 (nk : KeyLen) (w : Vector (BitVec 32) 60) (s : State) : (setKey nk w s).s32 = s.s32 := rfl
@[simp] theorem setKey_s64 (nk : KeyLen) (w : Vector (BitVec 32) 60) (s : State) : (setKey nk w s).s64 = s.s64 := rfl
@[simp] theorem setKey_hmac (nk : KeyLen) (w : Vector (BitVec 32) 60) (s : State) : (setKey nk w s).hmac = s.hmac := rfl
@[simp] theorem setKey_ciph (nk : KeyLen) (w : Vector (BitVec 32) 60) (s : State) : (setKey nk w s).ciph = { keyed := true, nk := nk, w := w } := rfl
@[simp] theorem setKey_cbc (nk : KeyLen) (w : Vector (BitVec 32) 60) (s : State) : (setKey nk w s).cbc = s.cbc := rfl
@[simp] theorem setKey_kx (nk : KeyLen) (w : Vector (BitVec 32) 60) (s : State) : (setKey nk w s).kx = s.kx := rfl
@[simp] theorem setKey_errs (nk : KeyLen) (w : Vector (BitVec 32) 60) (s : State) : (setKey nk w s).errs = s.errs := rfl
@[simp] theorem setKey_lasterr (nk : KeyLen) (w : Vector (BitVec 32) 60) (s : State) : (setKey nk w s).lasterr = s.lasterr := rfl
@[simp] theorem setKey_inputs (nk : KeyLen) (w : Vector (BitVec 32) 60) (s : State) : (setKey nk w s).inputs = s.inputs := rfl
@[simp] theorem setKey_resp (nk : KeyLen) (w : Vector (BitVec 32) 60) (s : State) : (setKey nk w s).resp = s.resp := rfl
@[simp] theorem setKey_rnd (nk : KeyLen) (w : Vector (BitVec 32) 60) (s : State) : (setKey nk w s).rnd = s.rnd := rfl
@[simp] theorem setKey_drawn (nk : KeyLen) (w : Vector (BitVec 32) 60) (s : State) : (setKey nk w s).drawn = s.drawn := rfl

/-! ### setCbc -/

@[simp] theorem setCbc_f (iv last : Vector Byte 16) (s : State) : (setCbc iv last s).f = s.f := rfl
@[simp] theorem setCbc_s32 (iv last : Vector Byte 16) (s : State) : (setCbc iv last s).s32 = s.s32 := rfl
@[simp] theorem setCbc_s64 (iv last : Vector Byte 16) (s : State) : (setCbc iv last s).s64 = s.s64 := rfl
@[simp] theorem setCbc_hmac (iv last : Vector Byte 16) (s : State) : (setCbc iv last s).hmac = s.hmac := rfl
@[simp] theorem setCbc_ciph (iv last : Vector Byte 16) (s : State) : (setCbc iv last s).ciph = s.ciph := rfl
@[simp] theorem setCbc_cbc (iv last : Vector Byte 16) (s : State) : (setCbc iv last s).cbc = { iv := iv, last := last } := rfl
@[simp] theorem setCbc_kx (iv last : Vector Byte 16) (s : State) : (setCbc iv last s).kx = s.kx := rfl
@[simp] theorem setCbc_errs (iv last : Vector Byte 16) (s : State) : (setCbc iv last s).errs = s.errs := rfl
@[simp] theorem setCbc_lasterr (iv last : Vector Byte 16) (s : State) : (setCbc iv last s).lasterr = s.lasterr := rfl
@[simp] theorem setCbc_inputs (iv last : Vector Byte 16) (s : State) : (setCbc iv last s).inputs = s.inputs := rfl
@[simp] theorem setCbc_resp (iv last : Vector Byte 16) (s : State) : (setCbc iv last s).resp = s.resp := rfl
@[simp] theorem setCbc_rnd (iv last : Vector Byte 16) (s : State) : (setCbc iv last s).rnd = s.rnd := rfl
@[simp] theorem setCbc_drawn (iv last : Vector Byte 16) (s : State) : (setCbc iv last s).drawn = s.drawn := rfl

/-! ### setPriv -/

@[simp] theorem setPriv_f (d : Vector Byte 32) (s : State) : (setPriv d s).f = s.f := rfl
@[simp] theorem setPriv_s32 (d : Vector Byte 32) (s : State) : (setPriv d s).s32 = s.s32 := rfl
@[simp] theorem setPriv_s64 (d : Vector Byte 32) (s : State) : (setPriv d s).s64 = s.s64 := rfl
@[simp] theorem setPriv_hmac (d : Vector Byte 32) (s : State) : (setPriv d s).hmac = s.hmac := rfl
@[simp] theorem setPriv_ciph (d : Vector Byte 32) (s : State) : (setPriv d s).ciph = s.ciph := rfl
@[simp] theorem setPriv_cbc (d : Vector Byte 32) (s : State) : (setPriv d s).cbc = s.cbc := rfl
@[simp] theorem setPriv_kx (d : Vector Byte 32) (s : State) : (setPriv d s).kx = { privv := true, priv := d } := rfl
@[simp] theorem setPriv_errs (d : Vector Byte 32) (s : State) : (setPriv d s).errs = s.errs := rfl
@[simp] theorem setPriv_lasterr (d : Vector Byte 32) (s : State) : (setPriv d s).lasterr = s.lasterr := rfl
@[simp] theorem setPriv_inputs (d : Vector Byte 32) (s : State) : (setPriv d s).inputs = s.inputs := rfl
@[simp] theorem setPriv_resp (d : Vector Byte 32) (s : State) : (setPriv d s).resp = s.resp := rfl
@[simp] theorem setPriv_rnd (d : Vector Byte 32) (s : State) : (setPriv d s).rnd = s.rnd := rfl
@[simp] theorem setPriv_drawn (d : Vector Byte 32) (s : State) : (setPriv d s).drawn = s.drawn := rfl

/-! ### drawConsumed -/

@[simp] theorem drawConsumed_f (s : State) : (drawConsumed s).f = s.f := rfl
@[simp] theorem drawConsumed_s32 (s : State) : (drawConsumed s).s32 = s.s32 := rfl
@[simp] theorem drawConsumed_s64 (s : State) : (drawConsumed s).s64 = s.s64 := rfl
@[simp] theorem drawConsumed_hmac (s : State) : (drawConsumed s).hmac = s.hmac := rfl
@[simp] theorem drawConsumed_ciph (s : State) : (drawConsumed s).ciph = s.ciph := rfl
@[simp] theorem drawConsumed_cbc (s : State) : (drawConsumed s).cbc = s.cbc := rfl
@[simp] theorem drawConsumed_kx (s : State) : (drawConsumed s).kx = s.kx := rfl
@[simp] theorem drawConsumed_errs (s : State) : (drawConsumed s).errs = s.errs := rfl
@[simp] theorem drawConsumed_lasterr (s : State) : (drawConsumed s).lasterr = s.lasterr := rfl
@[simp] theorem drawConsumed_inputs (s : State) : (drawConsumed s).inputs = s.inputs := rfl
@[simp] theorem drawConsumed_resp (s : State) : (drawConsumed s).resp = s.resp := rfl
@[simp] theorem drawConsumed_rnd (s : State) : (drawConsumed s).rnd = s.rnd.tail := rfl
@[simp] theorem drawConsumed_drawn (s : State) : (drawConsumed s).drawn = s.drawn + 1 := rfl

/-! ### resetState -/

@[simp] theorem resetState_f (s : State) : (resetState s).f = State.reset.f := rfl
@[simp] theorem resetState_s32 (s : State) : (resetState s).s32 = State.reset.s32 := rfl
@[simp] theorem resetState_s64 (s : State) : (resetState s).s64 = State.reset.s64 := rfl
@[simp] theorem resetState_hmac (s : State) : (resetState s).hmac = State.reset.hmac := rfl
@[simp] theorem resetState_ciph (s : State) : (resetState s).ciph = State.reset.ciph := rfl
@[simp] theorem resetState_cbc (s : State) : (resetState s).cbc = State.reset.cbc := rfl
@[simp] theorem resetState_kx (s : State) : (resetState s).kx = State.reset.kx := rfl
@[simp] theorem resetState_errs (s : State) : (resetState s).errs = State.reset.errs := rfl
@[simp] theorem resetState_lasterr (s : State) : (resetState s).lasterr = State.reset.lasterr := rfl
@[simp] theorem resetState_inputs (s : State) : (resetState s).inputs = s.inputs := rfl
@[simp] theorem resetState_resp (s : State) : (resetState s).resp = State.reset.resp := rfl
@[simp] theorem resetState_rnd (s : State) : (resetState s).rnd = s.rnd := rfl
@[simp] theorem resetState_drawn (s : State) : (resetState s).drawn = s.drawn := rfl

/-! ### setUnit, initUnit -/

@[simp] theorem setUnit_f (v : Variant) (u : HashUnit v) (s : State) : (setUnit v u s).f = s.f := by cases v <;> rfl
@[simp] theorem setUnit_hmac (v : Variant) (u : HashUnit v) (s : State) : (setUnit v u s).hmac = s.hmac := by cases v <;> rfl
@[simp] theorem setUnit_ciph (v : Variant) (u : HashUnit v) (s : State) : (setUnit v u s).ciph = s.ciph := by cases v <;> rfl
@[simp] theorem setUnit_cbc (v : Variant) (u : HashUnit v) (s : State) : (setUnit v u s).cbc = s.cbc := by cases v <;> rfl
@[simp] theorem setUnit_kx (v : Variant) (u : HashUnit v) (s : State) : (setUnit v u s).kx = s.kx := by cases v <;> rfl
@[simp] theorem setUnit_errs (v : Variant) (u : HashUnit v) (s : State) : (setUnit v u s).errs = s.errs := by cases v <;> rfl
@[simp] theorem setUnit_lasterr (v : Variant) (u : HashUnit v) (s : State) : (setUnit v u s).lasterr = s.lasterr := by cases v <;> rfl
@[simp] theorem setUnit_inputs (v : Variant) (u : HashUnit v) (s : State) : (setUnit v u s).inputs = s.inputs := by cases v <;> rfl
@[simp] theorem setUnit_resp (v : Variant) (u : HashUnit v) (s : State) : (setUnit v u s).resp = s.resp := by cases v <;> rfl
@[simp] theorem setUnit_rnd (v : Variant) (u : HashUnit v) (s : State) : (setUnit v u s).rnd = s.rnd := by cases v <;> rfl
@[simp] theorem setUnit_drawn (v : Variant) (u : HashUnit v) (s : State) : (setUnit v u s).drawn = s.drawn := by cases v <;> rfl

@[simp] theorem setUnit_s32_s32 (u : HashUnit .s32) (s : State) : (setUnit .s32 u s).s32 = u := rfl
@[simp] theorem setUnit_s32_s64 (u : HashUnit .s32) (s : State) : (setUnit .s32 u s).s64 = s.s64 := rfl
@[simp] theorem setUnit_s64_s32 (u : HashUnit .s64) (s : State) : (setUnit .s64 u s).s32 = s.s32 := rfl
@[simp] theorem setUnit_s64_s64 (u : HashUnit .s64) (s : State) : (setUnit .s64 u s).s64 = u := rfl

/-- A hash unit reads back as it was written. -/
@[simp] theorem getUnit_setUnit_same (v : Variant) (u : HashUnit v) (s : State) : getUnit (setUnit v u s) v = u := by
  cases v <;> rfl

/-- Writing one hash unit leaves the other (R23). -/
theorem getUnit_setUnit_other {v v' : Variant} (h : v' ≠ v) (u : HashUnit v) (s : State) :
    getUnit (setUnit v u s) v' = getUnit s v' := by
  cases v <;> cases v' <;> first | rfl | exact absurd rfl h

/-- Writing back what a hash unit holds changes nothing. -/
@[simp] theorem setUnit_getUnit (v : Variant) (s : State) : setUnit v (getUnit s v) s = s := by cases v <;> rfl

/-- The last of two writes of a hash unit counts. -/
@[simp] theorem setUnit_setUnit (v : Variant) (u u' : HashUnit v) (s : State) :
    setUnit v u (setUnit v u' s) = setUnit v u s := by cases v <;> rfl

@[simp] theorem getUnit_respond (d : Bytes) (s : State) (v : Variant) : getUnit (respond d s) v = getUnit s v := by
  cases v <;> rfl
@[simp] theorem getUnit_raise (e : Err) (s : State) (v : Variant) : getUnit (raise e s) v = getUnit s v := by
  cases v <;> rfl
@[simp] theorem getUnit_setHout (m : Memory) (s : State) (v : Variant) : getUnit (setHout m s) v = getUnit s v := by
  cases v <;> rfl

/-! ### Field registers -/

/-- A field register reads back as it was written. -/
@[simp] theorem getF_setF_same (i : FReg) (v : Elem) (s : State) : getF (setF i v s) i = v := by
  simp [getF]

/-- Writing one field register leaves the others (R11: no aliases). -/
theorem getF_setF_other {i j : FReg} (h : j ≠ i) (v : Elem) (s : State) : getF (setF i v s) j = getF s j := by
  have hne : i.val ≠ j.val := fun e => h (Fin.ext e.symm)
  simp [getF, hne]

@[simp] theorem getF_respond (d : Bytes) (s : State) (i : FReg) : getF (respond d s) i = getF s i := rfl
@[simp] theorem getF_raise (e : Err) (s : State) (i : FReg) : getF (raise e s) i = getF s i := rfl

end Sys2Proof.Machine
end

