-- ==== Sys2Proof/Laws/Ops.lean ====
section
/-! SUPPORT. What each shared operation of the meanings can answer, said once. -/

namespace Sys2Proof.Machine

@[simp] theorem done_eq_next {d : Bytes} {s t : State} : done d s = .next t ↔ respond d s = t := by simp [done]

@[simp] theorem failed_eq_next {e : Err} {s t : State} : failed e s = .next t ↔ raise e s = t := by simp [failed]

@[simp] theorem require_true (e : Err) (s : State) (k : Result) : require e true s k = k := rfl

@[simp] theorem require_false (e : Err) (s : State) (k : Result) : require e false s k = failed e s := rfl

/-- A check that answers a next state either held and went on, or failed and raised its error. -/
theorem require_next {e : Err} {ok : Bool} {s t : State} {k : Result} (h : require e ok s k = .next t) :
    (ok = true ∧ k = .next t) ∨ (ok = false ∧ t = raise e s) := by
  cases ok with
  | true => exact .inl ⟨rfl, h⟩
  | false => exact .inr ⟨rfl, (failed_eq_next.mp h).symm⟩

/-- A check refuses only where what follows it refuses. -/
theorem require_refused {e : Err} {ok : Bool} {s : State} {k : Result} {r : Refusal} (h : require e ok s k = .refused r) :
    ok = true ∧ k = .refused r := by
  cases ok with
  | true => exact ⟨rfl, h⟩
  | false => simp [failed] at h

/-- A selector names a hash variant exactly when it is 0 or 1 (R47). -/
theorem variantOf_none {sel : BitVec 8} : variantOf sel = none ↔ 1 < sel.toNat := by revert sel; decide

/-- A selector names a key size exactly when it is 0, 1 or 2 (R47). -/
theorem keyLenOf_none {sel : BitVec 8} : keyLenOf sel = none ↔ 2 < sel.toNat := by revert sel; decide

/-- A selector names a swap bit exactly when it is 0 or 1 (R47). -/
theorem swapBitOf_none {sel : BitVec 8} : swapBitOf sel = none ↔ 1 < sel.toNat := by revert sel; decide

/-- A selector names a constant exactly when it is 0 to 3 (R47). -/
theorem constOf_none {sel : BitVec 8} : constOf sel = none ↔ 3 < sel.toNat := by revert sel; decide

/-- A selected variant goes on; a selector without a variant raises `InvalidSelector`. -/
theorem withVariant_cases (sel : BitVec 8) (s : State) (k : Variant → Result) :
    (1 < sel.toNat ∧ withVariant sel s k = failed .invalidSelector s) ∨
      ∃ v, variantOf sel = some v ∧ withVariant sel s k = k v := by
  unfold withVariant
  cases h : variantOf sel with
  | none => exact .inl ⟨variantOf_none.mp h, rfl⟩
  | some v => exact .inr ⟨v, rfl, rfl⟩

/-- A command inside its domain goes on, one outside it is refused (R116). -/
theorem ifInDomain_next {ok : Bool} {k : Result} {t : State} (h : ifInDomain ok k = .next t) : ok = true ∧ k = .next t := by
  cases ok with
  | true => exact ⟨rfl, h⟩
  | false => simp [ifInDomain] at h

/-- A single-block command that answers a next state: no key, a wrong length, or it went on (R164). -/
theorem withBlock_next {b : Bytes} {s t : State} {k : Result} (h : withBlock b s k = .next t) :
    (s.ciph.keyed = false ∧ t = raise .notConfigured s) ∨
      (s.ciph.keyed = true ∧ b.length ≠ 16 ∧ t = raise .invalidInputLength s) ∨
        (s.ciph.keyed = true ∧ b.length = 16 ∧ k = .next t) := by
  rcases require_next h with ⟨hk, h'⟩ | ⟨hk, ht⟩
  · rcases require_next h' with ⟨hl, h''⟩ | ⟨hl, ht⟩
    · exact .inr (.inr ⟨hk, by simpa using hl, h''⟩)
    · exact .inr (.inl ⟨hk, by simpa using hl, ht⟩)
  · exact .inl ⟨hk, ht⟩

/-- A ladder command that answers a next state: a wrong length, or it went on (R167). -/
theorem withScalar_next {n : Nat} {a b : Bytes} {s t : State} {k : Result} (h : withScalar n a b s k = .next t) :
    (a.length = n ∧ b.length = 32 ∧ k = .next t) ∨
      (¬(a.length = n ∧ b.length = 32) ∧ t = raise .invalidInputLength s) := by
  rcases require_next h with ⟨hl, h'⟩ | ⟨hl, ht⟩
  · have := of_decide_eq_true hl
    exact .inl ⟨this.1, this.2, h'⟩
  · exact .inr ⟨of_decide_eq_false hl, ht⟩

/-- Writing a field register as a whole command. -/
theorem writeFe_next {rd : FReg} {e : Fe} {s t : State} (h : writeFe rd e s = .next t) :
    t = respond [] (setF rd e.toElem s) := (done_eq_next.mp h).symm

/-- What taking the host's next action gives: idle, a reset, a malformed command, or a command to run (R161, R177, R180). -/
theorem fetch_cases (s : State) :
    (s.inputs = [] ∧ fetch s = (none, s)) ∨
      (∃ rest, s.inputs = .reset :: rest ∧ fetch s = (none, resetState { s with inputs := rest })) ∨
      (∃ c rest e, s.inputs = .command c :: rest ∧ decode c = .error e ∧
        fetch s = (none, raise .illegalCommand { s with inputs := rest })) ∨
      ∃ c rest i, s.inputs = .command c :: rest ∧ decode c = .ok i ∧ fetch s = (some i, { s with inputs := rest }) := by
  unfold fetch
  cases hi : s.inputs with
  | nil => exact .inl ⟨rfl, rfl⟩
  | cons a rest =>
    cases a with
    | reset => exact .inr (.inl ⟨rest, rfl, rfl⟩)
    | command c =>
      cases hd : decode c with
      | error e => exact .inr (.inr (.inl ⟨c, rest, e, rfl, hd, by simp [hd]⟩))
      | ok i => exact .inr (.inr (.inr ⟨c, rest, i, rfl, hd, by simp [hd]⟩))

end Sys2Proof.Machine
end

