-- ==== Sys2Proof/Laws/PerInstr.lean ====
section
/-! SUPPORT. For every command: its encoding lies in a row of R48, by that row's mask and match, and carries the row's number
of operand strings. -/

namespace Sys2Proof.Laws.TableMatch

/-- The encoding of `i` is selected by a row of R48 and has that row's number of `DIN` strings. -/
def Statement (i : Instr) : Prop :=
  ∃ r ∈ rows, (encode i).word &&& r.mask = r.matchWord ∧ (encode i).din.length = r.din

/-- The mask of a row that uses no field (R48). -/
theorem mask_plain (opc : BitVec 8) (din : List Bytes) :
    (enc opc din).word &&& 0xFFFFFFFF#32 = opc.setWidth 32 <<< 24 := by
  apply BitVec.eq_of_getLsbD_eq
  intro i hi
  interval_cases i <;> simp [enc, wordOf]

/-- The mask of a row that uses sel (R48). -/
theorem mask_sel (opc : BitVec 8) (din : List Bytes) (sel : BitVec 8) :
    (enc opc din (sel := sel)).word &&& 0xFFFFFF00#32 = opc.setWidth 32 <<< 24 := by
  apply BitVec.eq_of_getLsbD_eq
  intro i hi
  interval_cases i <;> simp [enc, wordOf]

/-- The mask of a row that uses rd (R48). -/
theorem mask_rd (opc : BitVec 8) (din : List Bytes) (rd : FReg) :
    (enc opc din (rd := rd)).word &&& 0xFF0FFFFF#32 = opc.setWidth 32 <<< 24 := by
  apply BitVec.eq_of_getLsbD_eq
  intro i hi
  interval_cases i <;> simp [enc, wordOf]

/-- The mask of a row that uses ra (R48). -/
theorem mask_ra (opc : BitVec 8) (din : List Bytes) (ra : FReg) :
    (enc opc din (ra := ra)).word &&& 0xFFF0FFFF#32 = opc.setWidth 32 <<< 24 := by
  apply BitVec.eq_of_getLsbD_eq
  intro i hi
  interval_cases i <;> simp [enc, wordOf]

/-- The mask of a row that uses rd, ra, rb (R48). -/
theorem mask_rdRaRb (opc : BitVec 8) (din : List Bytes) (rd : FReg) (ra : FReg) (rb : FReg) :
    (enc opc din (rd := rd) (ra := ra) (rb := rb)).word &&& 0xFF000FFF#32 = opc.setWidth 32 <<< 24 := by
  apply BitVec.eq_of_getLsbD_eq
  intro i hi
  interval_cases i <;> simp [enc, wordOf]

/-- The mask of a row that uses rd, ra (R48). -/
theorem mask_rdRa (opc : BitVec 8) (din : List Bytes) (rd : FReg) (ra : FReg) :
    (enc opc din (rd := rd) (ra := ra)).word &&& 0xFF00FFFF#32 = opc.setWidth 32 <<< 24 := by
  apply BitVec.eq_of_getLsbD_eq
  intro i hi
  interval_cases i <;> simp [enc, wordOf]

/-- The mask of a row that uses ra, rb, sel (R48). -/
theorem mask_raRbSel (opc : BitVec 8) (din : List Bytes) (ra : FReg) (rb : FReg) (sel : BitVec 8) :
    (enc opc din (ra := ra) (rb := rb) (sel := sel)).word &&& 0xFFF00F00#32 = opc.setWidth 32 <<< 24 := by
  apply BitVec.eq_of_getLsbD_eq
  intro i hi
  interval_cases i <;> simp [enc, wordOf]

/-- The mask of a row that uses rd, sel (R48). -/
theorem mask_rdSel (opc : BitVec 8) (din : List Bytes) (rd : FReg) (sel : BitVec 8) :
    (enc opc din (rd := rd) (sel := sel)).word &&& 0xFF0FFF00#32 = opc.setWidth 32 <<< 24 := by
  apply BitVec.eq_of_getLsbD_eq
  intro i hi
  interval_cases i <;> simp [enc, wordOf]

theorem nop : Statement (.nop) :=
  ⟨rows[0], List.getElem_mem _, mask_plain _ _, rfl⟩

theorem rdStatus : Statement (.rdStatus) :=
  ⟨rows[1], List.getElem_mem _, mask_plain _ _, rfl⟩

theorem softReset : Statement (.softReset) :=
  ⟨rows[2], List.getElem_mem _, mask_plain _ _, rfl⟩

theorem hashInit (sel : BitVec 8) : Statement (.hashInit sel) :=
  ⟨rows[3], List.getElem_mem _, mask_sel _ _ sel, rfl⟩

theorem hashUpdate (sel : BitVec 8) (data : Bytes) : Statement (.hashUpdate sel data) :=
  ⟨rows[4], List.getElem_mem _, mask_sel _ _ sel, rfl⟩

theorem hashFinal (sel : BitVec 8) : Statement (.hashFinal sel) :=
  ⟨rows[5], List.getElem_mem _, mask_sel _ _ sel, rfl⟩

theorem hashDigest (sel : BitVec 8) (message : Bytes) : Statement (.hashDigest sel message) :=
  ⟨rows[6], List.getElem_mem _, mask_sel _ _ sel, rfl⟩

theorem hmacConfig (sel : BitVec 8) : Statement (.hmacConfig sel) :=
  ⟨rows[7], List.getElem_mem _, mask_sel _ _ sel, rfl⟩

theorem hmacDigest (key : Bytes) (message : Bytes) : Statement (.hmacDigest key message) :=
  ⟨rows[8], List.getElem_mem _, mask_plain _ _, rfl⟩

theorem hmacRead : Statement (.hmacRead) :=
  ⟨rows[9], List.getElem_mem _, mask_plain _ _, rfl⟩

theorem aesKeyexp (sel : BitVec 8) (key : Bytes) : Statement (.aesKeyexp sel key) :=
  ⟨rows[10], List.getElem_mem _, mask_sel _ _ sel, rfl⟩

theorem aesCipher (block : Bytes) : Statement (.aesCipher block) :=
  ⟨rows[11], List.getElem_mem _, mask_plain _ _, rfl⟩

theorem aesInvcipher (block : Bytes) : Statement (.aesInvcipher block) :=
  ⟨rows[12], List.getElem_mem _, mask_plain _ _, rfl⟩

theorem cbcEncrypt (plaintext : Bytes) : Statement (.cbcEncrypt plaintext) :=
  ⟨rows[13], List.getElem_mem _, mask_plain _ _, rfl⟩

theorem cbcDecrypt (ciphertext : Bytes) : Statement (.cbcDecrypt ciphertext) :=
  ⟨rows[14], List.getElem_mem _, mask_plain _ _, rfl⟩

theorem feUnpack (rd : FReg) (bytes : Bytes) : Statement (.feUnpack rd bytes) :=
  ⟨rows[15], List.getElem_mem _, mask_rd _ _ rd, rfl⟩

theorem fePack (ra : FReg) : Statement (.fePack ra) :=
  ⟨rows[16], List.getElem_mem _, mask_ra _ _ ra, rfl⟩

theorem feAdd (rd : FReg) (ra : FReg) (rb : FReg) : Statement (.feAdd rd ra rb) :=
  ⟨rows[17], List.getElem_mem _, mask_rdRaRb _ _ rd ra rb, rfl⟩

theorem feSub (rd : FReg) (ra : FReg) (rb : FReg) : Statement (.feSub rd ra rb) :=
  ⟨rows[18], List.getElem_mem _, mask_rdRaRb _ _ rd ra rb, rfl⟩

theorem feMul (rd : FReg) (ra : FReg) (rb : FReg) : Statement (.feMul rd ra rb) :=
  ⟨rows[19], List.getElem_mem _, mask_rdRaRb _ _ rd ra rb, rfl⟩

theorem feSqr (rd : FReg) (ra : FReg) : Statement (.feSqr rd ra) :=
  ⟨rows[20], List.getElem_mem _, mask_rdRa _ _ rd ra, rfl⟩

theorem feCarry (rd : FReg) (ra : FReg) : Statement (.feCarry rd ra) :=
  ⟨rows[21], List.getElem_mem _, mask_rdRa _ _ rd ra, rfl⟩

theorem feCswap (ra : FReg) (rb : FReg) (sel : BitVec 8) : Statement (.feCswap ra rb sel) :=
  ⟨rows[22], List.getElem_mem _, mask_raRbSel _ _ ra rb sel, rfl⟩

theorem feInv (rd : FReg) (ra : FReg) : Statement (.feInv rd ra) :=
  ⟨rows[23], List.getElem_mem _, mask_rdRa _ _ rd ra, rfl⟩

theorem feConst (rd : FReg) (sel : BitVec 8) : Statement (.feConst rd sel) :=
  ⟨rows[24], List.getElem_mem _, mask_rdSel _ _ rd sel, rfl⟩

theorem feMov (rd : FReg) (ra : FReg) : Statement (.feMov rd ra) :=
  ⟨rows[25], List.getElem_mem _, mask_rdRa _ _ rd ra, rfl⟩

theorem x25519 (scalar : Bytes) (point : Bytes) : Statement (.x25519 scalar point) :=
  ⟨rows[26], List.getElem_mem _, mask_plain _ _, rfl⟩

theorem x25519_64 (scalar : Bytes) (point : Bytes) : Statement (.x25519_64 scalar point) :=
  ⟨rows[27], List.getElem_mem _, mask_plain _ _, rfl⟩

theorem kxKeygen : Statement (.kxKeygen) :=
  ⟨rows[28], List.getElem_mem _, mask_plain _ _, rfl⟩

theorem kxShared (peer : Bytes) : Statement (.kxShared peer) :=
  ⟨rows[29], List.getElem_mem _, mask_plain _ _, rfl⟩

end Sys2Proof.Laws.TableMatch
end

