-- ==== Sys2Proof/Machine/Assembly.lean ====
section
/-! DEFINITION. The assembler syntax (R51) and the pseudo-instructions (R52): what a line of text stands for. The machine
does not use it. What R51 leaves open of the syntax is DESIGN CHOICE (assumption 21), marked where it is settled. -/

namespace Sys2Proof.Machine

/-- The six abbreviations of R52. -/
inductive Pseudo where
  | sha256 (m : Bytes)
  | sha512 (m : Bytes)
  | feZero (rd : FReg)
  | feOne (rd : FReg)
  | feNorm (rd : FReg)
  | x25519Base (k : Bytes)
  deriving DecidableEq, Repr

/-- What each abbreviation expands to (R52). -/
def expand : Pseudo → List Instr
  | .sha256 m => [.hashDigest 0#8 m]
  | .sha512 m => [.hashDigest 1#8 m]
  | .feZero rd => [.feConst rd 0#8]
  | .feOne rd => [.feConst rd 1#8]
  | .feNorm rd => [.feCarry rd rd, .feCarry rd rd]
  | .x25519Base k => [.x25519 k basePoint]

/-- An operand of a line: a register or selector as written, or the bytes of a literal. -/
inductive Operand where
  | name (s : List Char)
  | bytes (b : Bytes)
  deriving DecidableEq, Repr

/-- A piece of a line. -/
inductive Token where
  | operand (o : Operand)
  | comma
  deriving DecidableEq, Repr

/-- Where the reading of a line stands; what a piece has gathered so far is held latest first. -/
inductive LexMode where
  | between
  | inName (acc : List Char)
  | inHex (acc : Bytes)
  | halfHex (acc : Bytes) (high : Nat)
  | inText (acc : Bytes)
  deriving DecidableEq, Repr

/-- The value of a hexadecimal digit; either case, which R51 leaves open: DESIGN CHOICE (assumption 21). -/
def hexDigit (c : Char) : Option Nat :=
  let n := c.toNat
  if 48 ≤ n ∧ n ≤ 57 then some (n - 48)
  else if 97 ≤ n ∧ n ≤ 102 then some (n - 87)
  else if 65 ≤ n ∧ n ≤ 70 then some (n - 55)
  else none

/-- The number a run of digits writes. R51 names no radix and no rule on leading zeros: decimal only, any leading zeros (`007`
is 7). DESIGN CHOICE (assumption 21). -/
def decimal (s : List Char) : Option Nat :=
  if s = [] then none
  else s.foldl (fun acc c => acc.bind fun n => if 48 ≤ c.toNat ∧ c.toNat ≤ 57 then some (10 * n + (c.toNat - 48)) else none)
    (some 0)

/-- A name that has ended, put before the pieces that follow it. -/
def endName (acc : List Char) (rest : Option (List Token)) : Option (List Token) :=
  rest.map fun ts => .operand (.name acc.reverse) :: ts

/-- A literal that has ended, put before the pieces that follow it. -/
def endBytes (acc : Bytes) (rest : Option (List Token)) : Option (List Token) :=
  rest.map fun ts => .operand (.bytes acc.reverse) :: ts

/-- The pieces of a line: names, commas, `x"…"` and `"…"` literals; `#` starts a comment (R51). R51 leaves open, DESIGN CHOICE
(assumption 21): inside an ASCII literal there is no escape (the next quote ends it), `#` and the comma are bytes, and every other
character of a code below 128 is its byte too, control characters among them, while a code of 128 or more makes the line no
line; outside a literal `#` starts a comment wherever it stands, and spaces and tabs alone are blanks. -/
def lex : LexMode → List Char → Option (List Token)
  | .between, [] => some []
  | .inName acc, [] => endName acc (some [])
  | .inHex _, [] | .halfHex _ _, [] | .inText _, [] => none
  | .between, c :: cs =>
    if c = '#' then some []
    else if c = ' ' ∨ c = '\t' then lex .between cs
    else if c = ',' then (lex .between cs).map fun ts => .comma :: ts
    else if c = '"' then lex (.inText []) cs
    else lex (.inName [c]) cs
  | .inName acc, c :: cs =>
    if c = '#' then endName acc (some [])
    else if c = ' ' ∨ c = '\t' then endName acc (lex .between cs)
    else if c = ',' then endName acc ((lex .between cs).map fun ts => .comma :: ts)
    else if c = '"' then (if acc = ['x'] then lex (.inHex []) cs else none)
    else lex (.inName (c :: acc)) cs
  | .inHex acc, c :: cs =>
    if c = '"' then endBytes acc (lex .between cs)
    else match hexDigit c with
      | none => none
      | some d => lex (.halfHex acc d) cs
  | .halfHex acc high, c :: cs =>
    match hexDigit c with
    | none => none
    | some d => lex (.inHex (BitVec.ofNat 8 (16 * high + d) :: acc)) cs
  | .inText acc, c :: cs =>
    if c = '"' then endBytes acc (lex .between cs)
    else if c.toNat < 128 then lex (.inText (BitVec.ofNat 8 c.toNat :: acc)) cs
    else none

/-- The operands of a line: pieces with a comma between each two (R51). -/
def operandsOf : List Token → Option (List Operand)
  | [] => some []
  | [.operand o] => some [o]
  | .operand o :: .comma :: t :: ts => (operandsOf (t :: ts)).map fun os => o :: os
  | _ => none

/-- `f0` to `f15` (R51), the number as `decimal` reads it (assumption 21). -/
def regOf : Operand → Option FReg
  | .name ('f' :: ds) => (decimal ds).bind fun n => if h : n < 16 then some ⟨n, h⟩ else none
  | _ => none

/-- A byte-string operand. -/
def bytesOf : Operand → Option Bytes
  | .bytes b => some b
  | .name _ => none

/-- A selector: one of the names given, which stand for 0, 1, … in order, or a number (R51). The number may be
any below 256, legal or not: DESIGN CHOICE (assumption 21). -/
def selOf (names : List String) : Operand → Option (BitVec 8)
  | .bytes _ => none
  | .name s =>
    match names.findIdx? (fun n => n.toList = s) with
    | some i => some (BitVec.ofNat 8 i)
    | none => (decimal s).bind fun n => if n < 256 then some (BitVec.ofNat 8 n) else none

/-- The names of the hash variants (R51). -/
def variantNames : List String := ["s32", "s64"]

/-- The names of the key sizes (R51). -/
def sizeNames : List String := ["k128", "k192", "k256"]

/-- The names of the constants (R51). -/
def constNames : List String := ["zero", "one", "a24", "nine"]

/-- A line whose operands are `rd, ra, rb` (R51). -/
def three (mk : FReg → FReg → FReg → Instr) : List Operand → Option (List Instr)
  | [d, a, b] => do return [mk (← regOf d) (← regOf a) (← regOf b)]
  | _ => none

/-- A line whose operands are `rd, ra` (R51). -/
def two (mk : FReg → FReg → Instr) : List Operand → Option (List Instr)
  | [d, a] => do return [mk (← regOf d) (← regOf a)]
  | _ => none

/-- A line whose one operand is a register. -/
def oneReg (mk : FReg → List Instr) : List Operand → Option (List Instr)
  | [r] => (regOf r).map mk
  | _ => none

/-- A line whose one operand is a byte string. -/
def oneString (mk : Bytes → List Instr) : List Operand → Option (List Instr)
  | [m] => (bytesOf m).map mk
  | _ => none

/-- A line whose operands are two byte strings. -/
def twoStrings (mk : Bytes → Bytes → Instr) : List Operand → Option (List Instr)
  | [a, b] => do return [mk (← bytesOf a) (← bytesOf b)]
  | _ => none

/-- A line whose one operand is a hash variant. -/
def variantOnly (mk : BitVec 8 → Instr) : List Operand → Option (List Instr)
  | [v] => (selOf variantNames v).map fun sel => [mk sel]
  | _ => none

/-- A line whose operands are a selector and a byte string. -/
def selString (names : List String) (mk : BitVec 8 → Bytes → Instr) : List Operand → Option (List Instr)
  | [v, m] => do return [mk (← selOf names v) (← bytesOf m)]
  | _ => none

/-- A line without operands. -/
def noOperand (i : Instr) : List Operand → Option (List Instr)
  | [] => some [i]
  | _ => none

/-- The mnemonics of R51 (R48 in lower case, the first `_` written `.`) and of R52, with how each reads its operands. -/
def mnemonics : List (String × (List Operand → Option (List Instr))) :=
  [ ("nop", noOperand .nop), ("rd.status", noOperand .rdStatus), ("soft.reset", noOperand .softReset),
    ("hash.init", variantOnly .hashInit), ("hash.update", selString variantNames .hashUpdate),
    ("hash.final", variantOnly .hashFinal), ("hash.digest", selString variantNames .hashDigest),
    ("hmac.config", variantOnly .hmacConfig), ("hmac.digest", twoStrings .hmacDigest), ("hmac.read", noOperand .hmacRead),
    ("aes.keyexp", selString sizeNames .aesKeyexp), ("aes.cipher", oneString fun b => [.aesCipher b]),
    ("aes.invcipher", oneString fun b => [.aesInvcipher b]), ("cbc.encrypt", oneString fun b => [.cbcEncrypt b]),
    ("cbc.decrypt", oneString fun b => [.cbcDecrypt b]),
    ("fe.unpack", fun os => match os with
      | [d, b] => do return [.feUnpack (← regOf d) (← bytesOf b)]
      | _ => none),
    ("fe.pack", oneReg fun r => [.fePack r]), ("fe.add", three .feAdd), ("fe.sub", three .feSub), ("fe.mul", three .feMul),
    ("fe.sqr", two .feSqr), ("fe.carry", two .feCarry),
    ("fe.cswap", fun os => match os with
      | [a, b, v] => do return [.feCswap (← regOf a) (← regOf b) (← selOf [] v)]
      | _ => none),
    ("fe.inv", two .feInv),
    ("fe.const", fun os => match os with
      | [d, v] => do return [.feConst (← regOf d) (← selOf constNames v)]
      | _ => none),
    ("fe.mov", two .feMov), ("x25519", twoStrings .x25519), ("x25519.64", twoStrings .x25519_64),
    ("kx.keygen", noOperand .kxKeygen), ("kx.shared", oneString fun b => [.kxShared b]),
    ("sha256", oneString fun m => expand (.sha256 m)), ("sha512", oneString fun m => expand (.sha512 m)),
    ("fe.zero", oneReg fun r => expand (.feZero r)), ("fe.one", oneReg fun r => expand (.feOne r)),
    ("fe.norm", oneReg fun r => expand (.feNorm r)), ("x25519.base", oneString fun k => expand (.x25519Base k)) ]

/-- The commands a line of text stands for (R51, R52): none where it is no line of the syntax; an empty or comment line is
no command: DESIGN CHOICE (assumption 21). -/
def assemble (line : List Char) : Option (List Instr) :=
  match lex .between line with
  | none => none
  | some [] => some []
  | some (.operand (.name m) :: ts) =>
    match mnemonics.find? (fun p => p.1.toList = m), operandsOf ts with
    | some p, some os => p.2 os
    | _, _ => none
  | some _ => none

end Sys2Proof.Machine
end

