-- ==== Sys2Proof/Tests/Slice0.lean ====
section
/-! SUPPORT. Tests. Every expected value comes from spec/: 95_test_vectors.md (V1 and so on, P1 to P6), the examples of the
rules, or the tables; and the witnesses of the obligations' hypotheses. -/

namespace Sys2Proof.Tests

open Sys2Proof.Machine

set_option Elab.async false

/-! ### Helpers -/

/-- What the host sees of a result. -/
def respOf (r : Result) : Option Response :=
  match r with
  | .next t => t.resp
  | .fault _ | .refused _ => none

/-- One view of the state a result leaves. -/
def view {α : Type} (f : State → α) (r : Result) : Option α :=
  match r with
  | .next t => some (f t)
  | .fault _ | .refused _ => none

/-- The refusal a result is, if it is one. -/
def refusalOf (r : Result) : Option Refusal :=
  match r with
  | .refused x => some x
  | .next _ | .fault _ => none

/-- `OK` with a result string. -/
def ok (d : Bytes) : Option Response := some ⟨0#4, d⟩

/-- An error response. -/
def err (code : BitVec 4) : Option Response := some ⟨code, []⟩

/-- The reset state with a command waiting. -/
def given (w : BitVec 32) (din : List Bytes) : State := placeCommand ⟨w, din⟩ State.reset

/-- An element of given low limbs, the others zero. -/
def elemOf (low : List Int) : Elem := Fe.toElem (low ++ List.replicate (16 - low.length) 0)

/-- The reset state with `F[0]` and `F[1]` as given. -/
def fields (a b : List Int) : State := setF 1 (elemOf b) (setF 0 (elemOf a) State.reset)

/-- The limbs a result leaves in a field register. -/
def limbsOf (i : FReg) (r : Result) : Option Fe := view (fun t => feOf t i) r

/-- The reset state with a cipher key of zeros held. -/
def keyedState : State := setKey .four (keySchedule .four (zeros 16)) State.reset

/-- The reset state with the HMAC unit configured. -/
def hmacState (v : Variant) : State := setHmacConfig v State.reset

/-- The reset state with a key pair held. -/
def pairState : State := setPriv (Vector.replicate 32 7#8) State.reset

/-! ### WellFormed: one ill-formed command for each check -/

theorem test_wf_hashInit : (Instr.hashInit 1).wf = true ∧ (Instr.hashInit 2).wf = false := by decide
theorem test_wf_hashUpdate : (Instr.hashUpdate 0 []).wf = true ∧ (Instr.hashUpdate 2 []).wf = false := by decide
theorem test_wf_hashFinal : (Instr.hashFinal 0).wf = true ∧ (Instr.hashFinal 255).wf = false := by decide
theorem test_wf_hashDigest : (Instr.hashDigest 1 []).wf = true ∧ (Instr.hashDigest 2 []).wf = false := by decide
theorem test_wf_hmacConfig : (Instr.hmacConfig 1).wf = true ∧ (Instr.hmacConfig 2).wf = false := by decide
theorem test_wf_feCswap : (Instr.feCswap 0 1 1).wf = true ∧ (Instr.feCswap 0 1 2).wf = false := by decide
theorem test_wf_feConst : (Instr.feConst 0 3).wf = true ∧ (Instr.feConst 0 4).wf = false := by decide
theorem test_wf_aesKeyexp_sel : (Instr.aesKeyexp 2 (zeros 32)).wf = true ∧ (Instr.aesKeyexp 3 (zeros 40)).wf = false := by
  decide
theorem test_wf_aesKeyexp_length :
    (Instr.aesKeyexp 1 (zeros 24)).wf = true ∧ (Instr.aesKeyexp 1 (zeros 16)).wf = false := by decide
theorem test_wf_aesCipher : (Instr.aesCipher (zeros 16)).wf = true ∧ (Instr.aesCipher (zeros 15)).wf = false := by decide
theorem test_wf_aesInvcipher : (Instr.aesInvcipher (zeros 16)).wf = true ∧ (Instr.aesInvcipher (zeros 17)).wf = false := by
  decide
theorem test_wf_cbcDecrypt : (Instr.cbcDecrypt (zeros 32)).wf = true ∧ (Instr.cbcDecrypt (zeros 17)).wf = false := by decide
theorem test_wf_feUnpack : (Instr.feUnpack 0 (zeros 32)).wf = true ∧ (Instr.feUnpack 0 (zeros 31)).wf = false := by decide
theorem test_wf_x25519 : (Instr.x25519 (zeros 32) (zeros 32)).wf = true ∧ (Instr.x25519 (zeros 31) (zeros 32)).wf = false := by
  decide
theorem test_wf_x25519_64 :
    (Instr.x25519_64 (zeros 64) (zeros 32)).wf = true ∧ (Instr.x25519_64 (zeros 32) (zeros 32)).wf = false := by decide
theorem test_wf_kxShared : (Instr.kxShared (zeros 32)).wf = true ∧ (Instr.kxShared []).wf = false := by decide

/-! ### Decoding: words written out from R45, R48 and R51 -/

/-- Rows of spec/opcode_table.json, part 1: mnemonic, match, mask, operand strings. -/
def table1 : List (String × BitVec 32 × BitVec 32 × Nat) :=
  [ ("NOP", 0x00000000#32, 0xFFFFFFFF#32, 0),
    ("RD_STATUS", 0x01000000#32, 0xFFFFFFFF#32, 0),
    ("SOFT_RESET", 0x02000000#32, 0xFFFFFFFF#32, 0),
    ("HASH_INIT", 0x10000000#32, 0xFFFFFF00#32, 0),
    ("HASH_UPDATE", 0x11000000#32, 0xFFFFFF00#32, 1),
    ("HASH_FINAL", 0x12000000#32, 0xFFFFFF00#32, 0),
    ("HASH_DIGEST", 0x13000000#32, 0xFFFFFF00#32, 1),
    ("HMAC_CONFIG", 0x20000000#32, 0xFFFFFF00#32, 0),
    ("HMAC_DIGEST", 0x21000000#32, 0xFFFFFFFF#32, 2),
    ("HMAC_READ", 0x22000000#32, 0xFFFFFFFF#32, 0) ]

/-- Rows of spec/opcode_table.json, part 2: mnemonic, match, mask, operand strings. -/
def table2 : List (String × BitVec 32 × BitVec 32 × Nat) :=
  [ ("AES_KEYEXP", 0x30000000#32, 0xFFFFFF00#32, 1),
    ("AES_CIPHER", 0x31000000#32, 0xFFFFFFFF#32, 1),
    ("AES_INVCIPHER", 0x32000000#32, 0xFFFFFFFF#32, 1),
    ("CBC_ENCRYPT", 0x40000000#32, 0xFFFFFFFF#32, 1),
    ("CBC_DECRYPT", 0x41000000#32, 0xFFFFFFFF#32, 1),
    ("FE_UNPACK", 0x50000000#32, 0xFF0FFFFF#32, 1),
    ("FE_PACK", 0x51000000#32, 0xFFF0FFFF#32, 0),
    ("FE_ADD", 0x52000000#32, 0xFF000FFF#32, 0),
    ("FE_SUB", 0x53000000#32, 0xFF000FFF#32, 0),
    ("FE_MUL", 0x54000000#32, 0xFF000FFF#32, 0) ]

/-- Rows of spec/opcode_table.json, part 3: mnemonic, match, mask, operand strings. -/
def table3 : List (String × BitVec 32 × BitVec 32 × Nat) :=
  [ ("FE_SQR", 0x55000000#32, 0xFF00FFFF#32, 0),
    ("FE_CARRY", 0x56000000#32, 0xFF00FFFF#32, 0),
    ("FE_CSWAP", 0x57000000#32, 0xFFF00F00#32, 0),
    ("FE_INV", 0x58000000#32, 0xFF00FFFF#32, 0),
    ("FE_CONST", 0x59000000#32, 0xFF0FFF00#32, 0),
    ("FE_MOV", 0x5A000000#32, 0xFF00FFFF#32, 0),
    ("X25519", 0x60000000#32, 0xFFFFFFFF#32, 2),
    ("X25519_64", 0x61000000#32, 0xFFFFFFFF#32, 2),
    ("KX_KEYGEN", 0x70000000#32, 0xFFFFFFFF#32, 0),
    ("KX_SHARED", 0x71000000#32, 0xFFFFFFFF#32, 1) ]

/-- The decoder's rows are the table's (R48). -/
theorem test_rows_are_the_table :
    rows.map (fun r => (r.mnemonic, r.matchWord, r.mask, r.din)) = table1 ++ table2 ++ table3 := by decide +kernel

theorem test_decode_nop : decode ⟨0x00000000#32, []⟩ = .ok (.nop) := rfl
theorem test_decode_rdStatus : decode ⟨0x01000000#32, []⟩ = .ok (.rdStatus) := rfl
theorem test_decode_softReset : decode ⟨0x02000000#32, []⟩ = .ok (.softReset) := rfl
theorem test_decode_hashInit : decode ⟨0x10000000#32, []⟩ = .ok (.hashInit 0) := rfl
theorem test_decode_hashUpdate : decode ⟨0x11000001#32, [[0x00, 0xff]]⟩ = .ok (.hashUpdate 1 [0x00, 0xff]) := rfl
theorem test_decode_hashFinal : decode ⟨0x12000001#32, []⟩ = .ok (.hashFinal 1) := rfl
theorem test_decode_hashDigest : decode ⟨0x13000000#32, [[0x61, 0x62, 0x63]]⟩ = .ok (.hashDigest 0 [0x61, 0x62, 0x63]) := rfl
theorem test_decode_hmacConfig : decode ⟨0x20000001#32, []⟩ = .ok (.hmacConfig 1) := rfl
theorem test_decode_hmacDigest : decode ⟨0x21000000#32, [[0x0b], [0x48, 0x69]]⟩ = .ok (.hmacDigest [0x0b] [0x48, 0x69]) := rfl
theorem test_decode_hmacRead : decode ⟨0x22000000#32, []⟩ = .ok (.hmacRead) := rfl
theorem test_decode_aesKeyexp : decode ⟨0x30000002#32, [[0x2b]]⟩ = .ok (.aesKeyexp 2 [0x2b]) := rfl
theorem test_decode_aesCipher : decode ⟨0x31000000#32, [[0x11]]⟩ = .ok (.aesCipher [0x11]) := rfl
theorem test_decode_aesInvcipher : decode ⟨0x32000000#32, [[0x11]]⟩ = .ok (.aesInvcipher [0x11]) := rfl
theorem test_decode_cbcEncrypt : decode ⟨0x40000000#32, [[0x6b]]⟩ = .ok (.cbcEncrypt [0x6b]) := rfl
theorem test_decode_cbcDecrypt : decode ⟨0x41000000#32, [[0x76]]⟩ = .ok (.cbcDecrypt [0x76]) := rfl
theorem test_decode_feUnpack : decode ⟨0x50600000#32, [[0xe6]]⟩ = .ok (.feUnpack 6 [0xe6]) := rfl
theorem test_decode_fePack : decode ⟨0x51030000#32, []⟩ = .ok (.fePack 3) := rfl
theorem test_decode_feAdd : decode ⟨0x52402000#32, []⟩ = .ok (.feAdd 4 0 2) := rfl
theorem test_decode_feSub : decode ⟨0x53235000#32, []⟩ = .ok (.feSub 2 3 5) := rfl
theorem test_decode_feMul : decode ⟨0x54316000#32, []⟩ = .ok (.feMul 3 1 6) := rfl
theorem test_decode_feSqr : decode ⟨0x55140000#32, []⟩ = .ok (.feSqr 1 4) := rfl
theorem test_decode_feCarry : decode ⟨0x56220000#32, []⟩ = .ok (.feCarry 2 2) := rfl
theorem test_decode_feCswap : decode ⟨0x57023001#32, []⟩ = .ok (.feCswap 2 3 1) := rfl
theorem test_decode_feInv : decode ⟨0x58320000#32, []⟩ = .ok (.feInv 3 2) := rfl
theorem test_decode_feConst : decode ⟨0x59100003#32, []⟩ = .ok (.feConst 1 3) := rfl
theorem test_decode_feMov : decode ⟨0x5A160000#32, []⟩ = .ok (.feMov 1 6) := rfl
theorem test_decode_x25519 : decode ⟨0x60000000#32, [[1], [2]]⟩ = .ok (.x25519 [1] [2]) := rfl
theorem test_decode_x25519_64 : decode ⟨0x61000000#32, [[1], [2]]⟩ = .ok (.x25519_64 [1] [2]) := rfl
theorem test_decode_kxKeygen : decode ⟨0x70000000#32, []⟩ = .ok (.kxKeygen) := rfl
theorem test_decode_kxShared : decode ⟨0x71000000#32, [[2]]⟩ = .ok (.kxShared [2]) := rfl

/-- R49 (a), 0x03000000 of 95_test_vectors.md 2.6. -/
theorem test_reject_opcode : decode ⟨0x03000000#32, []⟩ = .error .unassignedOpcode := rfl
/-- R49 (b), 0x54201100 of 2.4. -/
theorem test_reject_reserved : decode ⟨0x54201100#32, []⟩ = .error .reservedNonzero := rfl
/-- R49 (c), 0x51120000 of 2.4, 0x00000001 of 2.6, 0x71100000 of 2.5. -/
theorem test_reject_unused :
    decode ⟨0x51120000#32, []⟩ = .error .unusedNonzero ∧ decode ⟨0x00000001#32, []⟩ = .error .unusedNonzero
      ∧ decode ⟨0x71100000#32, [[]]⟩ = .error .unusedNonzero := ⟨rfl, rfl, rfl⟩
/-- R49 (d): `hmac.digest` with one operand (2.2), `nop` with one. -/
theorem test_reject_count :
    decode ⟨0x21000000#32, [[]]⟩ = .error .operandCount ∧ decode ⟨0x00000000#32, [[]]⟩ = .error .operandCount := ⟨rfl, rfl⟩

/-- The host's probe of a table word: operand strings of zeros of the right lengths (assumption 2). -/
theorem test_probe : decodeTableWord 32 0x61000000 = some (.x25519_64 (zeros 64) (zeros 32))
    ∧ decodeTableWord 32 0x03000000 = none := by decide +kernel

/-! ### The assembler (R51, R52) -/

theorem test_asm_feMul : assemble "fe.mul f2, f0, f1".toList = some [.feMul 2 0 1] := by decide +kernel
theorem test_asm_digest : assemble "hash.digest s32, \"abc\"  # R51".toList = some [.hashDigest 0 [0x61, 0x62, 0x63]] := by
  decide +kernel
theorem test_asm_update : assemble "hash.update s64, x\"00ff\"".toList = some [.hashUpdate 1 [0x00, 0xff]] := by decide +kernel
theorem test_asm_cswap : assemble "fe.cswap f4, f5, 1".toList = some [.feCswap 4 5 1] := by decide +kernel
theorem test_asm_const : assemble "fe.const f7, a24".toList = some [.feConst 7 2] := by decide +kernel
theorem test_asm_norm : assemble "fe.norm f2".toList = some [.feCarry 2 2, .feCarry 2 2] := by decide +kernel
theorem test_asm_sha512 : assemble "sha512 x\"\"".toList = some [.hashDigest 1 []] := by decide +kernel
theorem test_asm_bad : assemble "fe.mul f2, f16, f1".toList = none := by decide +kernel

/-! ### System commands and errors (95_test_vectors.md 2.6) -/

theorem test_nop : respOf (step (given 0x00000000 [])) = ok [] := by decide +kernel
theorem test_nop_sel : respOf (step (given 0x00000001 [])) = err 2 := by decide +kernel
/-- After `aes.cipher` before a key: 80 04 00 00 (R151). -/
theorem test_status_error :
    (view (fun t => respOf (exec .rdStatus t)) (exec (.aesCipher (zeros 16)) State.reset)) = some (ok [0x80, 0x04, 0, 0]) := by
  decide +kernel
/-- After `aes.keyexp k256`: 07 00 00 00 (R151). -/
theorem test_status_k256 :
    (view (fun t => respOf (exec .rdStatus t)) (exec (.aesKeyexp 2 (zeros 32)) State.reset)) = some (ok [0x07, 0, 0, 0]) := by
  decide +kernel
/-- A success does not clear `ERRS` (2.6, `hmac.read` after errors), `soft.reset` does. -/
theorem test_sticky :
    view (fun t => (t.errs, t.lasterr)) (exec .hmacRead (raise .invalidInputLength State.reset)) = some (true, 1#4)
      ∧ view (fun t => (t.errs, t.lasterr)) (exec .softReset (raise .invalidInputLength State.reset)) = some (false, 0#4) := by
  decide +kernel
/-- `soft.reset` clears a key pair and keeps what is outside CORE (R152). -/
theorem test_softReset : view (fun t => (t.kx.privv, t.drawn)) (exec .softReset { pairState with drawn := 3 }) = some (false, 3) := by
  decide +kernel
/-- `aes.keyexp` with sel = 3 and 5 bytes: the selector outranks the length (R164). -/
theorem test_order_keyexp : respOf (step (given 0x30000003 [zeros 5])) = err 3 := by decide +kernel
/-- `aes.cipher` with 15 bytes before any key: the configuration outranks the length (R164). -/
theorem test_order_cipher : respOf (step (given 0x31000000 [zeros 15])) = err 4 := by decide +kernel
/-- `kx.shared` with rd = 1 and no key pair: the word outranks the configuration (R164). -/
theorem test_order_shared : respOf (step (given 0x71100000 [zeros 32])) = err 2 := by decide +kernel
/-- An asserted reset, and an idle port (R177, R180). -/
theorem test_reset_input :
    view (fun t => (t.hmac.hcfg, t.inputs)) (step { hmacState .s32 with inputs := [.reset] }) = some (false, [])
      ∧ view (fun t => t.hmac.hcfg) (step (hmacState .s32)) = some true := by decide +kernel

/-! ### Hash (2.1) -/

/-- V10: one compression of the padded block of "abc". -/
theorem test_v10 : compress .s32 (h0 .s32) ([0x61, 0x62, 0x63, 0x80] ++ zeros 59 ++ [0x18]) =
    #v[0xba7816bf, 0x8f01cfea, 0x414140de, 0x5dae2223, 0xb00361a3, 0x96177a9c, 0xb410ff61, 0xf20015ad] := by decide +kernel
/-- V2. -/
theorem test_v2 : respOf (exec (.hashDigest 1 [0x61, 0x62, 0x63]) State.reset) =
    ok (beBytes 64 0xddaf35a193617abacc417349ae20413112e6fa4e89a97ea20a9eeee64b55d39a2192992a274fc1a836ba3c23a3feebbd454d4423643ce80e2a9ac94fa54ca49f) := by
  decide +kernel
/-- V4: `hash.final` right after reset is the digest of the empty message. -/
theorem test_v4 : respOf (exec (.hashFinal 0) State.reset) =
    ok (beBytes 32 0xe3b0c44298fc1c149afbf4c8996fb92427ae41e4649b934ca495991b7852b855) := by decide +kernel
/-- V7: 56 bytes force the additional padding block. -/
theorem test_v7 : respOf (exec (.hashDigest 0 (rep 0x61 56)) State.reset) =
    ok (beBytes 32 0xb35439a4ac6f0948b6d6f9e3c6af0f5f590ce20f1bde7090ef7970686ec6738a) := by decide +kernel
/-- R65's example: after `hash.update s32, "abc"`. -/
theorem test_hashUpdate : view (fun t => (t.s32.buf.readBytes 0 4, t.s32.fill.val, t.s32.len.toNat))
    (exec (.hashUpdate 0 [0x61, 0x62, 0x63]) State.reset) = some ([0x61, 0x62, 0x63, 0], 3, 24) := by decide +kernel
/-- A byte that completes a block leaves `FILL` = 0 and a zero buffer (R65). -/
theorem test_hashUpdate_full : view (fun t => (t.s32.buf, t.s32.fill.val, t.s32.len.toNat))
    (exec (.hashUpdate 0 (rep 0x61 64)) State.reset) = some ([], 0, 512) := by decide +kernel
/-- `hash.init s32` forgets a message (2.1). -/
theorem test_hashInit : view (fun t => (t.s32.fill.val, t.s32.buf))
    (exec (.hashInit 0) (setUnit .s32 (absorb (HashUnit.init .s32) [0x61]) State.reset)) = some (0, []) := by decide +kernel

/-! ### HMAC (2.2) -/

/-- V3. -/
theorem test_v3 : respOf (exec (.hmacDigest (rep 0x0b 20) [0x48, 0x69, 0x20, 0x54, 0x68, 0x65, 0x72, 0x65]) (hmacState .s32)) =
    ok (beBytes 32 0xb0344c61d8db38535ca8afceaf0bf12b881dc200c9833da726e9376c2e32cff7) := by decide +kernel
theorem test_hmacDigest_unconfigured : respOf (exec (.hmacDigest [0x6b] [0x6d]) State.reset) = err 4 := by decide +kernel
/-- `hmac.config s64`: `STATUS[4:3]` = 0b11 (R81). -/
theorem test_hmacConfig : view (fun t => (t.hmac.hcfg, t.hmac.hsel)) (exec (.hmacConfig 1) State.reset) = some (true, .s64) := by
  decide +kernel
/-- `hmac.read`: nothing when unconfigured, `HL` zero bytes before any digest (2.2). -/
theorem test_hmacRead : respOf (exec .hmacRead State.reset) = ok [] ∧ respOf (exec .hmacRead (hmacState .s32)) = ok (zeros 32) := by
  decide +kernel

/-! ### Cipher and CBC (2.3) -/

/-- V20: words 3, 4, 9, 10, 43 of the key schedule. -/
theorem test_v20 : view (fun t => (t.ciph.w.toList.getD 3 0, t.ciph.w.toList.getD 4 0, t.ciph.w.toList.getD 9 0,
      t.ciph.w.toList.getD 43 0, t.ciph.w.toList.getD 44 0))
    (exec (.aesKeyexp 0 (beBytes 16 0x2b7e151628aed2a6abf7158809cf4f3c)) State.reset) =
    some (0x09cf4f3c, 0xa0fafe17, 0x7a96b943, 0xb6630ca6, 0) := by decide +kernel
/-- V21, 192-bit and 256-bit keys: the last word. -/
theorem test_v21_words :
    (keySchedule .six (beBytes 24 0x000102030405060708090a0b0c0d0e0f1011121314151617)).toList.getD 51 0 = 0xe3a41d5d
      ∧ (keySchedule .eight (beBytes 32 0x000102030405060708090a0b0c0d0e0f101112131415161718191a1b1c1d1e1f)).toList.getD 59 0
        = 0x6d68de36 := by decide +kernel
/-- V21, first row, forward. -/
theorem test_v21_cipher :
    cipher (keySchedule .four (beBytes 16 0x000102030405060708090a0b0c0d0e0f)) 10 (beBytes 16 0x00112233445566778899aabbccddeeff)
      = beBytes 16 0x69c4e0d86a7b0430d8cdb78070b4c55a := by decide +kernel
/-- V21, third row, inverse. -/
theorem test_v21_invCipher :
    invCipher (keySchedule .eight (beBytes 32 0x000102030405060708090a0b0c0d0e0f101112131415161718191a1b1c1d1e1f)) 14
        (beBytes 16 0x8ea2b7ca516745bfeafc49904b496089) = beBytes 16 0x00112233445566778899aabbccddeeff := by decide +kernel
/-- V21, fourth row, as a command. -/
theorem test_aesCipher : respOf (exec (.aesCipher (zeros 16)) keyedState) = ok (beBytes 16 0x66e94bd4ef8a2c3b884cfa59ca342b2e) := by
  decide +kernel
theorem test_aesInvcipher : respOf (exec (.aesInvcipher (beBytes 16 0x66e94bd4ef8a2c3b884cfa59ca342b2e)) keyedState) = ok (zeros 16) := by
  decide +kernel
/-- V33, with the IV of the vectors: a short last block. -/
theorem test_v33 :
    cbcEncrypt (beBytes 16 0x000102030405060708090a0b0c0d0e0f) (keySchedule .four (beBytes 16 0x2b7e151628aed2a6abf7158809cf4f3c)) 10
        (beBytes 17 0x6bc1bee22e409f96e93d7e117393172aae)
      = beBytes 32 0x7649abac8119b246cee98e9b12e9197db8d266c62a614f00d7c901dc791ecea9 := by decide +kernel
/-- V32': the decryption of a zero-filled block. -/
theorem test_v32 :
    cbcDecrypt (beBytes 16 0x000102030405060708090a0b0c0d0e0f) (keySchedule .four (beBytes 16 0x2b7e151628aed2a6abf7158809cf4f3c)) 10
        (beBytes 16 0x9b23c121dffa1eb4cce25e1b98f7d3db)
      = [0x61, 0x62, 0x63] ++ zeros 13 := by decide +kernel
theorem test_cbcEncrypt_empty : respOf (exec (.cbcEncrypt []) keyedState) = ok [] := by decide +kernel
theorem test_cbcDecrypt_length : respOf (exec (.cbcDecrypt (zeros 17)) keyedState) = err 1 := by decide +kernel

/-! ### Field (2.4) -/

/-- V40: bit 255 dropped. -/
theorem test_v40 : limbsOf 3 (exec (.feUnpack 3 (rep 0xff 32)) State.reset) = some (List.replicate 15 65535 ++ [32767]) := by
  decide +kernel
theorem test_feUnpack_length : respOf (exec (.feUnpack 3 (zeros 31)) State.reset) = err 1 := by decide +kernel
/-- V41d. -/
theorem test_v41d : limbsOf 1 (exec (.feCarry 1 0) (fields [70000, -5] [])) = some (4426 :: 65532 :: List.replicate 14 65535) := by
  decide +kernel
/-- V41b: the wraparound multiplies by 38. -/
theorem test_v41b : Fe.carry (List.replicate 15 0 ++ [65536]) = 38 :: List.replicate 15 0 := by decide +kernel
/-- V42a. -/
theorem test_v42a : limbsOf 0 (exec (.feAdd 0 0 1) (fields [1, 2] [65535, 65535])) =
    some (65536 :: 65537 :: List.replicate 14 0) := by decide +kernel
/-- R116: a sum outside the 64-bit range is refused. -/
theorem test_feAdd_domain : refusalOf (exec (.feAdd 2 0 1) (fields [2 ^ 63 - 1] [1])) = some .limbOutOfDomain := by decide +kernel
/-- V42b. -/
theorem test_v42b : limbsOf 2 (exec (.feSub 2 0 1) (fields [3] [5])) = some (-2 :: List.replicate 15 0) := by decide +kernel
/-- V44a. -/
theorem test_v44a : limbsOf 5 (exec (.feMul 5 0 1) (fields [2] [3])) = some (6 :: List.replicate 15 0) := by decide +kernel
/-- V44d. -/
theorem test_v44d : Fe.mul (List.replicate 16 65535) (List.replicate 16 65535) = 1369 :: List.replicate 15 0 := by decide +kernel
/-- V44c. -/
theorem test_v44c : limbsOf 0 (exec (.feSqr 0 0) (fields [65535] [])) = some (1 :: 65534 :: List.replicate 14 0) := by
  decide +kernel
/-- V48: bit 1 exchanges; `fe.cswap f2, f2, 1` leaves the register. -/
theorem test_v48 : (limbsOf 0 (exec (.feCswap 0 1 1) (fields [1] [2])), limbsOf 0 (exec (.feCswap 0 0 1) (fields [1] [2])))
    = (some (2 :: List.replicate 15 0), some (1 :: List.replicate 15 0)) := by decide +kernel
theorem test_feCswap_sel : respOf (exec (.feCswap 0 1 2) State.reset) = err 3 := by decide +kernel
/-- V49. -/
theorem test_v49 : limbsOf 7 (exec (.feConst 7 2) State.reset) = some (56129 :: 1 :: List.replicate 14 0) := by decide +kernel
theorem test_feConst_sel : respOf (exec (.feConst 0 4) State.reset) = err 3 := by decide +kernel
theorem test_feMov : limbsOf 9 (exec (.feMov 9 0) (fields [70000, -5] [])) = some (70000 :: -5 :: List.replicate 14 0) := by
  decide +kernel
/-- R126: position 3 multiplies, positions 4 and 2 are skipped. -/
theorem test_invStep : (List.range 6).map (fun k => (invStep (elemOf [3]).toFe (elemOf [2]).toFe k).headD 0) = [12, 12, 4, 12, 4, 12] := by
  decide +kernel
/-- R126: the inverse of zero is no error. -/
theorem test_feInv : view (fun t => t.resp) (exec (.feInv 1 0) State.reset) = some (ok []) := by decide +kernel
/-- V43. -/
theorem test_v43 : respOf (exec (.fePack 0) (fields [-1] [])) = ok (0xec :: rep 0xff 30 ++ [0x7f]) := by decide +kernel
/-- V46 and V47: two rounds of subtraction; outside its domain the rule as written. -/
theorem test_v46_v47 : Fe.pack (List.replicate 16 65535) = 0x25 :: zeros 31
    ∧ Fe.pack (12 :: List.replicate 14 65535 ++ [65535 + 65536 * 3448]) = 0x02 :: zeros 31 := by decide +kernel

/-! ### Ladder and key exchange (2.5) -/

/-- `Clamp_32` and `Clamp_64` examples (2.5). -/
theorem test_clamp : clamp (rep 0xff 32) = 0xf8 :: rep 0xff 30 ++ [0x7f] ∧ clamp (zeros 32) = zeros 31 ++ [0x40]
    ∧ (clamp ((List.range 64).map (BitVec.ofNat 8))).getD 63 0 = 0x7f := by decide +kernel
/-- V50's first ladder step: a and c, packed. -/
theorem test_v50_step :
    (let l := ladderStep (Fe.unpack (beBytes 32 0xe6db6867583030db3594c1a424b15f7c726624ec26b3353b10a903a6d0ab1c4c)) true
      (ladderStart (Fe.unpack (beBytes 32 0xe6db6867583030db3594c1a424b15f7c726624ec26b3353b10a903a6d0ab1c4c)))
    (Fe.pack l.a, Fe.pack l.d)) =
    (beBytes 32 0xd11c8b27e2a9215d7fe6ff607d37640f100bb1b2d72e73dc7fcbd4b04df57925,
      beBytes 32 0x405ff5f6bdba9afc9e7dc4d33571b6eb0d94a0082285206ac2ff7780845cb625) := by decide +kernel
theorem test_x25519_length : respOf (exec (.x25519 (zeros 31) (zeros 32)) State.reset) = err 1 := by decide +kernel
theorem test_x25519_64_length : respOf (exec (.x25519_64 (zeros 32) (zeros 32)) State.reset) = err 1 := by decide +kernel
/-- V55b: the mode the model does not take. -/
theorem test_v55b : refusalOf (x25519Long .refuse (zeros 64) (zeros 32) State.reset) = some .ladder64Refused := by decide +kernel
/-- R146: the draw is kept as drawn, and consumed. -/
theorem test_kxKeygen : view (fun t => (t.kx.privv, t.kx.priv, t.rnd, t.drawn))
    (exec .kxKeygen { State.reset with rnd := [Vector.replicate 32 7#8] }) = some (true, Vector.replicate 32 7#8, [], 1) := by
  decide +kernel
theorem test_kxShared : respOf (exec (.kxShared (zeros 32)) State.reset) = err 4 := by decide +kernel
/-- With a key pair, 31 bytes are the wrong length and `PRIV` is kept (2.5). -/
theorem test_kxShared_length : view (fun t => (t.resp, t.kx.privv)) (exec (.kxShared (zeros 31)) pairState) = some (err 1, true) := by
  decide +kernel

/-! ### Witnesses: concrete states and operands that meet the obligations' hypotheses -/

/-- `EncodeInvertsDecode`. -/
theorem witness_EncodeInvertsDecode : decode ⟨0x54201000#32, []⟩ = .ok (.feMul 2 0 1) := rfl

/-- `MalformedCommands`, `ErrorOrder`: each of the four ways, and a word that is a command. -/
theorem witness_Malformed :
    (given 0x03000000 []).inputs = .command ⟨0x03000000, []⟩ :: [] ∧ Malformed ⟨0x03000000, []⟩
      ∧ Malformed ⟨0x54201100, []⟩ ∧ Malformed ⟨0x51120000, []⟩ ∧ Malformed ⟨0x00000000, [[]]⟩
      ∧ ¬Malformed ⟨0x00000000, []⟩ := by
  refine ⟨rfl, ?_, ?_, ?_, ?_, ?_⟩ <;> simp [Malformed, usesOf]

/-- `RowSelection`: a row and a word it selects. -/
theorem witness_RowSelection : ∃ r ∈ rows, (0x54201000#32 &&& r.mask) = r.matchWord :=
  ⟨rows[19], List.getElem_mem _, by decide⟩

/-- `StepRunsDecodedCommand`. -/
theorem witness_StepRunsDecodedCommand :
    (given 0x54201000 []).inputs = .command ⟨0x54201000, []⟩ :: [] ∧ decode ⟨0x54201000, []⟩ = .ok (.feMul 2 0 1)
      ∧ decodeTableWord 32 0x54201000 = some (.feMul 2 0 1) := ⟨rfl, rfl, by decide +kernel⟩

/-- `StepIdleAndReset`. -/
theorem witness_StepIdleAndReset :
    State.reset.inputs = [] ∧ { State.reset with inputs := [.reset] }.inputs = .reset :: [] := ⟨rfl, rfl⟩

/-- `ErrorOrder`: a command for each clause after decoding, the last with a next state. -/
theorem witness_ErrorOrder :
    (decode ⟨0x10000002, []⟩ = .ok (.hashInit 2) ∧ (Instr.hashInit 2).selLegal = false) ∧
    (decode ⟨0x31000000, [zeros 15]⟩ = .ok (.aesCipher (zeros 15)) ∧ (Instr.aesCipher (zeros 15)).selLegal = true
      ∧ needsConfig (.aesCipher (zeros 15)) State.reset = true) ∧
    (needsConfig (.aesKeyexp 1 (zeros 16)) State.reset = false ∧ (Instr.aesKeyexp 1 (zeros 16)).selLegal = true
      ∧ (Instr.aesKeyexp 1 (zeros 16)).lengthsLegal = false) ∧
    (needsConfig (.aesKeyexp 1 (zeros 24)) State.reset = false ∧ (Instr.aesKeyexp 1 (zeros 24)).selLegal = true
      ∧ (Instr.aesKeyexp 1 (zeros 24)).lengthsLegal = true ∧ ∃ t, step (given 0x00000000 []) = .next t) :=
  ⟨⟨rfl, by decide⟩, ⟨rfl, by decide, by decide⟩, ⟨by decide, by decide, by decide⟩,
    ⟨by decide, by decide, by decide, ⟨_, rfl⟩⟩⟩

/-- `FlagTable`, `WriteSets`: commands that complete, one that sets each flag, and one that fails. -/
theorem witness_FlagTable :
    (∃ t, exec (.aesKeyexp 0 (zeros 16)) State.reset = .next t) ∧ (∃ t, exec (.hmacConfig 1) State.reset = .next t) ∧
    (∃ t, exec .kxKeygen State.reset = .next t) ∧ (∃ t, exec .softReset pairState = .next t) ∧
    ∃ t, exec (.aesCipher []) State.reset = .next t ∧ t.resp = some ⟨4#4, []⟩ :=
  ⟨⟨_, rfl⟩, ⟨_, rfl⟩, ⟨_, rfl⟩, ⟨_, rfl⟩, ⟨_, rfl, rfl⟩⟩

/-- A unit one byte short of its length bound. -/
def fullState : State := { State.reset with s32 := { HashUnit.init .s32 with len := 0xfffffffffffffff8#64 } }

/-- `OnlyDomainRefusals`: a message that does not fit, and a limb that does not. -/
theorem witness_OnlyDomainRefusals :
    refusalOf (exec (.hashUpdate 0 [0]) fullState) = some .hashLengthOutOfDomain ∧
    refusalOf (exec (.feAdd 2 0 1) (fields [2 ^ 63 - 1] [1])) = some .limbOutOfDomain ∧
    leavesDomain (.feAdd 2 0 1) (fields [2 ^ 63 - 1] [1]) = true ∧
    leavesDomain (.feAdd 2 0 1) (fields [2 ^ 63 - 2] [1]) = false := by decide +kernel

/-- `ReadSets`: two states that differ, and agree on all a command reads. -/
theorem witness_ReadSets :
    (∀ x : Element, reads (.fePack 0) x = true → Same x (fields [5] [6]) (fields [5] [7])) ∧
      drawValue State.reset = drawValue (hmacState .s32) := by
  refine ⟨fun x hx => ?_, rfl⟩
  have : x = .f 0 := by simpa [reads] using hx
  subst this
  rfl

/-- `PrivStaysSecret`: a run without `KX_SHARED`. -/
theorem witness_PrivStaysSecret : ∀ i ∈ [Instr.kxKeygen, .rdStatus], ∀ q, i ≠ .kxShared q := by
  intro i hi q
  simp only [List.mem_cons, List.not_mem_nil, or_false] at hi
  rcases hi with rfl | rfl <;> simp

/-- `IdempotentCommands`. -/
theorem witness_IdempotentCommands :
    idempotent (.feMov 1 1) = true ∧ idempotent (.feMul 2 0 1) = true ∧ (∃ t, exec (.feMov 1 1) State.reset = .next t) :=
  ⟨by decide, by decide, ⟨_, rfl⟩⟩

/-- `ResetValues`: a state a `SOFT_RESET` leaves. -/
theorem witness_ResetValues : ∃ t, exec .softReset pairState = .next t := ⟨_, rfl⟩

/-- `HashInit`, `HashFinal`, `HashDigest`, `HmacConfigRead`, `FeMovCswap`: the selector clauses. -/
theorem witness_selectors : 1 < (2#8).toNat ∧ 1 < (255#8).toNat ∧ 3 < (4#8).toNat ∧ 2 < (3#8).toNat := by decide

/-- `HashUpdate`: a unit with room, and one at its last byte. -/
theorem witness_HashUpdate :
    variantOf 0#8 = some .s32 ∧ (getUnit State.reset .s32).buf.wf 64 = true ∧ (getUnit State.reset .s32).len.toNat + 8 < 2 ^ 64 ∧
    variantOf 1#8 = some .s64 ∧ (absorb (HashUnit.init .s64) (zeros 127)).buf.wf 128 = true ∧
      (absorb (HashUnit.init .s64) (zeros 127)).fill.val + 1 = 128 ∧
      (absorb (HashUnit.init .s64) (zeros 127)).len.toNat + 8 < 2 ^ 128 ∧ (0#8).toNat ≤ 1 ∧ (1#8).toNat ≤ 1 := by
  decide +kernel

/-- `HashUpdateSplits`. -/
theorem witness_HashUpdateSplits : ∃ t, exec (.hashUpdate 0#8 [1]) State.reset = .next t := ⟨_, rfl⟩

/-- `HashLengthBound`: a message that fits and, at the bound, one that does not. A one-command message of 2^61 bytes is a
list of that length. -/
theorem witness_HashLengthBound :
    variantOf 0#8 = some .s32 ∧ (getUnit State.reset .s32).len.toNat + 8 * ([1] : Bytes).length < 2 ^ 64 ∧
    2 ^ 64 ≤ (getUnit fullState .s32).len.toNat + 8 * ([1] : Bytes).length ∧ 8 * ([1] : Bytes).length < 2 ^ 64 ∧
    2 ^ 64 ≤ 8 * (List.replicate (2 ^ 61) (0#8 : Byte)).length := by
  refine ⟨by decide, by decide, by decide, by decide, ?_⟩
  rw [List.length_replicate]
  decide

/-- `HashFinal`: the longest tail of one padding block, and the shortest of two. -/
theorem witness_HashFinal :
    (absorb (HashUnit.init .s32) (zeros 55)).buf.wf 64 = true ∧ (absorb (HashUnit.init .s32) (zeros 55)).fill.val + 1 ≤ 64 - 8 ∧
    (∀ a, (absorb (HashUnit.init .s32) (zeros 55)).fill.val ≤ a → (absorb (HashUnit.init .s32) (zeros 55)).buf.read a = 0#8) ∧
    (absorb (HashUnit.init .s32) (zeros 56)).buf.wf 64 = true ∧ ¬(absorb (HashUnit.init .s32) (zeros 56)).fill.val + 1 ≤ 64 - 8 ∧
    (∀ a, (absorb (HashUnit.init .s32) (zeros 56)).fill.val ≤ a →
      (absorb (HashUnit.init .s32) (zeros 56)).buf.read a = 0#8) := by
  have h55 : (absorb (HashUnit.init .s32) (zeros 55)).buf = [] := by decide +kernel
  have h56 : (absorb (HashUnit.init .s32) (zeros 56)).buf = [] := by decide +kernel
  refine ⟨by decide +kernel, by decide +kernel, fun a _ => by rw [h55]; rfl, by decide +kernel, by decide +kernel,
    fun a _ => by rw [h56]; rfl⟩

/-- `HashDigest`, `StreamingEqualsDigest`: a message in three pieces, one of them empty, on an initialised unit. -/
theorem witness_StreamingEqualsDigest :
    variantOf 1#8 = some .s64 ∧ 8 * ([[0x61], [], [0x62, 0x63]] : List Bytes).flatten.length < 2 ^ 128 ∧
      getUnit State.reset .s64 = HashUnit.init .s64 := ⟨by decide, by decide, rfl⟩

/-- `CompressionFunction`: the first and last index of each clause's range, with both numbers of rounds (R60). -/
theorem witness_CompressionFunction :
    0 < 16 ∧ 15 < 16 ∧ 16 < Variant.rounds .s32 ∧ 63 < Variant.rounds .s32 ∧ 79 < Variant.rounds .s64 := by decide

/-- `HmacFunction`: the prepared key of a short key. -/
theorem witness_HmacFunction :
    ([0x0b#8] ++ zeros 63).length = Variant.blockBytes .s32 ∧
      ∀ j, j < Variant.blockBytes .s32 → ([0x0b#8] ++ zeros 63).getD j 0#8
        = (if Variant.blockBytes .s32 < ([0x0b#8] : Bytes).length then digest .s32 [0x0b#8] else [0x0b#8]).getD j 0#8 := by
  refine ⟨by decide, fun j hj => ?_⟩
  rw [if_neg (by decide)]
  revert j
  decide

/-- `HmacDigest`: not configured; configured, with a key of exactly B bytes, and with one longer. -/
theorem witness_HmacDigest :
    State.reset.hmac.hcfg = false ∧ (hmacState .s32).hmac.hcfg = true ∧
    (64 < (zeros 64).length → 8 * (zeros 64).length < 2 ^ 64) ∧ (64 < (zeros 65).length → 8 * (zeros 65).length < 2 ^ 64) ∧
    8 * (64 + (zeros 9).length) < 2 ^ 64 := by decide

/-- `HmacKeyPreparation`: a key filled up to B bytes, and a key of B + 1. -/
theorem witness_HmacKeyPreparation : (zeros 60).length + 4 ≤ 64 ∧ 64 < (zeros 65).length := by decide

/-- `AesKeyexp`: each clause, with each key size. -/
theorem witness_AesKeyexp :
    2 < (3#8).toNat ∧ (0#8).toNat ≤ 2 ∧ (2#8).toNat ≤ 2 ∧ ((1#8).toNat ≤ 2 ∧ (zeros 16).length ≠ 16 + 8 * (1#8).toNat) ∧
    (zeros 16).length = 16 + 8 * (0#8).toNat ∧ (zeros 24).length = 16 + 8 * (1#8).toNat
      ∧ (zeros 32).length = 16 + 8 * (2#8).toNat := by decide

/-- `AesCipher`, `AesInvcipher`, `CbcEncrypt`, `CbcDecrypt`, `CipherInverse`, `CbcRoundTrip`, `RoundTransformsInvert`: with
and without a key, with a right and a wrong length. -/
theorem witness_keyed :
    State.reset.ciph.keyed = false ∧ keyedState.ciph.keyed = true ∧ (zeros 16).length = 16 ∧ (zeros 15).length ≠ 16 ∧
    (zeros 32).length % 16 = 0 ∧ (zeros 17).length % 16 ≠ 0 ∧ 1 < ((zeros 17).length + 15) / 16 ∧ 1 < (zeros 32).length / 16 := by
  decide

/-- `FeUnpack`, `KxShared`, `X25519`, `X25519Long`: right and wrong lengths, with and without a key pair. -/
theorem witness_lengths :
    (zeros 32).length = 32 ∧ (zeros 31).length ≠ 32 ∧ (zeros 64).length = 64 ∧ ¬((zeros 31).length = 32 ∧ (zeros 32).length = 32) ∧
    ¬((zeros 32).length = 64 ∧ (zeros 32).length = 32) ∧ State.reset.kx.privv = false ∧ pairState.kx.privv = true := by decide

/-- `FeAddSub`: limbs whose sums and differences stay in the range, at its edge, and limbs whose sum or difference leaves it. -/
theorem witness_FeAddSub :
    (∀ k, InRange (limb (fields [2 ^ 63 - 2] [1]) 0 k + limb (fields [2 ^ 63 - 2] [1]) 1 k)) ∧
    (∃ k, ¬InRange (limb (fields [2 ^ 63 - 1] [1]) 0 k + limb (fields [2 ^ 63 - 1] [1]) 1 k)) ∧
    (∀ k, InRange (limb (fields [-2 ^ 63 + 1] [1]) 0 k - limb (fields [-2 ^ 63 + 1] [1]) 1 k)) ∧
    ∃ k, ¬InRange (limb (fields [-2 ^ 63] [1]) 0 k - limb (fields [-2 ^ 63] [1]) 1 k) := by
  unfold InRange
  refine ⟨by decide +kernel, ⟨0, by decide +kernel⟩, by decide +kernel, ⟨0, by decide +kernel⟩⟩

/-- `FeMulSqr`, `FeCarry`, `FeInv`, `FePack`: registers inside and outside the domain of R116. -/
theorem witness_domains :
    inDomain (Fe.mulNamed (feOf (fields [2] [3]) 0) (feOf (fields [2] [3]) 1)) = true ∧
    inDomain (Fe.mulNamed (feOf (fields [2 ^ 40] [2 ^ 40]) 0) (feOf (fields [2 ^ 40] [2 ^ 40]) 1)) = false ∧
    inDomain (Fe.mulNamed (feOf (fields [2] []) 0) (feOf (fields [2] []) 0)) = true ∧
    inDomain (Fe.carryNamed (feOf (fields [70000, -5] []) 0)) = true ∧
    inDomain (Fe.carryNamed (feOf (fields [2 ^ 62, 2 ^ 63 - 1] []) 0)) = false ∧
    inDomain (Fe.packNamed (feOf (fields [-1] []) 0)) = true ∧
    inDomain (Fe.packNamed (feOf (fields [2 ^ 62, 2 ^ 63 - 1] []) 0)) = false ∧
    Fe.bounded (2 ^ 26) (feOf (fields [-1] []) 0) = true ∧
    invLoopDomain (feOf (fields [2 ^ 40] []) 0) 254 (feOf (fields [2 ^ 40] []) 0) = false := by decide +kernel

/-- `CarryNormalises`, `MulValue`, `InvValue`, `PackCanonical`: elements at the bounds. -/
theorem witness_elements :
    (List.replicate 16 ((2 : Int) ^ 26)).length = 16 ∧ Fe.bounded (2 ^ 26) (List.replicate 16 ((2 : Int) ^ 26)) = true ∧
    Fe.bounded (2 ^ 26) (List.replicate 16 (-(2 : Int) ^ 26)) = true ∧
    Fe.fn (131033 :: List.replicate 15 (65535 : Int)).tail = true ∧
    Fe.fn (Fe.carry (Fe.carry (List.replicate 16 ((2 : Int) ^ 26)))) = true := by decide +kernel

/-- An element that every iteration of `FE_INV` gives back stays in the domain. -/
theorem invLoopDomain_fixed {z : Fe} (hs : Fe.sqr z = z) (hd : inDomain (Fe.mulNamed z z) = true) (n : Nat) :
    invLoopDomain z n z = true := by
  have hm : Fe.mul z z = z := hs
  induction n with
  | zero => rfl
  | succ k ih =>
    have hi : invStep z z k = z := by
      unfold invStep
      split <;> simp [hs, hm]
    simp [invLoopDomain, hd, hs, hi, ih]

/-- `FeInv`: a state that meets its first hypothesis. -/
theorem witness_FeInv : invLoopDomain (feOf State.reset 0) 254 (feOf State.reset 0) = true := by
  have h : feOf State.reset 0 = List.replicate 16 0 := by decide +kernel
  rw [h]
  exact invLoopDomain_fixed (by decide +kernel) (by decide +kernel) 254

/-- `ClampScalars`, `LadderSteps`, `LadderInDomain`, `LadderValueLevel`: both scalar lengths. -/
theorem witness_scalars :
    ((zeros 32).length = 32 ∨ (zeros 32).length = 64) ∧ ((zeros 64).length = 32 ∨ (zeros 64).length = 64) ∧
      basePoint.length = 32 := by decide

/-- `KxKeygen`: an answer queued, and none. -/
theorem witness_KxKeygen :
    { State.reset with rnd := [Vector.replicate 32 7#8] }.rnd = Vector.replicate 32 7#8 :: [] ∧ State.reset.rnd = [] := ⟨rfl, rfl⟩

/-- A state with a message in progress, an error recorded and a command waiting. -/
def busyState : State :=
  raise .illegalCommand { State.reset with
    s32 := absorb (HashUnit.init .s32) [0x61, 0x62], inputs := [.command ⟨0x00000000, []⟩] }

/-- `InvariantKept`: a state that meets the invariants, and its step. -/
theorem witness_InvariantKept : busyState.Inv ∧ ∃ t, step busyState = .next t := by
  refine ⟨⟨⟨by decide, by decide, by decide⟩, ⟨⟨by decide, by decide, by decide, ?_⟩, ⟨by decide, by decide, by decide, fun a _ => rfl⟩⟩,
    ⟨rfl, rfl⟩, ⟨by decide, by decide⟩, fun _ => rfl, .inr ⟨rfl, by decide, by decide⟩, ?_⟩, ⟨_, rfl⟩⟩
  · intro a ha
    have h : 2 ≤ a := ha
    have hb : busyState.s32.buf = [(0, 0x61#8), (1, 0x62#8)] := by decide
    rw [hb]
    simp only [Memory.read]
    rw [if_neg (by omega), if_neg (by omega)]
  · intro r hr
    have h : r = ⟨2#4, []⟩ := (Option.some.inj hr).symm
    subst h
    exact ⟨by decide, fun _ => ⟨rfl, rfl, rfl⟩⟩

end Sys2Proof.Tests
end

section
/-! PROOFS. Reset values (R22): `SOFT_RESET` leaves every element as `State.reset` has it, and what that is. -/

namespace Sys2Proof.Machine

/-! ### What SOFT_RESET leaves (R152) -/

theorem exec_softReset_eq_next {s t : State} : exec .softReset s = .next t ↔ respond [] (resetState s) = t :=
  done_eq_next

@[simp] theorem getF_resetState (s : State) (i : FReg) : getF (resetState s) i = getF State.reset i := rfl

@[simp] theorem getUnit_resetState (s : State) (v : Variant) : getUnit (resetState s) v = getUnit State.reset v := by
  cases v <;> rfl

/-- A response is on the ports, outside the elements of R10. -/
theorem same_respond (x : Element) (d : Bytes) (s : State) : Same x (respond d s) s := by
  cases x <;> simp [Same]

theorem same_resetState (x : Element) (s : State) : Same x (resetState s) State.reset := by
  cases x <;> simp [Same]

theorem Same.refl (x : Element) (s : State) : Same x s s := by
  cases x <;> rfl

theorem Same.trans {x : Element} {s t u : State} (hst : Same x s t) (htu : Same x t u) : Same x s u := by
  cases x <;> exact Eq.trans hst htu

theorem same_reset_of_exec_softReset {s t : State} (h : exec .softReset s = .next t) (x : Element) :
    Same x t State.reset := by
  obtain rfl := exec_softReset_eq_next.mp h
  exact (same_respond x [] _).trans (same_resetState x s)

/-! ### The elements of the reset state (R22) -/

@[simp] theorem HashUnit.init_buf (v : Variant) : (HashUnit.init v).buf = Memory.cleared := rfl
@[simp] theorem HashUnit.init_fill_val (v : Variant) : (HashUnit.init v).fill.val = 0 := rfl
@[simp] theorem HashUnit.init_len (v : Variant) : (HashUnit.init v).len = 0#v.lenBits := rfl

@[simp] theorem getUnit_reset (v : Variant) : getUnit State.reset v = HashUnit.init v := by cases v <;> rfl

@[simp] theorem limb_reset (i : FReg) (k : Fin 16) : limb State.reset i k = 0 := by
  simp [limb, getF, State.reset]

theorem limb_eq_of_same {i : FReg} {s t : State} (h : Same (.f i) s t) (k : Fin 16) : limb s i k = limb t i k :=
  congrArg (fun e : Elem => e[k].toInt) h

/-- Settles O15: power-on and `SOFT_RESET` leave every element as `State.reset` has it, so R22's table is read off there. -/
theorem resetValues : Obligations.ResetValues := by
  intro t ht
  have same : ∀ x, Same x t State.reset := by
    obtain rfl | ⟨s, hs⟩ := ht
    · exact (Same.refl · _)
    · exact same_reset_of_exec_softReset hs
  have hbuf (v : Variant) (a : Nat) : (getUnit t v).buf.read a = 0#8 := by
    have h : (getUnit t v).buf = (getUnit State.reset v).buf := same (.buf v)
    simp [h]
  have hfill (v : Variant) : (getUnit t v).fill.val = 0 := by
    have h : (getUnit t v).fill = (getUnit State.reset v).fill := same (.fill v)
    simp [h]
  have hlen (v : Variant) : (getUnit t v).len.toNat = 0 := by
    have h : (getUnit t v).len = (getUnit State.reset v).len := same (.len v)
    simp [h]
  have hhout (a : Nat) : t.hmac.hout.read a = 0#8 := congrArg (Memory.read · a) (same .hout)
  have hw (i : Fin 60) : t.ciph.w[i] = 0#32 := (congrArg (·[i]) (same .w)).trans (Vector.getElem_replicate ..)
  have hpriv (i : Fin 32) : t.kx.priv[i] = 0#8 := (congrArg (·[i]) (same .priv)).trans (Vector.getElem_replicate ..)
  exact ⟨fun i k => (limb_eq_of_same (same (.f i)) k).trans (limb_reset i k), same (.h .s32), same (.h .s64),
    hbuf .s32, hbuf .s64, hfill .s32, hfill .s64, hlen .s32, hlen .s64, same .hcfg, same .hsel, hhout,
    same .keyed, same .nk, hw, same .iv, same .last, same .privv, hpriv, same .errs, same .lasterr⟩

end Sys2Proof.Machine
end

section
/-! PROOFS. The opcode table read by its columns (R48): a word and its operand strings decode exactly when they are not
malformed (R49). -/

namespace Sys2Proof

/-! ### A command word as its fields side by side (R45) -/

/-- The word with these fields, `rsv` included, in the order of R45. -/
def layout (opc : BitVec 8) (rd ra rb rsv : BitVec 4) (sel : BitVec 8) : BitVec (8 + 4 + 4 + 4 + 4 + 8) :=
  opc ++ rd ++ ra ++ rb ++ rsv ++ sel

theorem layout_fields (w : BitVec 32) :
    layout (opcOf w) (w.extractLsb' 20 4) (w.extractLsb' 16 4) (w.extractLsb' 12 4) (rsvOf w) (w.extractLsb' 0 8) = w := by
  have join {lo n m : Nat} :
      w.extractLsb' (lo + n) m ++ w.extractLsb' lo n = w.extractLsb' lo (m + n) :=
    BitVec.extractLsb'_append_extractLsb'_eq_extractLsb' rfl
  simp only [layout, opcOf, rsvOf]
  rw [join (lo := 20) (n := 4), join (lo := 16) (n := 4), join (lo := 12) (n := 4), join (lo := 8) (n := 4),
    join (lo := 0) (n := 8), BitVec.extractLsb'_eq_self]

theorem layout_and (opc opc' : BitVec 8) (rd ra rb rsv rd' ra' rb' rsv' : BitVec 4) (sel sel' : BitVec 8) :
    layout opc rd ra rb rsv sel &&& layout opc' rd' ra' rb' rsv' sel' =
      layout (opc &&& opc') (rd &&& rd') (ra &&& ra') (rb &&& rb') (rsv &&& rsv') (sel &&& sel') := by
  simp only [layout, BitVec.and_append]

/-- Words laid out side by side are equal exactly when both parts are. -/
theorem append_eq_append_iff {n m : Nat} {a a' : BitVec n} {b b' : BitVec m} : a ++ b = a' ++ b' ↔ a = a' ∧ b = b' := by
  constructor
  · intro h
    have ha : a = a' := by
      rw [← BitVec.extractLsb'_append_eq_left (a := a) (b := b), h, BitVec.extractLsb'_append_eq_left]
    exact ⟨ha, (BitVec.append_right_inj a').mp (ha ▸ h)⟩
  · rintro ⟨rfl, rfl⟩
    rfl

theorem layout_eq_layout_iff {opc opc' : BitVec 8} {rd ra rb rsv rd' ra' rb' rsv' : BitVec 4} {sel sel' : BitVec 8} :
    layout opc rd ra rb rsv sel = layout opc' rd' ra' rb' rsv' sel' ↔
      opc = opc' ∧ rd = rd' ∧ ra = ra' ∧ rb = rb' ∧ rsv = rsv' ∧ sel = sel' := by
  simp only [layout, append_eq_append_iff, and_assoc]

/-! ### Masks from the columns (R48) -/

/-- The mask of a field: nothing of a field the command uses, all of one it does not. -/
def fieldMask (n : Nat) (used : Bool) : BitVec n := if used then 0#n else BitVec.allOnes n

theorem and_fieldMask_eq_zero_iff {n : Nat} {used : Bool} {x : BitVec n} :
    x &&& fieldMask n used = 0#n ↔ (used = false → x = 0#n) := by
  cases used <;> simp [fieldMask]

/-- The mask a row has by its columns: `opc`, `rsv` and every unused field. -/
def Machine.Uses.mask (u : Machine.Uses) : BitVec 32 :=
  layout (BitVec.allOnes 8) (fieldMask 4 u.rd) (fieldMask 4 u.ra) (fieldMask 4 u.rb) (BitVec.allOnes 4) (fieldMask 8 u.sel)

theorem shiftLeft_eq_layout (opc : BitVec 8) : opc.setWidth 32 <<< 24 = layout opc 0#4 0#4 0#4 0#4 0#8 := by
  revert opc
  decide

theorem and_mask_eq_iff (w : BitVec 32) (u : Machine.Uses) :
    w &&& u.mask = (opcOf w).setWidth 32 <<< 24 ↔
      (u.rd = false → w.extractLsb' 20 4 = 0#4) ∧ (u.ra = false → w.extractLsb' 16 4 = 0#4) ∧
        (u.rb = false → w.extractLsb' 12 4 = 0#4) ∧ rsvOf w = 0#4 ∧ (u.sel = false → w.extractLsb' 0 8 = 0#8) := by
  conv_lhs => lhs; rw [← layout_fields w]
  rw [shiftLeft_eq_layout, Machine.Uses.mask, layout_and, layout_eq_layout_iff]
  simp only [and_fieldMask_eq_zero_iff, BitVec.and_allOnes, true_and]

/-! ### The table and its columns -/

/-- The one place where the table is read row by row: each opcode's row has the mask and the number of operand strings its
columns give, and an opcode without columns has no row. -/
theorem rowOf_columns (opc : BitVec 8) :
    (rowOf opc).map (fun r => (r.mask, r.din)) = (Machine.usesOf opc).map (fun u => (u.mask, u.din)) := by
  revert opc
  decide +kernel

/-! ### What decodes (R48, R49) -/

/-- A row builds a command from exactly as many operand strings as its column `DIN` says. -/
def Row.CountsStrings (r : Row) : Prop := ∀ f d, (∃ i, r.build f d = some i) ↔ d.length = r.din

theorem row0_countsStrings (opc : BitVec 8) (mnemonic : String) (mask : BitVec 32) (mk : Fields → Instr) :
    (row0 opc mnemonic mask mk).CountsStrings := by
  rintro f (_ | ⟨a, d⟩) <;> simp [row0]

theorem row1_countsStrings (opc : BitVec 8) (mnemonic : String) (mask : BitVec 32) (mk : Fields → Bytes → Instr) :
    (row1 opc mnemonic mask mk).CountsStrings := by
  rintro f (_ | ⟨a, _ | ⟨b, d⟩⟩) <;> simp [row1]

theorem row2_countsStrings (opc : BitVec 8) (mnemonic : String) (mask : BitVec 32) (mk : Fields → Bytes → Bytes → Instr) :
    (row2 opc mnemonic mask mk).CountsStrings := by
  rintro f (_ | ⟨a, _ | ⟨b, _ | ⟨x, d⟩⟩⟩) <;> simp [row2]

theorem rows_countsStrings : ∀ r ∈ rows, r.CountsStrings := by
  simp [rows, rowsA, rowsB, rowsC, rowsD, row0_countsStrings, row1_countsStrings, row2_countsStrings]

theorem rowOf_eq_some {opc : BitVec 8} {r : Row} (h : rowOf opc = some r) : r ∈ rows ∧ r.opc = opc :=
  ⟨List.mem_of_find?_eq_some h, by simpa using List.find?_some h⟩

/-- A word with its operand strings is a command exactly when its opcode has a row, `rsv` is 0, the row's mask and match
select it and it has the row's number of strings. -/
theorem exists_decode_eq_ok_iff (c : Command) :
    (∃ i, decode c = .ok i) ↔
      ∃ r, rowOf (opcOf c.word) = some r ∧ rsvOf c.word = 0#4 ∧ c.word &&& r.mask = r.matchWord ∧ c.din.length = r.din := by
  unfold decode
  cases h : rowOf (opcOf c.word) with
  | none => simp
  | some r =>
    have build := rows_countsStrings r (rowOf_eq_some h).1 (fieldsOf c.word) c.din
    simp only [Option.some.injEq, exists_eq_left', ← build]
    split_ifs with hrsv hmask
    · simp [hrsv]
    · simp [hmask]
    · rw [not_not] at hrsv hmask
      cases r.build (fieldsOf c.word) c.din <;> simp [hrsv, hmask]

end Sys2Proof

namespace Sys2Proof.Machine

/-- An opcode in the columns has a row with the mask and string count those columns give. -/
theorem rowOf_of_usesOf {opc : BitVec 8} {u : Uses} (h : usesOf opc = some u) :
    ∃ r, rowOf opc = some r ∧ r.opc = opc ∧ r.mask = u.mask ∧ r.din = u.din := by
  have hcol := rowOf_columns opc
  rw [h, Option.map_some, Option.map_eq_some_iff] at hcol
  obtain ⟨r, hr, hrow⟩ := hcol
  obtain ⟨hmask, hdin⟩ := Prod.mk.inj hrow
  exact ⟨r, hr, (rowOf_eq_some hr).2, hmask, hdin⟩

theorem rowOf_of_usesOf_none {opc : BitVec 8} (h : usesOf opc = none) : rowOf opc = none := by
  have hcol := rowOf_columns opc
  rwa [h, Option.map_none, Option.map_eq_none_iff] at hcol

/-- R49 (a). -/
theorem malformed_of_usesOf_none {c : Command} (h : usesOf (opcOf c.word) = none) : Malformed c := by
  rw [opcOf] at h
  simp [Malformed, h]

/-- R49 (b) to (d), for an assigned opcode, as the one comparison R48 makes and the count of strings. -/
theorem malformed_iff_of_usesOf {c : Command} {u : Uses} (h : usesOf (opcOf c.word) = some u) :
    Malformed c ↔ ¬(c.word &&& u.mask = (opcOf c.word).setWidth 32 <<< 24 ∧ c.din.length = u.din) := by
  rw [and_mask_eq_iff, rsvOf]
  rw [opcOf] at h
  simp only [Malformed, h]
  tauto

/-- R48 and R49 name the same words: what is not malformed is a command, and the reverse. -/
theorem not_malformed_iff_decode_eq_ok (c : Command) : ¬Malformed c ↔ ∃ i, decode c = .ok i := by
  rw [exists_decode_eq_ok_iff]
  cases h : usesOf (opcOf c.word) with
  | none => simp [malformed_of_usesOf_none h, rowOf_of_usesOf_none h]
  | some u =>
    obtain ⟨r, hr, hopc, hmask, hdin⟩ := rowOf_of_usesOf h
    have hrsv (hw : c.word &&& u.mask = (opcOf c.word).setWidth 32 <<< 24) : rsvOf c.word = 0#4 := by
      obtain ⟨-, -, -, h0, -⟩ := (and_mask_eq_iff c.word u).mp hw
      exact h0
    simp only [malformed_iff_of_usesOf h, not_not, hr, Option.some.injEq, exists_eq_left', Row.matchWord, hopc, hmask, hdin]
    exact ⟨fun ⟨hw, hd⟩ => ⟨hrsv hw, hw, hd⟩, And.right⟩

/-! ### The step of a command, malformed or not -/

theorem step_of_decode_ok {s : State} {c : Command} {rest : List Input} {i : Instr} (hs : s.inputs = .command c :: rest)
    (hd : decode c = .ok i) : step s = exec i { s with inputs := rest } := by
  simp [step, fetch, hs, hd]

theorem step_of_decode_error {s : State} {c : Command} {rest : List Input} {e : Reject}
    (hs : s.inputs = .command c :: rest) (hd : decode c = .error e) :
    step s = .next (raise .illegalCommand { s with inputs := rest }) := by
  simp [step, fetch, hs, hd]

theorem step_of_malformed {s : State} {c : Command} {rest : List Input} (hs : s.inputs = .command c :: rest)
    (hc : Malformed c) : step s = .next (raise .illegalCommand { s with inputs := rest }) := by
  cases hd : decode c with
  | error e => exact step_of_decode_error hs hd
  | ok i => exact absurd hc ((not_malformed_iff_decode_eq_ok c).mpr ⟨i, hd⟩)

/-- The columns leave exactly the ranges of R49 (a) unassigned. -/
theorem usesOf_eq_none_iff (opc : BitVec 8) : usesOf opc = none ↔
    (0x03 ≤ opc.toNat ∧ opc.toNat ≤ 0x0F) ∨ (0x14 ≤ opc.toNat ∧ opc.toNat ≤ 0x1F)
      ∨ (0x23 ≤ opc.toNat ∧ opc.toNat ≤ 0x2F) ∨ (0x33 ≤ opc.toNat ∧ opc.toNat ≤ 0x3F)
      ∨ (0x42 ≤ opc.toNat ∧ opc.toNat ≤ 0x4F) ∨ (0x5B ≤ opc.toNat ∧ opc.toNat ≤ 0x5F)
      ∨ (0x62 ≤ opc.toNat ∧ opc.toNat ≤ 0x6F) ∨ 0x72 ≤ opc.toNat := by
  revert opc
  decide

/-- Settles O4: R48's masks and R49's conditions name the same words, so `fetch` raises `IllegalCommand` on exactly the
malformed ones. -/
theorem malformedCommands : Obligations.MalformedCommands := by
  refine ⟨fun s c rest hs => ⟨step_of_malformed hs, fun hc => ?_⟩, usesOf_eq_none_iff⟩
  obtain ⟨i, hd⟩ := (not_malformed_iff_decode_eq_ok c).mp hc
  exact ⟨i, hd, step_of_decode_ok hs hd⟩

end Sys2Proof.Machine
end

section
/-! PROOFS. What each hash command answers, inside and outside the length field (R64 to R68). -/

namespace Sys2Proof.Machine

/-! ### A selected variant -/

theorem withVariant_of_eq_some {sel : BitVec 8} {v : Variant} (h : variantOf sel = some v) (s : State)
    (k : Variant → Result) : withVariant sel s k = k v := by
  simp [withVariant, h]

theorem withVariant_of_one_lt {sel : BitVec 8} (h : 1 < sel.toNat) (s : State) (k : Variant → Result) :
    withVariant sel s k = .next (raise .invalidSelector s) := by
  simp [withVariant, variantOf_none.mpr h, failed]

theorem exists_variantOf_eq_some {sel : BitVec 8} (h : sel.toNat ≤ 1) : ∃ v, variantOf sel = some v :=
  Option.ne_none_iff_exists'.mp fun hn => absurd (variantOf_none.mp hn) (by omega)

/-! ### Writes of a unit and responses -/

@[simp] theorem respond_respond (d d' : Bytes) (s : State) : respond d (respond d' s) = respond d s := rfl

@[simp] theorem setUnit_respond (v : Variant) (u : HashUnit v) (d : Bytes) (s : State) :
    setUnit v u (respond d s) = respond d (setUnit v u s) := by cases v <;> rfl

/-- A write of hash unit `v` leaves every element outside it (R23). -/
theorem same_setUnit {v : Variant} {x : Element} (hx : x.inUnit v = false) (u : HashUnit v) (s : State) :
    Same x s (setUnit v u s) := by
  cases x <;> simp_all [Same, Element.inUnit, getUnit_setUnit_other, getF]

theorem Same.symm {x : Element} {s t : State} (h : Same x s t) : Same x t s := by
  cases x <;> exact Eq.symm h

/-! ### The commands -/

variable {v : Variant} {sel : BitVec 8} (h : variantOf sel = some v)
include h

theorem exec_hashInit (s : State) :
    exec (.hashInit sel) s = .next (respond [] (setUnit v (HashUnit.init v) s)) :=
  withVariant_of_eq_some h s _

theorem exec_hashUpdate (data : Bytes) (s : State) :
    exec (.hashUpdate sel data) s =
      if (getUnit s v).len.toNat + 8 * data.length < 2 ^ v.lenBits then
        .next (respond [] (setUnit v (absorb (getUnit s v) data) s))
      else .refused .hashLengthOutOfDomain := by
  refine (withVariant_of_eq_some h s _).trans ?_
  simp only [lengthFits, decide_eq_true_eq, done]

theorem exec_hashFinal (s : State) :
    exec (.hashFinal sel) s = .next (respond (finalDigest (getUnit s v)) (setUnit v (HashUnit.init v) s)) :=
  withVariant_of_eq_some h s _

theorem exec_hashDigest (m : Bytes) (s : State) :
    exec (.hashDigest sel m) s =
      if 8 * m.length < 2 ^ v.lenBits then
        .next (respond (finalDigest (absorb (HashUnit.init v) m)) (setUnit v (HashUnit.init v) s))
      else .refused .hashLengthOutOfDomain := by
  refine (withVariant_of_eq_some h s _).trans ?_
  simp only [lengthFits, decide_eq_true_eq, done, HashUnit.init_len, BitVec.toNat_zero, Nat.zero_add, initUnit]

end Sys2Proof.Machine

namespace Sys2Proof.Machine

theorem HashUnit.fresh_init (v : Variant) : (HashUnit.init v).Fresh :=
  ⟨rfl, fun _ => rfl, rfl, BitVec.toNat_zero⟩

/-- Settles O17: selectors 0 and 1 write the unit they name, and any larger one names none. -/
theorem hashInit : Obligations.HashInit :=
  ⟨exec_hashInit (v := .s32) rfl, exec_hashInit (v := .s64) rfl, HashUnit.fresh_init _, HashUnit.fresh_init _,
    fun _ s h => withVariant_of_one_lt h s _⟩

end Sys2Proof.Machine
end

section
/-! PROOFS. A hash unit between commands (R15): its buffer read as a string, and what absorbed bytes do to it (R65, R68). -/

namespace Sys2Proof.Machine

/-! ### Buffers read as strings (R30) -/

@[simp] theorem Memory.readBytes_zero (m : Memory) (a : Nat) : m.readBytes a 0 = [] := rfl

theorem Memory.readBytes_succ (m : Memory) (a n : Nat) : m.readBytes a (n + 1) = m.readBytes a n ++ [m.read (a + n)] := by
  simp [Memory.readBytes, List.range_succ]

theorem Memory.readBytes_add (m : Memory) (a n k : Nat) :
    m.readBytes a (n + k) = m.readBytes a n ++ m.readBytes (a + n) k := by
  simp [Memory.readBytes, List.range_add, Nat.add_assoc]

theorem Memory.readBytes_congr {m m' : Memory} {a n : Nat} (h : ∀ i < n, m.read (a + i) = m'.read (a + i)) :
    m.readBytes a n = m'.readBytes a n :=
  List.map_congr_left fun i hi => h i (List.mem_range.mp hi)

theorem Memory.readBytes_eq_zeros {m : Memory} {a : Nat} (h : ∀ x, a ≤ x → m.read x = 0#8) (n : Nat) :
    m.readBytes a n = zeros n := by
  simp [Memory.readBytes, zeros, h, List.map_const']

/-- A byte stored after the bytes read so far is the next one read. -/
theorem Memory.readBytes_write_succ {size : Nat} {m : Memory} (hm : m.wf size = true) (a : Nat) (b : Byte) :
    (m.write a b).readBytes 0 (a + 1) = m.readBytes 0 a ++ [b] := by
  rw [Memory.readBytes_succ, Memory.readBytes_congr (m' := m)]
  · simp [Memory.read_write hm]
  · intro i hi
    rw [Memory.read_write hm, if_neg (by omega)]

theorem Memory.readBytes_write_last {size : Nat} {m : Memory} (hm : m.wf size = true) {a : Nat} (h : a + 1 = size)
    (b : Byte) : (m.write a b).readBytes 0 size = m.readBytes 0 a ++ [b] :=
  h ▸ Memory.readBytes_write_succ hm a b

/-- A string stored at the end of a buffer follows the bytes before it. -/
theorem Memory.readBytes_writeBytes_end {size : Nat} {m : Memory} (hm : m.wf size = true) {a : Nat} {s : Bytes}
    (h : a + s.length = size) : (m.writeBytes a s).readBytes 0 size = m.readBytes 0 a ++ s := by
  have hread := Memory.read_writeBytes hm s h.le
  subst h
  rw [Memory.readBytes_add, Memory.readBytes_congr (m' := m)]
  · congr 1
    apply List.ext_getElem
    · simp
    · intro i hi hi'
      simp [Memory.readBytes, hread, hi', List.getD_eq_getElem?_getD]
  · intro i hi
    rw [hread, if_neg (by omega)]

/-! ### One byte and many (R65) -/

variable {v : Variant} {u : HashUnit v}

theorem blockBytes_pos (v : Variant) : 0 < v.blockBytes := by cases v <;> decide

theorem len_absorbByte (u : HashUnit v) (b : Byte) : (absorbByte u b).len = u.len + 8#v.lenBits := by
  unfold absorbByte
  split <;> rfl

theorem toNat_len_absorbByte (b : Byte) (hfit : u.len.toNat + 8 < 2 ^ v.lenBits) :
    (absorbByte u b).len.toNat = u.len.toNat + 8 := by
  have h8 : (8#v.lenBits).toNat = 8 := by cases v <;> rfl
  rw [len_absorbByte, BitVec.toNat_add, h8, Nat.mod_eq_of_lt hfit]

theorem fill_absorbByte (u : HashUnit v) (b : Byte) :
    (absorbByte u b).fill.val = (u.fill.val + 1) % v.blockBytes := by
  by_cases hr : u.fill.val + 1 < v.blockBytes
  · rw [absorbByte_room b hr, Nat.mod_eq_of_lt hr]
  · have hfull : u.fill.val + 1 = v.blockBytes := by have := u.fill.isLt; omega
    rw [absorbByte_full b hr, hfull, Nat.mod_self]

theorem toNat_len_absorb (data : Bytes) (hfit : u.len.toNat + 8 * data.length < 2 ^ v.lenBits) :
    (absorb u data).len.toNat = u.len.toNat + 8 * data.length := by
  induction data generalizing u with
  | nil => rfl
  | cons b data ih =>
    rw [List.length_cons] at hfit ⊢
    have hb := toNat_len_absorbByte (u := u) b (by omega)
    rw [absorb_cons, ih (by omega), hb]
    omega

theorem fill_absorb (u : HashUnit v) (data : Bytes) :
    (absorb u data).fill.val = (u.fill.val + data.length) % v.blockBytes := by
  induction data generalizing u with
  | nil => exact (Nat.mod_eq_of_lt u.fill.isLt).symm
  | cons b data ih =>
    rw [absorb_cons, ih, fill_absorbByte, List.length_cons, Nat.mod_add_mod, Nat.add_right_comm, Nat.add_assoc]

/-- The byte that completes a block: the block is the bytes stored so far and this one. -/
theorem absorbByte_completes (b : Byte) (hm : u.buf.wf v.blockBytes = true) (hfull : u.fill.val + 1 = v.blockBytes) :
    (absorbByte u b).h = compress v u.h (u.buf.readBytes 0 u.fill.val ++ [b]) ∧ (absorbByte u b).fill.val = 0 ∧
      (absorbByte u b).buf = Memory.cleared := by
  rw [absorbByte_full b (by omega)]
  exact ⟨congrArg (compress v u.h) (Memory.readBytes_write_last hm hfull b), rfl, rfl⟩

/-! ### The obligations -/

/-- Settles O18: one byte is `absorbByte`, and the rest of an operand is absorbed by the unit it leaves. -/
theorem hashUpdate : Obligations.HashUpdate := by
  refine ⟨fun v sel b s hv hm hfit => ?_, fun sel s hsel => ?_, fun sel data s h => withVariant_of_one_lt h s _⟩
  · have hlen := toNat_len_absorbByte b hfit
    refine ⟨respond [] (setUnit v (absorbByte (getUnit s v) b) s), ?_, rfl, fun x hx => ?_, ?_, fun data => ?_, ?_⟩
    · rw [exec_hashUpdate hv, if_pos (by simpa using hfit)]
      rfl
    · exact (same_setUnit hx _ s).trans (same_respond x [] _).symm
    · simpa using hlen
    · have hsum : (getUnit s v).len.toNat + 8 + 8 * data.length = (getUnit s v).len.toNat + 8 * (data.length + 1) := by
        omega
      simp [exec_hashUpdate hv, hlen, hsum]
    · simp only [getUnit_respond, getUnit_setUnit_same]
      split
      · next hfull =>
        obtain ⟨hh, hfill, hbuf⟩ := absorbByte_completes b hm hfull
        rw [show v.blockBytes - 1 = (getUnit s v).fill.val by omega]
        exact ⟨hh, hfill, fun a => by rw [hbuf, Memory.read_cleared]⟩
      · next hroom =>
        rw [absorbByte_room b (by have := (getUnit s v).fill.isLt; omega)]
        exact ⟨rfl, rfl, fun a => Memory.read_write hm _ a b⟩
  · obtain ⟨v, hv⟩ := exists_variantOf_eq_some hsel
    rw [exec_hashUpdate hv, if_pos (by simpa using (getUnit s v).len.isLt), absorb_nil, setUnit_getUnit]
    rfl

/-- Settles O20: `exec` compares the same count that `absorb` adds up, so no count wraps. -/
theorem hashLengthBound : Obligations.HashLengthBound := by
  intro v sel m s hv
  refine ⟨fun hfit => ⟨absorb (getUnit s v) m, ?_, toNat_len_absorb m hfit, fill_absorb _ m, ?_⟩, fun hlong => ?_,
    fun hfit => ?_, fun hlong => ?_⟩
  · rw [exec_hashUpdate hv, if_pos hfit]
  · rintro rfl
    rfl
  · rw [exec_hashUpdate hv, if_neg hlong.not_gt]
  · exact ⟨_, _, (exec_hashDigest hv m s).trans (if_pos hfit), rfl⟩
  · rw [exec_hashDigest hv, if_neg hlong.not_gt]

end Sys2Proof.Machine
end

section
/-! PROOFS. `HASH_FINAL` pads into one block or two (R66). -/

namespace Sys2Proof.Machine

/-- A byte stored where a buffer's zeros begin: the bytes before it, the byte, and the zeros that stay. -/
theorem Memory.readBytes_write_zeros {size : Nat} {m : Memory} (hm : m.wf size = true) {a : Nat}
    (hz : ∀ x, a ≤ x → m.read x = 0#8) (b : Byte) {n : Nat} (hn : a + 1 ≤ n) :
    (m.write a b).readBytes 0 n = m.readBytes 0 a ++ [b] ++ zeros (n - (a + 1)) := by
  obtain ⟨k, rfl⟩ := Nat.exists_eq_add_of_le hn
  rw [Memory.readBytes_add, Memory.readBytes_write_succ hm, Memory.readBytes_eq_zeros (a := 0 + (a + 1)),
    Nat.add_sub_cancel_left]
  intro x hx
  rw [Memory.read_write hm, if_neg (by omega), hz x (by omega)]

variable {v : Variant} {u : HashUnit v}

theorem lenBytes_le_blockBytes (v : Variant) : v.lenBytes ≤ v.blockBytes := by cases v <;> decide

/-- The last block of a message: what the buffer holds before the length field, then the length. -/
theorem readBytes_write_length {m : Memory} (hm : m.wf v.blockBytes = true) (n : Nat) :
    (m.writeBytes (v.blockBytes - v.lenBytes) (beBytes v.lenBytes n)).readBytes 0 v.blockBytes =
      m.readBytes 0 (v.blockBytes - v.lenBytes) ++ beBytes v.lenBytes n :=
  Memory.readBytes_writeBytes_end hm (by rw [length_beBytes, Nat.sub_add_cancel (lenBytes_le_blockBytes v)])

section
variable (hm : u.buf.wf v.blockBytes = true) (hz : ∀ a, u.fill.val ≤ a → u.buf.read a = 0#8)
include hm hz

theorem h_padAndCompress_of_fits (hfits : u.fill.val + 1 ≤ v.blockBytes - v.lenBytes) :
    (padAndCompress u).h =
      compress v u.h (u.buf.readBytes 0 u.fill.val ++ [0x80#8] ++ zeros (v.blockBytes - v.lenBytes - (u.fill.val + 1))
        ++ beBytes v.lenBytes u.len.toNat) := by
  simp only [padAndCompress, if_neg hfits.not_gt, compressBuffer]
  rw [readBytes_write_length (Memory.wf_write hm u.fill.isLt _), Memory.readBytes_write_zeros hm hz _ hfits]

theorem h_padAndCompress_of_spills (hspills : ¬u.fill.val + 1 ≤ v.blockBytes - v.lenBytes) :
    (padAndCompress u).h =
      compress v
        (compress v u.h (u.buf.readBytes 0 u.fill.val ++ [0x80#8] ++ zeros (v.blockBytes - (u.fill.val + 1))))
        (zeros (v.blockBytes - v.lenBytes) ++ beBytes v.lenBytes u.len.toNat) := by
  simp only [padAndCompress, if_pos (not_le.mp hspills), compressBuffer]
  rw [readBytes_write_length (Memory.wf_cleared _), Memory.readBytes_write_zeros hm hz _ u.fill.isLt,
    Memory.readBytes_eq_zeros fun x _ => Memory.read_cleared x]

end

/-- Settles O21: `padAndCompress` builds each padding block in the buffer, where it reads as the string R66 asks for. -/
theorem hashFinal : Obligations.HashFinal := by
  refine ⟨fun v sel s hv hm hz => ⟨(padAndCompress (getUnit s v)).h, exec_hashFinal hv s, ?_⟩,
    fun sel s h => withVariant_of_one_lt h s _⟩
  dsimp only
  split
  · next hfits => exact h_padAndCompress_of_fits hm hz hfits
  · next hspills => exact h_padAndCompress_of_spills hm hz hspills

end Sys2Proof.Machine
end

section
/-! PROOFS. A message streamed through a hash unit has the digest R69 defines: what the unit holds after each byte
(R15, R65), and the padding of R66 against that of R69. -/

namespace Sys2Proof.Machine

/-! ### The whole blocks of a string -/

theorem slice_append_left {p : Bytes} {a n : Nat} (h : a + n ≤ p.length) (r : Bytes) :
    slice (p ++ r) a n = slice p a n := by
  rw [slice, slice, List.drop_append_of_le_length (by omega), List.take_append_of_le_length (by simp; omega)]

theorem slice_append_right (p r : Bytes) (a n : Nat) : slice (p ++ r) (p.length + a) n = slice r a n := by
  rw [slice, slice, List.drop_append, List.drop_eq_nil_of_le (Nat.le_add_right ..), Nat.add_sub_cancel_left, List.nil_append]

theorem blocks_append {p : Bytes} {n k : Nat} (h : p.length = n * k) (j : Nat) (r : Bytes) :
    blocks n (k + j) (p ++ r) = blocks n k p ++ blocks n j r := by
  simp only [blocks, List.range_add, List.map_append, List.map_map]
  congr 1
  · refine List.map_congr_left fun i hi => slice_append_left ?_ r
    rw [h, ← Nat.mul_succ]
    exact Nat.mul_le_mul_left n (List.mem_range.mp hi)
  · refine List.map_congr_left fun i _ => ?_
    rw [Function.comp_apply, Nat.mul_add, ← h, slice_append_right]

/-- The whole blocks of a string, compressed in order (R69). -/
def compressBlocks (v : Variant) (H : Vector (BitVec v.wordBits) 8) (m : Bytes) : Vector (BitVec v.wordBits) 8 :=
  (blocks v.blockBytes (m.length / v.blockBytes) m).foldl (compress v) H

variable {v : Variant}

theorem digest_eq_digestBytes_compressBlocks (m : Bytes) :
    digest v m = digestBytes v (compressBlocks v (h0 v) (padded v m)) := rfl

@[simp] theorem compressBlocks_nil (H : Vector (BitVec v.wordBits) 8) : compressBlocks v H [] = H := by
  simp [compressBlocks, blocks]

theorem compressBlocks_append (H : Vector (BitVec v.wordBits) 8) {p : Bytes} (hp : v.blockBytes ∣ p.length) (r : Bytes) :
    compressBlocks v H (p ++ r) = compressBlocks v (compressBlocks v H p) r := by
  simp only [compressBlocks, List.length_append, Nat.add_div_of_dvd_right hp,
    blocks_append (Nat.mul_div_cancel' hp).symm, List.foldl_append]

theorem compressBlocks_of_length_eq (H : Vector (BitVec v.wordBits) 8) {b : Bytes} (hb : b.length = v.blockBytes) :
    compressBlocks v H b = compress v H b := by
  have hslice : slice b 0 v.blockBytes = b := by rw [slice, List.drop_zero, ← hb, List.take_length]
  simp [compressBlocks, blocks, hb, Nat.div_self (blockBytes_pos v), hslice]

/-! ### What a unit holds of a message -/

theorem HashUnit.inv_init (v : Variant) : (HashUnit.init v).Inv :=
  ⟨rfl, by simp, by simp, fun _ _ => rfl⟩

/-- A byte within the length field keeps R15's invariant. -/
theorem HashUnit.Inv.absorbByte {u : HashUnit v} (hu : u.Inv) (b : Byte) (hfit : u.len.toNat + 8 < 2 ^ v.lenBits) :
    (absorbByte u b).Inv := by
  obtain ⟨hm, hmod, hfill, hz⟩ := hu
  refine ⟨wf_absorbByte b hm, ?_, ?_, fun a ha => ?_⟩
  · rw [toNat_len_absorbByte b hfit, Nat.add_mod_right, hmod]
  · rw [fill_absorbByte, toNat_len_absorbByte b hfit, hfill, Nat.add_div_right _ (by decide), Nat.mod_add_mod]
  · by_cases hr : u.fill.val + 1 < v.blockBytes
    · rw [absorbByte_room b hr] at ha ⊢
      dsimp only at ha ⊢
      rw [Memory.read_write hm, if_neg (by omega), hz a (by omega)]
    · rw [absorbByte_full b hr]
      exact Memory.read_cleared a

/-- The unit has taken in exactly the message `m`: its whole blocks are in `H_v`, the rest is in `BUF_v`. -/
structure HashUnit.Holds (u : HashUnit v) (m : Bytes) : Prop where
  inv : u.Inv
  len : u.len.toNat = 8 * m.length
  split : ∃ p, v.blockBytes ∣ p.length ∧ m = p ++ u.buf.readBytes 0 u.fill.val ∧ u.h = compressBlocks v (h0 v) p

theorem HashUnit.holds_init (v : Variant) : (HashUnit.init v).Holds [] :=
  ⟨HashUnit.inv_init v, by simp, [], by simp, rfl, (compressBlocks_nil _).symm⟩

theorem HashUnit.Holds.fill {u : HashUnit v} {m : Bytes} (hu : u.Holds m) : u.fill.val = m.length % v.blockBytes := by
  obtain ⟨-, -, hfill, -⟩ := hu.inv
  rw [hfill, hu.len, Nat.mul_div_cancel_left _ (by decide)]

theorem HashUnit.Holds.absorbByte {u : HashUnit v} {m : Bytes} (hu : u.Holds m) (b : Byte)
    (hfit : 8 * (m.length + 1) < 2 ^ v.lenBits) : (absorbByte u b).Holds (m ++ [b]) := by
  have hlen : u.len.toNat + 8 < 2 ^ v.lenBits := by rw [hu.len]; omega
  have hm := hu.inv.1
  obtain ⟨p, hp, rfl, hh⟩ := hu.split
  refine ⟨hu.inv.absorbByte b hlen, ?_, ?_⟩
  · rw [toNat_len_absorbByte b hlen, hu.len, List.length_append (bs := [b]), List.length_singleton, Nat.mul_add]
  · by_cases hr : u.fill.val + 1 < v.blockBytes
    · refine ⟨p, hp, ?_, ?_⟩
      · rw [absorbByte_room b hr, List.append_assoc]
        exact congrArg (p ++ ·) (Memory.readBytes_write_succ hm _ b).symm
      · rw [absorbByte_room b hr, hh]
    · have hfull : u.fill.val + 1 = v.blockBytes := by have := u.fill.isLt; omega
      obtain ⟨hh', hfill', -⟩ := absorbByte_completes b hm hfull
      have hblock : (u.buf.readBytes 0 u.fill.val ++ [b]).length = v.blockBytes := by simpa using hfull
      refine ⟨p ++ (u.buf.readBytes 0 u.fill.val ++ [b]), ?_, ?_, ?_⟩
      · rw [List.length_append, hblock]
        exact dvd_add hp (dvd_refl _)
      · rw [hfill', Memory.readBytes_zero, List.append_nil, List.append_assoc]
      · rw [hh', hh, compressBlocks_append _ hp, compressBlocks_of_length_eq _ hblock]

theorem HashUnit.Holds.absorb {u : HashUnit v} {m : Bytes} (hu : u.Holds m) (data : Bytes)
    (hfit : 8 * (m.length + data.length) < 2 ^ v.lenBits) : (absorb u data).Holds (m ++ data) := by
  induction data generalizing u m with
  | nil => simpa using hu
  | cons b data ih =>
    rw [List.length_cons] at hfit
    rw [absorb_cons, List.append_cons]
    exact ih (hu.absorbByte b (by omega)) (by rw [List.length_append, List.length_singleton]; omega)

/-! ### The padding (R66, R69) -/

theorem padZeros_of_fits {n : Nat} (h : n % v.blockBytes + 1 ≤ v.blockBytes - v.lenBytes) :
    padZeros v n = v.blockBytes - v.lenBytes - (n % v.blockBytes + 1) := by
  cases v <;> simp only [padZeros, Variant.lenBytes, Variant.blockBytes] at h ⊢ <;> omega

theorem padZeros_of_spills {n : Nat} (h : ¬n % v.blockBytes + 1 ≤ v.blockBytes - v.lenBytes) :
    padZeros v n = v.blockBytes - (n % v.blockBytes + 1) + (v.blockBytes - v.lenBytes) := by
  cases v <;> simp only [padZeros, Variant.lenBytes, Variant.blockBytes] at h ⊢ <;> omega

theorem zeros_add (n k : Nat) : zeros (n + k) = zeros n ++ zeros k := List.replicate_add n k 0#8

/-- The blocks `HASH_FINAL` compresses are the last ones of R69's padded message. -/
theorem HashUnit.Holds.h_padAndCompress {u : HashUnit v} {m : Bytes} (hu : u.Holds m) :
    (padAndCompress u).h = compressBlocks v (h0 v) (padded v m) := by
  have hle := lenBytes_le_blockBytes v
  obtain ⟨hm, -, -, hz⟩ := hu.inv
  obtain ⟨p, hp, hsplit, hh⟩ := hu.split
  have hpadded : padded v m = p ++ (u.buf.readBytes 0 u.fill.val ++ [0x80#8] ++ zeros (padZeros v m.length) ++
      beBytes v.lenBytes u.len.toNat) := by
    rw [padded, ← hu.len]
    simp only [← List.append_assoc, ← hsplit]
  rw [hpadded, compressBlocks_append _ hp, ← hh]
  by_cases hfits : u.fill.val + 1 ≤ v.blockBytes - v.lenBytes
  · rw [h_padAndCompress_of_fits hm hz hfits, padZeros_of_fits (hu.fill ▸ hfits), ← hu.fill,
      compressBlocks_of_length_eq]
    simp
    omega
  · have hfirst : (u.buf.readBytes 0 u.fill.val ++ [0x80#8] ++ zeros (v.blockBytes - (u.fill.val + 1))).length =
        v.blockBytes := by simp; omega
    have hsecond : (zeros (v.blockBytes - v.lenBytes) ++ beBytes v.lenBytes u.len.toNat).length = v.blockBytes := by
      simp [Nat.sub_add_cancel hle]
    rw [h_padAndCompress_of_spills hm hz hfits, padZeros_of_spills (hu.fill ▸ hfits), ← hu.fill, zeros_add,
      ← List.append_assoc, List.append_assoc _ (zeros (v.blockBytes - v.lenBytes)),
      compressBlocks_append _ (dvd_of_eq hfirst.symm), compressBlocks_of_length_eq _ hfirst,
      compressBlocks_of_length_eq _ hsecond]

theorem HashUnit.Holds.finalDigest {u : HashUnit v} {m : Bytes} (hu : u.Holds m) : finalDigest u = digest v m :=
  congrArg (digestBytes v) hu.h_padAndCompress

/-- R69 for one message: an initialised unit that has absorbed it gives its digest. -/
theorem finalDigest_absorb_init {m : Bytes} (hfit : 8 * m.length < 2 ^ v.lenBits) :
    finalDigest (absorb (HashUnit.init v) m) = digest v m :=
  ((HashUnit.holds_init v).absorb m (by simpa using hfit)).finalDigest

/-- Settles O22: the unit streams R69's padded message, and the three commands pass through the same unit states. -/
theorem hashDigest : Obligations.HashDigest := by
  refine ⟨fun v sel m s hv hfit => ?_, fun sel m s h => withVariant_of_one_lt h s _⟩
  have hexec : exec (.hashDigest sel m) s = .next (respond (digest v m) (setUnit v (HashUnit.init v) s)) := by
    rw [exec_hashDigest hv, if_pos hfit, finalDigest_absorb_init hfit]
  refine ⟨hexec, hexec.trans ?_⟩
  simp [runAll, exec_hashInit hv, exec_hashUpdate hv, exec_hashFinal hv, hfit, finalDigest_absorb_init hfit]

end Sys2Proof.Machine
end

section
/-! PROOFS. The compression function `COMPRESS_v` (R63): its schedule, its constants (R61, R62) and its rounds. -/

namespace Sys2Proof.Machine

variable {v : Variant}

/-! ### The message schedule -/

theorem extendSchedule_succ (v : Variant) (n : Nat) (ws : List (BitVec v.wordBits)) :
    extendSchedule v (n + 1) ws = nextWord v (extendSchedule v n ws) :: extendSchedule v n ws := by
  induction n generalizing ws with
  | zero => rfl
  | succ n ih => exact ih (nextWord v ws :: ws)

@[simp] theorem length_extendSchedule (n : Nat) (ws : List (BitVec v.wordBits)) :
    (extendSchedule v n ws).length = n + ws.length := by
  induction n with
  | zero => exact (Nat.zero_add _).symm
  | succ n ih => rw [extendSchedule_succ, List.length_cons, ih, Nat.add_right_comm]

@[simp] theorem length_messageWords (v : Variant) (block : Bytes) : (messageWords v block).length = 16 := by
  simp [messageWords]

/-- The first `16 + n` schedule words, latest first. -/
def scheduleSoFar (v : Variant) (block : Bytes) (n : Nat) : List (BitVec v.wordBits) :=
  extendSchedule v n (messageWords v block).reverse

@[simp] theorem length_scheduleSoFar (block : Bytes) (n : Nat) : (scheduleSoFar v block n).length = n + 16 := by
  simp [scheduleSoFar]

theorem scheduleSoFar_succ (v : Variant) (block : Bytes) (n : Nat) :
    scheduleSoFar v block (n + 1) = nextWord v (scheduleSoFar v block n) :: scheduleSoFar v block n :=
  extendSchedule_succ v n _

theorem schedule_eq_reverse_scheduleSoFar (v : Variant) (block : Bytes) :
    schedule v block = (scheduleSoFar v block (v.rounds - 16)).reverse := rfl

theorem length_schedule (v : Variant) (block : Bytes) : (schedule v block).length = v.rounds := by
  rw [schedule_eq_reverse_scheduleSoFar, List.length_reverse, length_scheduleSoFar]
  cases v <;> rfl

/-- Words once computed stay: every shorter list of schedule words starts the longer ones. -/
theorem scheduleSoFar_reverse_isPrefix (block : Bytes) {n k : Nat} (h : n ≤ k) :
    (scheduleSoFar v block n).reverse <+: (scheduleSoFar v block k).reverse := by
  induction k, h using Nat.le_induction with
  | base => exact List.prefix_rfl
  | succ k _ ih =>
    rw [scheduleSoFar_succ, List.reverse_cons]
    exact ih.trans (List.prefix_append ..)

/-- Schedule word `t`, in the list of words so far, latest first. -/
theorem getD_schedule {block : Bytes} {n t i : Nat} (hn : n ≤ v.rounds - 16) (ht : t + i + 1 = n + 16) :
    (schedule v block).getD t 0 = (scheduleSoFar v block n).getD i 0 := by
  obtain ⟨later, hlater⟩ := scheduleSoFar_reverse_isPrefix (v := v) block hn
  rw [schedule_eq_reverse_scheduleSoFar, ← hlater, List.getD_append _ _ _ _ (by simp; omega),
    List.getD_reverse _ (by simp; omega), length_scheduleSoFar]
  congr 1
  omega

theorem getD_schedule_of_lt {block : Bytes} {t : Nat} (ht : t < 16) :
    (schedule v block).getD t 0 = BitVec.ofNat v.wordBits (beNat (slice block (t * v.wordBytes) v.wordBytes)) := by
  rw [getD_schedule (n := 0) (i := 15 - t) (Nat.zero_le _) (by omega), scheduleSoFar, extendSchedule,
    List.getD_reverse _ (by simp; omega), length_messageWords]
  have hsub : 16 - 1 - (15 - t) = t := by omega
  simp [hsub, messageWords, blocks, List.getD_eq_getElem?_getD, ht, Nat.mul_comm]

theorem getD_schedule_of_le {block : Bytes} {t : Nat} (hle : 16 ≤ t) (hlt : t < v.rounds) :
    (schedule v block).getD t 0 =
      ssig1 v ((schedule v block).getD (t - 2) 0) + (schedule v block).getD (t - 7) 0 +
        ssig0 v ((schedule v block).getD (t - 15) 0) + (schedule v block).getD (t - 16) 0 := by
  obtain ⟨n, rfl⟩ := Nat.exists_eq_add_of_le' hle
  have word (i : Nat) (hi : i < 16) :
      (schedule v block).getD (n + 16 - (i + 1)) 0 = (scheduleSoFar v block n).getD i 0 :=
    getD_schedule (by omega) (by omega)
  rw [getD_schedule (n := n + 1) (i := 0) (by omega) (by omega), scheduleSoFar_succ, List.getD_cons_zero, nextWord,
    ← word 1 (by decide), ← word 6 (by decide), ← word 14 (by decide), ← word 15 (by decide)]

/-! ### The round constants (R61, R62) -/

/-- The primes below 410, the first 80 of them. -/
def smallPrimes : List Nat :=
  (List.range 410).filter fun m => decide (2 ≤ m ∧ ∀ d ∈ List.range m, 2 ≤ d → m % d ≠ 0)

/-- `k` is the first `w` bits of the fractional part of the cube root of `p`. -/
abbrev CubeRootBits (w p k : Nat) : Prop :=
  ∃ root < 8, (root * 2 ^ w + k) ^ 3 ≤ p * 2 ^ (3 * w) ∧ p * 2 ^ (3 * w) < (root * 2 ^ w + k + 1) ^ 3

theorem length_roundConstants (v : Variant) : (roundConstants v).length = v.rounds := by cases v <;> rfl

theorem smallPrimes_eq : smallPrimes = [
    2, 3, 5, 7, 11, 13, 17, 19, 23, 29, 31, 37, 41, 43, 47, 53, 59, 61, 67, 71, 73, 79, 83, 89, 97, 101, 103,
    107, 109, 113, 127, 131, 137, 139, 149, 151, 157, 163, 167, 173, 179, 181, 191, 193, 197, 199, 211, 223,
    227, 229, 233, 239, 241, 251, 257, 263, 269, 271, 277, 281, 283, 293, 307, 311, 313, 317, 331, 337, 347,
    349, 353, 359, 367, 373, 379, 383, 389, 397, 401, 409 ] := by
  decide +kernel

theorem length_smallPrimes : smallPrimes.length = 80 := by rw [smallPrimes_eq]; rfl

/-- Prime by prime, the tables of R61 and R62 against what those rules say they are. -/
theorem cubeRootBits_of_mem_zip (v : Variant) :
    ∀ x ∈ smallPrimes.zip (roundConstants v), CubeRootBits v.wordBits x.1 x.2.toNat := by
  rw [smallPrimes_eq]
  cases v <;> decide +kernel

theorem exists_prime_cubeRootBits {t : Nat} (ht : t < v.rounds) :
    ∃ p, smallPrimes[t]? = some p ∧ CubeRootBits v.wordBits p ((roundConstants v).getD t 0).toNat := by
  have hp : t < smallPrimes.length := by
    rw [length_smallPrimes]
    cases v <;> simp only [Variant.rounds] at ht <;> omega
  have hk : t < (roundConstants v).length := by rwa [length_roundConstants]
  refine ⟨smallPrimes[t], List.getElem?_eq_getElem hp, ?_⟩
  rw [List.getD_eq_getElem _ _ hk]
  have hmem : (smallPrimes[t], (roundConstants v)[t]) ∈ smallPrimes.zip (roundConstants v) := by
    rw [← List.getElem_zip (h := by simp [hp, hk])]
    exact List.getElem_mem _
  exact cubeRootBits_of_mem_zip v _ hmem

/-! ### The rounds -/

/-- The constant and the schedule word of each round (R63). -/
def roundInputs (v : Variant) (block : Bytes) : List (BitVec v.wordBits × BitVec v.wordBits) :=
  (roundConstants v).zip (schedule v block)

/-- The working variables before round `t` (R63). -/
def workVarsAt (v : Variant) (H : Vector (BitVec v.wordBits) 8) (block : Bytes) (t : Nat) : WorkVars v :=
  ((roundInputs v block).take t).foldl (hashRound v)
    { a := H[0], b := H[1], c := H[2], d := H[3], e := H[4], f := H[5], g := H[6], h := H[7] }

theorem length_roundInputs (v : Variant) (block : Bytes) : (roundInputs v block).length = v.rounds := by
  rw [roundInputs, List.length_zip, length_roundConstants, length_schedule, Nat.min_self]

theorem workVarsAt_succ (H : Vector (BitVec v.wordBits) 8) (block : Bytes) {t : Nat} (ht : t < v.rounds) :
    workVarsAt v H block (t + 1) =
      hashRound v (workVarsAt v H block t) ((roundConstants v).getD t 0, (schedule v block).getD t 0) := by
  have hi : t < (roundInputs v block).length := by rwa [length_roundInputs]
  rw [workVarsAt, List.take_succ_eq_append_getElem hi, List.foldl_append, List.foldl_cons, List.foldl_nil,
    List.getD_eq_getElem _ _ (by rwa [length_roundConstants]), List.getD_eq_getElem _ _ (by rwa [length_schedule])]
  simp only [roundInputs, List.getElem_zip]
  rfl

/-- The feed-forward: `H` plus the working variables after the last round (R63). -/
theorem compress_eq_add_workVarsAt (H : Vector (BitVec v.wordBits) 8) (block : Bytes) :
    compress v H block =
      (let x := workVarsAt v H block v.rounds
      #v[H[0] + x.a, H[1] + x.b, H[2] + x.c, H[3] + x.d, H[4] + x.e, H[5] + x.f, H[6] + x.g, H[7] + x.h]) := by
  rw [workVarsAt, List.take_of_length_le (length_roundInputs v block).le]
  rfl

/-- Settles O25: the schedule, the constants and the rounds, each proved for both variants; what is left is to read the
parameters off the variant. -/
theorem compressionFunction : Obligations.CompressionFunction := by
  intro v
  have words (block : Bytes) (t : Nat) := getD_schedule_of_le (v := v) (block := block) (t := t)
  have constants (t : Nat) (ht : t < v.rounds) := exists_prime_cubeRootBits ht
  cases v <;>
    exact fun H block => ⟨length_schedule _ block, fun _ => getD_schedule_of_lt, words block,
      fun t ht => (constants t ht).imp fun p ⟨hp, root, _, hroot⟩ => ⟨root, hp, hroot⟩,
      workVarsAt _ H block, rfl, fun _ => workVarsAt_succ H block, compress_eq_add_workVarsAt H block⟩

end Sys2Proof.Machine
end

section
/-! PROOFS. The keyed-hash function over its prepared key (R80) and what each HMAC command answers (R81 to R83). -/

namespace Sys2Proof.Machine

variable {v : Variant}

/-! ### The prepared key and the pads (R80) -/

theorem getD_append_zeros (s : Bytes) (n j : Nat) : (s ++ zeros n).getD j 0#8 = s.getD j 0#8 := by
  by_cases hj : j < s.length
  · exact List.getD_append _ _ _ _ hj
  · have hle : s.length ≤ j := not_lt.mp hj
    rw [List.getD_append_right _ _ _ _ hle, List.getD_eq_default _ _ hle, zeros, List.getD_eq_getElem?_getD,
      List.getElem?_getD_replicate_default_eq]

/-- XOR with a repeated byte is XOR of every byte with it. -/
theorem xorBytes_rep (s : Bytes) (b : Byte) : xorBytes s (rep b s.length) = s.map (· ^^^ b) := by
  induction s with
  | nil => rfl
  | cons x s ih => exact congrArg ((x ^^^ b) :: ·) ih

theorem getD_hmacK0 (v : Variant) (key : Bytes) (j : Nat) : (hmacK0 v key).getD j 0#8 = (hmacKey v key).getD j 0#8 :=
  getD_append_zeros ..

/-- A string of B bytes that begins with the key, hashed where it is too long, and goes on with zeros is the prepared key. -/
theorem eq_hmacK0 {key k0 : Bytes} (hlen : k0.length = v.blockBytes)
    (hbyte : ∀ j, j < v.blockBytes → k0.getD j 0#8 = (hmacKey v key).getD j 0#8) : k0 = hmacK0 v key := by
  refine List.ext_getElem (by rw [hlen, length_hmacK0]) fun j hj hj' => ?_
  rw [← List.getD_eq_getElem _ 0#8 hj, ← List.getD_eq_getElem _ 0#8 hj', getD_hmacK0, hbyte j (hlen ▸ hj)]

theorem hmac_eq_digest_hmacK0 (v : Variant) (key message : Bytes) :
    hmac v key message =
      digest v ((hmacK0 v key).map (· ^^^ 0x5c#8) ++ digest v ((hmacK0 v key).map (· ^^^ 0x36#8) ++ message)) := by
  simp only [hmac, ← xorBytes_rep, length_hmacK0]

/-- Settles O27: the obligation's string is `hmacK0`, and each pad is one byte repeated. -/
theorem hmacFunction : Obligations.HmacFunction := by
  intro v key message k0 hlen hbyte
  rw [eq_hmacK0 hlen hbyte, hmac_eq_digest_hmacK0]

/-! ### The commands (R81 to R83) -/

theorem hmacDomain_iff {key message : Bytes} :
    hmacDomain v key message = true ↔
      (v.blockBytes < key.length → 8 * key.length < 2 ^ v.lenBits) ∧
        8 * (v.blockBytes + message.length) < 2 ^ v.lenBits := by
  simp only [hmacDomain, digestDomain, Bool.and_eq_true, Bool.or_eq_true, decide_eq_true_eq, ← not_lt, ← imp_iff_not_or]

theorem exec_hmacConfig {sel : BitVec 8} (h : variantOf sel = some v) (s : State) :
    exec (.hmacConfig sel) s = .next (respond [] (setHmacConfig v s)) :=
  withVariant_of_eq_some h s _

theorem exec_hmacDigest_of_not_configured (key message : Bytes) {s : State} (h : s.hmac.hcfg = false) :
    exec (.hmacDigest key message) s = .next (raise .notConfigured s) := by
  change require .notConfigured s.hmac.hcfg s _ = _
  rw [h, require_false, failed]

theorem exec_hmacDigest_of_configured (key message : Bytes) {s : State} (h : s.hmac.hcfg = true) :
    exec (.hmacDigest key message) s =
      if hmacDomain s.hmac.hsel key message then
        .next (respond (hmac s.hmac.hsel key message)
          (setUnit s.hmac.hsel (HashUnit.init s.hmac.hsel) (setHout (houtOf (hmac s.hmac.hsel key message)) s)))
      else .refused .hashLengthOutOfDomain := by
  change require .notConfigured s.hmac.hcfg s _ = _
  rw [h, require_true]
  rfl

theorem digestBytes_le (v : Variant) : v.digestBytes ≤ 64 := by cases v <;> decide

/-- Settles O28: `houtOf` stores a result of at most 64 bytes in a cleared `HOUT`. -/
theorem hmacDigest : Obligations.HmacDigest := by
  refine fun key message s => ⟨exec_hmacDigest_of_not_configured key message, fun hcfg hkey hmessage => ?_⟩
  have hlen := length_hmac s.hmac.hsel key message
  have hfits := hlen.trans_le (digestBytes_le _)
  exact ⟨houtOf (hmac s.hmac.hsel key message),
    (exec_hmacDigest_of_configured key message hcfg).trans (if_pos (hmacDomain_iff.mpr ⟨hkey, hmessage⟩)),
    hlen, wf_houtOf hfits, read_houtOf hfits⟩

theorem Memory.readBytes_from_zero (m : Memory) (n : Nat) : m.readBytes 0 n = (List.range n).map m.read := by
  simp only [Memory.readBytes, Nat.zero_add]

theorem exec_hmacRead (s : State) :
    exec .hmacRead s =
      .next (respond (if s.hmac.hcfg then (List.range s.hmac.hsel.digestBytes).map s.hmac.hout.read else []) s) := by
  rw [← Memory.readBytes_from_zero]
  rfl

/-- Settles O26: `setHmacConfig` writes no `HOUT`, and `respond` writes no element. -/
theorem hmacConfigRead : Obligations.HmacConfigRead :=
  ⟨exec_hmacConfig (v := .s32) rfl, exec_hmacConfig (v := .s64) rfl, fun _ s h => withVariant_of_one_lt h s _,
    exec_hmacRead⟩

end Sys2Proof.Machine
end

section
/-! PROOFS. The bytes of round-key words (R92), and key expansion word by word (R95). -/

namespace Sys2Proof.Machine

/-! ### The bytes of a word (R92) -/

@[simp] theorem length_wordBytes (x : BitVec 32) : (wordBytes x).length = 4 := length_beBytes 4 x.toNat

theorem wordBytes_eq (x : BitVec 32) :
    wordBytes x = [x.extractLsb' 24 8, x.extractLsb' 16 8, x.extractLsb' 8 8, x.extractLsb' 0 8] := by
  simp [wordBytes, beBytes, BitVec.extractLsb', Nat.shiftRight_eq_div_pow]

theorem wordBytes_wordOfBytes {b : Bytes} (h : b.length = 4) : wordBytes (wordOfBytes b) = b := by
  obtain ⟨b0, b1, b2, b3, rfl⟩ := List.length_eq_four.mp h
  simp only [wordBytes, wordOfBytes, beBytes, beNat, List.foldl, List.cons.injEq, and_true]
  refine ⟨?_, ?_, ?_, ?_⟩ <;> bv_omega

theorem wordBytes_xor (x y : BitVec 32) : wordBytes (x ^^^ y) = xorBytes (wordBytes x) (wordBytes y) := by
  simp [wordBytes_eq, xorBytes, BitVec.extractLsb'_xor]

theorem wordBytes_rotWord (t : BitVec 32) : wordBytes (rotWord t) = (wordBytes t).rotate 1 := by
  have hshift (lo : Nat) (hlo : lo + 8 ≤ 24) : (t.rotateLeft 8).extractLsb' (lo + 8) 8 = t.extractLsb' lo 8 := by
    ext i hi
    have hlow : ¬lo + 8 + i < 8 := by omega
    have hin : lo + 8 + i < 32 := by omega
    have hsub : lo + 8 + i - 8 = lo + i := by omega
    rw [BitVec.getElem_extractLsb', BitVec.getElem_extractLsb', BitVec.getLsbD_rotateLeft]
    simp [hlow, hin, hsub]
  have hwrap : (t.rotateLeft 8).extractLsb' 0 8 = t.extractLsb' 24 8 := by
    ext i hi
    simp [hi]
  rw [wordBytes_eq, wordBytes_eq, rotWord, hwrap, hshift 16 (by decide), hshift 8 (by decide), hshift 0 (by decide)]
  rfl

theorem wordBytes_subWord (t : BitVec 32) : wordBytes (subWord t) = (wordBytes t).map sbox :=
  wordBytes_wordOfBytes (by rw [List.length_map, length_wordBytes])

theorem wordBytes_setWidth_shiftLeft (b : Byte) : wordBytes (b.setWidth 32 <<< 24) = [b, 0#8, 0#8, 0#8] := by
  revert b
  decide

/-! ### One step of key expansion (R95) -/

/-- The bytes XORed with word `i − NK` to give word `i`, from the bytes of word `i − 1` (R95). -/
def keyTempBytes (nk i : Nat) : Bytes → Bytes
  | [t0, t1, t2, t3] =>
    if i % nk = 0 then [sbox t1 ^^^ rc (i / nk), sbox t2, sbox t3, sbox t0]
    else if 6 < nk ∧ i % nk = 4 then [sbox t0, sbox t1, sbox t2, sbox t3]
    else [t0, t1, t2, t3]
  | _ => []

theorem wordBytes_keyTemp (nk i : Nat) (prev : BitVec 32) :
    wordBytes (keyTemp nk i prev) = keyTempBytes nk i (wordBytes prev) := by
  obtain ⟨t0, t1, t2, t3, ht⟩ := List.length_eq_four.mp (length_wordBytes prev)
  rw [keyTemp, ht, keyTempBytes]
  split_ifs
  · rw [wordBytes_xor, wordBytes_subWord, wordBytes_rotWord, wordBytes_setWidth_shiftLeft, ht]
    simp [xorBytes]
  · rw [wordBytes_subWord, ht]
    rfl
  · exact ht

/-- The next round-key word, from the words so far, latest first (R95). -/
def nextKeyWord (nk i : Nat) (ws : List (BitVec 32)) : BitVec 32 :=
  ws.getD (nk - 1) 0 ^^^ keyTemp nk i (ws.getD 0 0)

theorem expandFrom_succ (nk n i : Nat) (ws : List (BitVec 32)) :
    expandFrom nk (n + 1) i ws = nextKeyWord nk (i + n) (expandFrom nk n i ws) :: expandFrom nk n i ws := by
  induction n generalizing i ws with
  | zero => rfl
  | succ n ih =>
    rw [Nat.add_comm n 1, ← Nat.add_assoc i 1 n, Nat.add_comm 1 n]
    exact ih (i + 1) (nextKeyWord nk i ws :: ws)

/-! ### The words of a schedule (R95) -/

variable {nk : KeyLen} {key : Bytes}

/-- The first `NK + n` round-key words, latest first. -/
def keyWordsSoFar (nk : KeyLen) (key : Bytes) (n : Nat) : List (BitVec 32) :=
  expandFrom nk.words n nk.words ((blocks 4 nk.words key).map wordOfBytes).reverse

theorem keyWordsSoFar_succ (nk : KeyLen) (key : Bytes) (n : Nat) :
    keyWordsSoFar nk key (n + 1) = nextKeyWord nk.words (nk.words + n) (keyWordsSoFar nk key n) :: keyWordsSoFar nk key n :=
  expandFrom_succ ..

@[simp] theorem length_keyWordsSoFar (nk : KeyLen) (key : Bytes) (n : Nat) :
    (keyWordsSoFar nk key n).length = nk.words + n := by
  induction n with
  | zero => simp [keyWordsSoFar, expandFrom]
  | succ n ih => rw [keyWordsSoFar_succ, List.length_cons, ih, Nat.add_assoc]

theorem keyWords_eq_reverse_keyWordsSoFar (nk : KeyLen) (key : Bytes) :
    keyWords nk key = (keyWordsSoFar nk key (4 * (nk.rounds + 1) - nk.words)).reverse := rfl

theorem length_keyWords (nk : KeyLen) (key : Bytes) : (keyWords nk key).length = 4 * (nk.words + 7) := by
  rw [keyWords_eq_reverse_keyWordsSoFar, List.length_reverse, length_keyWordsSoFar, KeyLen.rounds]
  omega

/-- Words once computed stay at the end of every longer list. -/
theorem keyWordsSoFar_isSuffix (nk : KeyLen) (key : Bytes) {n m : Nat} (h : n ≤ m) :
    keyWordsSoFar nk key n <:+ keyWordsSoFar nk key m := by
  induction m, h using Nat.le_induction with
  | base => exact List.suffix_rfl
  | succ m _ ih =>
    rw [keyWordsSoFar_succ]
    exact ih.trans (List.suffix_cons ..)

/-- Round-key word `t`, in the list of words so far, latest first. -/
theorem getD_keyWords {n t i : Nat} (hn : nk.words + n ≤ 4 * (nk.words + 7)) (ht : t + i + 1 = nk.words + n) :
    (keyWords nk key).getD t 0 = (keyWordsSoFar nk key n).getD i 0 := by
  obtain ⟨later, hlater⟩ := keyWordsSoFar_isSuffix nk key (n := n) (m := 4 * (nk.rounds + 1) - nk.words)
    (by rw [KeyLen.rounds]; omega)
  rw [keyWords_eq_reverse_keyWordsSoFar, ← hlater, List.reverse_append, List.getD_append _ _ _ _ (by simp; omega),
    List.getD_reverse _ (by simp; omega), length_keyWordsSoFar]
  congr 1
  omega

theorem getD_keyWords_of_lt {t : Nat} (ht : t < nk.words) :
    (keyWords nk key).getD t 0 = wordOfBytes (slice key (4 * t) 4) := by
  have hsub : nk.words - 1 - (nk.words - 1 - t) = t := by omega
  rw [getD_keyWords (n := 0) (i := nk.words - 1 - t) (by omega) (by omega), keyWordsSoFar, expandFrom,
    List.getD_reverse _ (by simp; omega)]
  simp [hsub, blocks, List.getD_eq_getElem?_getD, ht]

theorem getD_keyWords_of_le {t : Nat} (hpos : 0 < nk.words) (hle : nk.words ≤ t) (hlt : t < 4 * (nk.words + 7)) :
    (keyWords nk key).getD t 0 =
      (keyWords nk key).getD (t - nk.words) 0 ^^^ keyTemp nk.words t ((keyWords nk key).getD (t - 1) 0) := by
  obtain ⟨n, rfl⟩ := Nat.exists_eq_add_of_le hle
  rw [getD_keyWords (n := n + 1) (i := 0) (by omega) (by omega), keyWordsSoFar_succ, List.getD_cons_zero, nextKeyWord,
    getD_keyWords (n := n) (i := nk.words - 1) (by omega) (by omega), getD_keyWords (n := n) (i := 0) (by omega) (by omega)]

theorem getD_keySchedule {i : Nat} (hi : i < 60) : (keySchedule nk key).toList.getD i 0 = (keyWords nk key).getD i 0 := by
  simp [keySchedule, List.getD_eq_getElem?_getD, hi]

/-- R95's words, byte by byte: the key, then the expansion, then zeros. -/
theorem wordBytes_keySchedule (hpos : 0 < nk.words) (hkey : key.length = 4 * nk.words) {i : Nat} (hi : i < 60) :
    wordBytes ((keySchedule nk key).toList.getD i 0) =
      if i < nk.words then slice key (4 * i) 4
      else if i < 4 * (nk.words + 7) then
        xorBytes (wordBytes ((keySchedule nk key).toList.getD (i - nk.words) 0))
          (keyTempBytes nk.words i (wordBytes ((keySchedule nk key).toList.getD (i - 1) 0)))
      else [0#8, 0#8, 0#8, 0#8] := by
  rw [getD_keySchedule hi, getD_keySchedule (i := i - nk.words) (by omega), getD_keySchedule (i := i - 1) (by omega)]
  split_ifs with hfirst hschedule
  · rw [getD_keyWords_of_lt hfirst, wordBytes_wordOfBytes (by simp; omega)]
  · rw [getD_keyWords_of_le hpos (not_lt.mp hfirst) hschedule, wordBytes_xor, wordBytes_keyTemp]
  · rw [List.getD_eq_default _ _ (by rw [length_keyWords]; omega)]
    decide

/-! ### The command (R95) -/

theorem words_of_keyLenOf_eq_some {sel : BitVec 8} (h : keyLenOf sel = some nk) : nk.words = 4 + 2 * sel.toNat := by
  revert sel
  cases nk <;> decide

theorem exists_keyLenOf_eq_some {sel : BitVec 8} (h : sel.toNat ≤ 2) :
    ∃ nk, keyLenOf sel = some nk ∧ nk.words = 4 + 2 * sel.toNat := by
  obtain ⟨nk, hnk⟩ := Option.ne_none_iff_exists'.mp (mt keyLenOf_none.mp (not_lt.mpr h))
  exact ⟨nk, hnk, words_of_keyLenOf_eq_some hnk⟩

theorem exec_aesKeyexp_of_two_lt {sel : BitVec 8} (h : 2 < sel.toNat) (key : Bytes) (s : State) :
    exec (.aesKeyexp sel key) s = .next (raise .invalidSelector s) := by
  change execAesKeyexp sel key s = _
  rw [execAesKeyexp, keyLenOf_none.mpr h, failed]

theorem exec_aesKeyexp {sel : BitVec 8} (h : keyLenOf sel = some nk) (key : Bytes) (s : State) :
    exec (.aesKeyexp sel key) s =
      if key.length = 4 * nk.words then .next (respond [] (setKey nk (keySchedule nk key) s))
      else .next (raise .invalidInputLength s) := by
  change execAesKeyexp sel key s = _
  rw [execAesKeyexp, h]
  simp only [require, decide_eq_true_eq, done, failed]

/-- Settles O30: `keyLenOf` reads the selector, and `wordBytes_keySchedule` is R95's rule. -/
theorem aesKeyexp : Obligations.AesKeyexp := by
  refine fun sel key s => ⟨fun h => exec_aesKeyexp_of_two_lt h key s, fun hsel hlen => ?_, fun hsel hlen => ?_⟩
  · obtain ⟨nk, hnk, hwords⟩ := exists_keyLenOf_eq_some hsel
    exact (exec_aesKeyexp hnk key s).trans (if_neg (by omega))
  · obtain ⟨nk, hnk, hwords⟩ := exists_keyLenOf_eq_some hsel
    have hkey : key.length = 4 * nk.words := by omega
    exact ⟨nk, keySchedule nk key, hwords, (exec_aesKeyexp hnk key s).trans (if_pos hkey),
      fun i => wordBytes_keySchedule (by omega) hkey⟩

end Sys2Proof.Machine
end

section
/-! PROOFS. The single-block cipher commands: their checks (R164), and the rounds of `Cipher` (R96) and `InvCipher` (R97) one
by one. -/

namespace Sys2Proof.Machine

/-! ### The checks of a single-block command (R164) -/

section
variable {b : Bytes} {s : State} (k : Result)

theorem withBlock_of_not_keyed (hkey : s.ciph.keyed = false) : withBlock b s k = .next (raise .notConfigured s) := by
  rw [withBlock, hkey, require_false, failed]

theorem withBlock_of_length_ne (hkey : s.ciph.keyed = true) (hb : b.length ≠ 16) :
    withBlock b s k = .next (raise .invalidInputLength s) := by
  rw [withBlock, hkey, require_true, decide_eq_false hb, require_false, failed]

theorem withBlock_of_length_eq (hkey : s.ciph.keyed = true) (hb : b.length = 16) : withBlock b s k = k := by
  rw [withBlock, hkey, require_true, decide_eq_true hb, require_true]

end

/-! ### The forward cipher (R96) -/

/-- The cipher state after `AddRoundKey` 0 and the inner rounds 1 to `r` (R96). -/
def cipherStateAt (w : Vector (BitVec 32) 60) (b : Bytes) (r : Nat) : Bytes :=
  (List.range' 1 r).foldl (cipherRound w) (addRoundKey w 0 b)

theorem cipherStateAt_succ (w : Vector (BitVec 32) 60) (b : Bytes) (r : Nat) :
    cipherStateAt w b (r + 1) = cipherRound w (cipherStateAt w b r) (r + 1) := by
  rw [cipherStateAt, List.range'_1_concat, List.foldl_append, List.foldl_cons, List.foldl_nil, Nat.add_comm 1 r]
  rfl

/-- Settles O31: the rounds are `cipherStateAt`, and `withBlock` makes the two checks. -/
theorem aesCipher : Obligations.AesCipher := by
  refine fun b s => ⟨withBlock_of_not_keyed _, withBlock_of_length_ne _, fun hkey hb =>
    ⟨cipherStateAt s.ciph.w b, rfl, fun r hr _ => ?_, withBlock_of_length_eq _ hkey hb,
      length_cipher s.ciph.w s.ciph.nk.rounds_le b⟩⟩
  obtain ⟨r, rfl⟩ := Nat.exists_eq_add_of_le' hr
  exact cipherStateAt_succ s.ciph.w b r

/-! ### The inverse cipher (R97) -/

/-- The cipher state after `AddRoundKey` `nr` and the inverse rounds `nr − 1` down to `r` (R97). -/
def invCipherStateAt (w : Vector (BitVec 32) 60) (nr : Nat) (b : Bytes) (r : Nat) : Bytes :=
  (List.range' r (nr - r)).reverse.foldl (invCipherRound w) (addRoundKey w nr b)

theorem invCipherStateAt_last (w : Vector (BitVec 32) 60) (nr : Nat) (b : Bytes) :
    invCipherStateAt w nr b nr = addRoundKey w nr b := by
  rw [invCipherStateAt, Nat.sub_self, List.range'_zero, List.reverse_nil, List.foldl_nil]

theorem invCipherStateAt_of_lt (w : Vector (BitVec 32) 60) (b : Bytes) {nr r : Nat} (h : r < nr) :
    invCipherStateAt w nr b r = invCipherRound w (invCipherStateAt w nr b (r + 1)) r := by
  obtain ⟨n, rfl⟩ := Nat.exists_eq_add_of_lt h
  have hrest : r + n + 1 - (r + 1) = n := by omega
  rw [invCipherStateAt, Nat.add_assoc, Nat.add_sub_cancel_left, List.range'_succ, List.reverse_cons, List.foldl_append,
    List.foldl_cons, List.foldl_nil, invCipherStateAt, ← Nat.add_assoc, hrest]

/-- Settles O32: the rounds are `invCipherStateAt`, and `withBlock` makes the two checks. -/
theorem aesInvcipher : Obligations.AesInvcipher := by
  refine fun b s => ⟨withBlock_of_not_keyed _, withBlock_of_length_ne _, fun hkey hb =>
    ⟨invCipherStateAt s.ciph.w s.ciph.nk.rounds b, invCipherStateAt_last .., fun r _ hr => ?_,
      withBlock_of_length_eq _ hkey hb, length_invCipher s.ciph.w s.ciph.nk.rounds b⟩⟩
  exact invCipherStateAt_of_lt s.ciph.w b (Nat.lt_succ_of_le hr)

end Sys2Proof.Machine
end

section
/-! PROOFS. The chaining mode block by block: `CBC_ENCRYPT` (R107) and `CBC_DECRYPT` (R108). -/

namespace Sys2Proof.Machine

/-! ### Strings of 16-byte blocks -/

/-- Block `i` of a string whose first block is `b`; with `b` the IV this is the chaining state before block `i` of `r`
(R107, R108). -/
theorem slice_append_block {b : Bytes} (hb : b.length = 16) (r : Bytes) (i : Nat) :
    slice (b ++ r) (16 * i) 16 = if i = 0 then b else slice r (16 * (i - 1)) 16 := by
  cases i with
  | zero => exact List.take_left' hb
  | succ i =>
    rw [Nat.mul_succ, Nat.add_comm, ← hb, slice_append_right, hb]
    rfl

theorem getElem_blocks {n count i : Nat} {s : Bytes} (h : i < (blocks n count s).length) :
    (blocks n count s)[i] = slice s (n * i) n := by
  simp [blocks]

theorem length_of_mem_blocks {n count : Nat} {s b : Bytes} (hs : n * count ≤ s.length) (hb : b ∈ blocks n count s) :
    b.length = n := by
  obtain ⟨i, hi, rfl⟩ := List.mem_map.mp hb
  have hle : n * (i + 1) ≤ s.length := (Nat.mul_le_mul_left n (List.mem_range.mp hi)).trans hs
  rw [Nat.mul_succ] at hle
  rw [length_slice]
  omega

/-! ### Encryption chains on its own output (R107) -/

section
variable {f : Bytes → Bytes} (hf : ∀ b, (f b).length = 16)
include hf

theorem length_cbcChain (last : Bytes) (bs : List Bytes) : (cbcChain f last bs).length = 16 * bs.length := by
  induction bs generalizing last with
  | nil => rfl
  | cons b bs ih => rw [cbcChain, List.length_append, hf, ih, List.length_cons, Nat.mul_succ, Nat.add_comm]

theorem slice_cbcChain {last : Bytes} (hlast : last.length = 16) {bs : List Bytes} {i : Nat} (hi : i < bs.length) :
    slice (cbcChain f last bs) (16 * i) 16 =
      f (xorBytes (fillBlock bs[i]) (slice (last ++ cbcChain f last bs) (16 * i) 16)) := by
  induction bs generalizing last i with
  | nil => exact absurd hi (Nat.not_lt_zero i)
  | cons b bs ih =>
    rw [slice_append_block hlast, cbcChain]
    cases i with
    | zero => exact slice_append_block (hf _) _ 0
    | succ i => exact (slice_append_block (hf _) _ (i + 1)).trans (ih (hf _) (Nat.lt_of_succ_lt_succ hi))

end

theorem length_cbcEncrypt (iv : Bytes) (w : Vector (BitVec 32) 60) {nr : Nat} (hnr : nr ≤ 14) (p : Bytes) :
    (cbcEncrypt iv w nr p).length = 16 * ((p.length + 15) / 16) := by
  rw [cbcEncrypt, length_cbcChain (length_cipher w hnr), length_blocks]

/-- R107, block by block. -/
theorem slice_cbcEncrypt {iv : Bytes} (hiv : iv.length = 16) (w : Vector (BitVec 32) 60) {nr : Nat} (hnr : nr ≤ 14)
    {p : Bytes} {i : Nat} (hi : i < (p.length + 15) / 16) :
    slice (cbcEncrypt iv w nr p) (16 * i) 16 =
      cipher w nr (xorBytes (fillBlock (slice p (16 * i) 16))
        (if i = 0 then iv else slice (cbcEncrypt iv w nr p) (16 * (i - 1)) 16)) := by
  have hblock : i < (blocks 16 ((p.length + 15) / 16) p).length := by rwa [length_blocks]
  rw [← slice_append_block hiv, ← getElem_blocks hblock]
  exact slice_cbcChain (length_cipher w hnr) hiv hblock

/-! ### Decryption chains on its input (R108) -/

section
variable {f : Bytes → Bytes} (hf : ∀ b, (f b).length = 16) {last : Bytes} (hlast : last.length = 16)
  {bs : List Bytes} (hbs : ∀ b ∈ bs, b.length = 16)
include hf hlast hbs

theorem length_cbcUnchain : (cbcUnchain f last bs).length = 16 * bs.length := by
  induction bs generalizing last with
  | nil => rfl
  | cons b bs ih =>
    obtain ⟨hb, hrest⟩ := List.forall_mem_cons.mp hbs
    rw [cbcUnchain, List.length_append, length_xorBytes, hf, hlast, ih hb hrest, List.length_cons, Nat.mul_succ,
      Nat.min_self, Nat.add_comm]

theorem slice_cbcUnchain {i : Nat} (hi : i < bs.length) :
    slice (cbcUnchain f last bs) (16 * i) 16 =
      xorBytes (f bs[i]) ((last :: bs)[i]'(Nat.lt_succ_of_lt hi)) := by
  induction bs generalizing last i with
  | nil => exact absurd hi (Nat.not_lt_zero i)
  | cons b bs ih =>
    obtain ⟨hb, hrest⟩ := List.forall_mem_cons.mp hbs
    have hout : (xorBytes (f b) last).length = 16 := by rw [length_xorBytes, hf, hlast, Nat.min_self]
    rw [cbcUnchain, slice_append_block hout]
    cases i with
    | zero => rfl
    | succ i => exact ih hb hrest (Nat.lt_of_succ_lt_succ hi)

end

section
variable {iv : Bytes} (hiv : iv.length = 16) (w : Vector (BitVec 32) 60) (nr : Nat) {c : Bytes}
include hiv

theorem length_cbcDecrypt (hc : c.length % 16 = 0) : (cbcDecrypt iv w nr c).length = c.length := by
  rw [cbcDecrypt, length_cbcUnchain (length_invCipher w nr) hiv fun _ => length_of_mem_blocks (Nat.mul_div_le _ _),
    length_blocks, Nat.mul_div_cancel' (Nat.dvd_of_mod_eq_zero hc)]

/-- R108, block by block. -/
theorem slice_cbcDecrypt {i : Nat} (hi : i < c.length / 16) :
    slice (cbcDecrypt iv w nr c) (16 * i) 16 =
      xorBytes (invCipher w nr (slice c (16 * i) 16)) (if i = 0 then iv else slice c (16 * (i - 1)) 16) := by
  have hblock : i < (blocks 16 (c.length / 16) c).length := by rwa [length_blocks]
  rw [cbcDecrypt, slice_cbcUnchain (length_invCipher w nr) hiv
    (fun _ => length_of_mem_blocks (Nat.mul_div_le _ _)) hblock, getElem_blocks, List.getElem_cons]
  simp only [getElem_blocks, dite_eq_ite]

end

/-! ### The commands (R107, R108) -/

section
variable (d : Bytes) {s : State}

theorem exec_cbcEncrypt_of_not_keyed (hkey : s.ciph.keyed = false) :
    exec (.cbcEncrypt d) s = .next (raise .notConfigured s) := by
  change execCbcEncrypt d s = _
  rw [execCbcEncrypt, hkey, require_false, failed]

theorem exec_cbcEncrypt_of_keyed (hkey : s.ciph.keyed = true) :
    exec (.cbcEncrypt d) s =
      .next (respond (cbcEncrypt Config.cbcIv.toList s.ciph.w s.ciph.nk.rounds d) (resetChain s)) := by
  change execCbcEncrypt d s = _
  rw [execCbcEncrypt, hkey, require_true, done]

theorem exec_cbcDecrypt_of_not_keyed (hkey : s.ciph.keyed = false) :
    exec (.cbcDecrypt d) s = .next (raise .notConfigured s) := by
  change execCbcDecrypt d s = _
  rw [execCbcDecrypt, hkey, require_false, failed]

theorem exec_cbcDecrypt_of_keyed (hkey : s.ciph.keyed = true) :
    exec (.cbcDecrypt d) s =
      if d.length % 16 = 0 then
        .next (respond (cbcDecrypt Config.cbcIv.toList s.ciph.w s.ciph.nk.rounds d) (resetChain s))
      else .next (raise .invalidInputLength s) := by
  change execCbcDecrypt d s = _
  rw [execCbcDecrypt, hkey, require_true]
  simp only [require, decide_eq_true_eq, done, failed]

end

/-- Settles O36: the result is `cbcEncrypt`, which `slice_cbcEncrypt` reads block by block. (The model's own function
has the obligation's name.) -/
theorem cbcEncrypt_chains : Obligations.CbcEncrypt := fun p s =>
  ⟨exec_cbcEncrypt_of_not_keyed p, fun hkey =>
    ⟨_, exec_cbcEncrypt_of_keyed p hkey, length_cbcEncrypt _ _ s.ciph.nk.rounds_le p,
      fun _ => slice_cbcEncrypt Vector.length_toList _ s.ciph.nk.rounds_le⟩⟩

/-- Settles O37: the result is `cbcDecrypt`, which `slice_cbcDecrypt` reads block by block. -/
theorem cbcDecrypt_chains : Obligations.CbcDecrypt := fun c _ =>
  ⟨exec_cbcDecrypt_of_not_keyed c, fun hkey hc => (exec_cbcDecrypt_of_keyed c hkey).trans (if_neg hc), fun hkey hc =>
    ⟨_, (exec_cbcDecrypt_of_keyed c hkey).trans (if_pos hc), length_cbcDecrypt Vector.length_toList _ _ hc,
      fun _ => slice_cbcDecrypt Vector.length_toList _ _⟩⟩

end Sys2Proof.Machine
end

section
/-! PROOFS. The field commands that do not reduce: `FE_UNPACK` (R119), `FE_ADD`, `FE_SUB` (R121, R122), `FE_CSWAP` (R125),
`FE_CONST` (R128) and `FE_MOV` (R129). -/

namespace Sys2Proof.Machine

/-! ### Writes of field registers (R11) -/

theorem getF_setF (i j : FReg) (v : Elem) (s : State) : getF (setF i v s) j = if j = i then v else getF s j := by
  split_ifs with h
  · rw [h, getF_setF_same]
  · exact getF_setF_other h v s

@[simp] theorem setF_getF (i : FReg) (s : State) : setF i (getF s i) s = s := by
  simp [setF, getF]

/-! ### Limbs in containers (R116) -/

theorem fits64_iff {x : Int} : fits64 x = true ↔ InRange x := by
  simp [fits64, InRange]

theorem inDomain_iff {e : Fe} (hl : e.length = 16) : inDomain e = true ↔ ∀ k : Fin 16, InRange (e.getD k 0) := by
  simp only [inDomain, List.all_eq_true, fits64_iff, List.forall_mem_iff_getElem, hl, Fin.forall_iff]
  refine forall₂_congr fun k hk => ?_
  rw [List.getD_eq_getElem _ _ (hl ▸ hk)]

/-- Each limb of an element in the domain is held exactly. -/
theorem toInt_getElem_toElem {e : Fe} (hl : e.length = 16) (hd : inDomain e = true) (k : Fin 16) :
    e.toElem[k].toInt = e.getD k 0 := by
  have hk : e.toElem[k] = BitVec.ofInt 64 (e.getD k 0) := Vector.getElem_ofFn k.isLt
  rw [hk, toInt_ofInt_of_fits (fits64_iff.mpr ((inDomain_iff hl).mp hd k))]

theorem getD_feOf (s : State) (i : FReg) (k : Fin 16) : (feOf s i).getD k 0 = limb s i k := by
  rw [List.getD_eq_getElem _ _ (by simp [feOf])]
  simp [feOf, Elem.toFe, limb]

/-! ### Limb by limb (R121, R122) -/

section
variable (op : Int → Int → Int) (rd ra rb : FReg) (s : State)

theorem length_zipWith_feOf : (List.zipWith op (feOf s ra) (feOf s rb)).length = 16 := by
  simp [feOf]

theorem getD_zipWith_feOf (k : Fin 16) :
    (List.zipWith op (feOf s ra) (feOf s rb)).getD k 0 = op (limb s ra k) (limb s rb k) := by
  rw [← getD_feOf, ← getD_feOf, List.getD_eq_getElem _ _ (by simp [feOf]), List.getElem_zipWith,
    List.getD_eq_getElem _ _ (by simp [feOf]), List.getD_eq_getElem _ _ (by simp [feOf])]

theorem inDomain_zipWith_feOf_iff :
    inDomain (List.zipWith op (feOf s ra) (feOf s rb)) = true ↔ ∀ k, InRange (op (limb s ra k) (limb s rb k)) := by
  simp only [inDomain_iff (length_zipWith_feOf op ra rb s), getD_zipWith_feOf]

/-- A command that applies `op` limb by limb, as `FE_ADD` and `FE_SUB` do. -/
def limbwise : Result :=
  ifInDomain (inDomain (List.zipWith op (feOf s ra) (feOf s rb))) (writeFe rd (List.zipWith op (feOf s ra) (feOf s rb)) s)

theorem exec_feAdd : exec (.feAdd rd ra rb) s = limbwise (· + ·) rd ra rb s := rfl

theorem exec_feSub : exec (.feSub rd ra rb) s = limbwise (· - ·) rd ra rb s := rfl

theorem limbwise_of_inRange (h : ∀ k, InRange (op (limb s ra k) (limb s rb k))) :
    ∃ e : Elem, limbwise op rd ra rb s = .next (respond [] (setF rd e s)) ∧
      ∀ k : Fin 16, e[k].toInt = op (limb s ra k) (limb s rb k) := by
  have hd := (inDomain_zipWith_feOf_iff op ra rb s).mpr h
  refine ⟨_, if_pos hd, fun k => ?_⟩
  rw [toInt_getElem_toElem (length_zipWith_feOf op ra rb s) hd, getD_zipWith_feOf]

theorem limbwise_of_not_inRange (h : ∃ k, ¬InRange (op (limb s ra k) (limb s rb k))) :
    limbwise op rd ra rb s = .refused .limbOutOfDomain :=
  if_neg (mt (inDomain_zipWith_feOf_iff op ra rb s).mp (not_forall.mpr h))

end

/-- Settles O42: both commands are `limbwise`, whose domain is read limb by limb. -/
theorem feAddSub : Obligations.FeAddSub := by
  intro rd ra rb s
  rw [exec_feAdd, exec_feSub]
  exact ⟨limbwise_of_inRange _ rd ra rb s, limbwise_of_not_inRange _ rd ra rb s, limbwise_of_inRange _ rd ra rb s,
    limbwise_of_not_inRange _ rd ra rb s⟩

/-! ### Unpack (R119) -/

/-- Limb `k` of `b`, the limb number `top` masked to 15 bits (R119: `top` is 15). -/
def unpackLimb (top : Nat) (b : Bytes) (k : Nat) : Nat :=
  if k = top then ((b.getD (2 * k) 0#8).toNat + 256 * (b.getD (2 * k + 1) 0#8).toNat) % 2 ^ 15
  else (b.getD (2 * k) 0#8).toNat + 256 * (b.getD (2 * k + 1) 0#8).toNat

theorem unpack_eq_map_unpackLimb (b : Bytes) :
    Fe.unpack b = (List.range 16).map fun k => (unpackLimb 15 b k : Int) := by
  have hmask (n : Nat) : n &&& 0x7fff = n % 2 ^ 15 := Nat.and_two_pow_sub_one_eq_mod n 15
  simp only [Fe.unpack, unpackLimb, hmask, Nat.cast_ite]

theorem unpackLimb_lt (top : Nat) (b : Bytes) (k : Nat) : unpackLimb top b k < 2 ^ 16 := by
  have hlow := (b.getD (2 * k) 0#8).isLt
  have hhigh := (b.getD (2 * k + 1) 0#8).isLt
  unfold unpackLimb
  split <;> omega

theorem unpackLimb_cons_cons_succ (top : Nat) (x y : Byte) (b : Bytes) (k : Nat) :
    unpackLimb (top + 1) (x :: y :: b) (k + 1) = unpackLimb top b k := by
  simp [unpackLimb, Nat.mul_succ]

theorem unpackLimb_cons_cons_zero (top : Nat) (x y : Byte) (b : Bytes) :
    unpackLimb (top + 1) (x :: y :: b) 0 = x.toNat + 256 * y.toNat := by
  simp [unpackLimb]

/-- Two more bytes below a string: they stay, whatever is masked above them. -/
theorem leNat_cons_cons_mod (x y : Byte) (b : Bytes) (m : Nat) :
    leNat (x :: y :: b) % (2 ^ 16 * m) = x.toNat + 256 * y.toNat + 2 ^ 16 * (leNat b % m) := by
  have hx := x.isLt
  have hy := y.isLt
  have hle : leNat (x :: y :: b) = x.toNat + 256 * (y.toNat + 256 * leNat b) := rfl
  have hlow : leNat (x :: y :: b) % 2 ^ 16 = x.toNat + 256 * y.toNat := by omega
  have hhigh : leNat (x :: y :: b) / 2 ^ 16 = leNat b := by omega
  rw [Nat.mod_mul, hlow, hhigh]

/-- The value of the limbs, two bytes a step. -/
theorem val_map_unpackLimb {top : Nat} {b : Bytes} (hb : b.length = 2 * top + 2) :
    Fe.val ((List.range (top + 1)).map fun k => (unpackLimb top b k : Int)) =
      ((leNat b % 2 ^ (16 * top + 15) : Nat) : Int) := by
  induction top generalizing b with
  | zero =>
    obtain ⟨x, y, rfl⟩ := List.length_eq_two.mp hb
    simp [unpackLimb, leNat, Fe.val]
  | succ top ih =>
    match b, hb with
    | x :: y :: b, hb =>
      have hrest := ih (Nat.add_right_cancel (m := 2) hb)
      have hpow : 2 ^ (16 * (top + 1) + 15) = 2 ^ 16 * 2 ^ (16 * top + 15) := by ring
      rw [List.range_succ_eq_map, List.map_cons, List.map_map, Fe.val, hpow, leNat_cons_cons_mod,
        unpackLimb_cons_cons_zero]
      simp only [Function.comp_def, Nat.succ_eq_add_one, unpackLimb_cons_cons_succ, hrest]
      push_cast
      rfl

theorem getD_unpack (b : Bytes) (k : Fin 16) : (Fe.unpack b).getD k 0 = unpackLimb 15 b k := by
  rw [List.getD_eq_getElem _ _ (by simp), List.getElem_of_eq (unpack_eq_map_unpackLimb b)]
  simp

theorem inRange_unpackLimb (top : Nat) (b : Bytes) (k : Nat) : InRange (unpackLimb top b k) := by
  have := unpackLimb_lt top b k
  constructor <;> omega

theorem inDomain_unpack (b : Bytes) : inDomain (Fe.unpack b) = true :=
  (inDomain_iff (Fe.length_unpack b)).mpr fun k => getD_unpack b k ▸ inRange_unpackLimb 15 b k

/-- R119's value. -/
theorem val_unpack {b : Bytes} (hb : b.length = 32) : Fe.val (Fe.unpack b) = ((leNat b % 2 ^ 255 : Nat) : Int) := by
  rw [unpack_eq_map_unpackLimb]
  exact val_map_unpackLimb hb

theorem exec_feUnpack (rd : FReg) (b : Bytes) (s : State) :
    exec (.feUnpack rd b) s =
      if b.length = 32 then .next (respond [] (setF rd (Fe.unpack b).toElem s))
      else .next (raise .invalidInputLength s) := by
  change execFeUnpack rd b s = _
  simp only [execFeUnpack, require, decide_eq_true_eq, writeFe, done, failed]

/-- Settles O39: every unpacked limb fits its container, and `val_unpack` is R119's value. -/
theorem feUnpack : Obligations.FeUnpack := by
  refine fun rd b s => ⟨fun hb => (exec_feUnpack rd b s).trans (if_neg hb), fun hb =>
    ⟨(Fe.unpack b).toElem, (exec_feUnpack rd b s).trans (if_pos hb), fun k => ?_, ?_⟩⟩
  · rw [toInt_getElem_toElem (Fe.length_unpack b) (inDomain_unpack b), getD_unpack, unpackLimb]
    split_ifs with hk
    · rw [hk]
    · rfl
  · rw [Fe.toFe_toElem (Fe.length_unpack b) (inDomain_unpack b), val_unpack hb]

/-! ### Constants (R128) -/

theorem exec_feConst {sel : BitVec 8} {c : Fe} (h : constOf sel = some c) (rd : FReg) (s : State) :
    exec (.feConst rd sel) s = .next (respond [] (setF rd c.toElem s)) := by
  change execFeConst rd sel s = _
  rw [execFeConst, h]
  rfl

theorem exec_feConst_of_three_lt {sel : BitVec 8} (h : 3 < sel.toNat) (rd : FReg) (s : State) :
    exec (.feConst rd sel) s = .next (raise .invalidSelector s) := by
  change execFeConst rd sel s = _
  rw [execFeConst, constOf_none.mpr h, failed]

/-- Settles O40: `constOf` reads the selector; each constant's containers are computed. -/
theorem feConst : Obligations.FeConst :=
  fun rd s => ⟨exec_feConst (c := Fe.zero) rfl rd s, exec_feConst (c := Fe.one) rfl rd s,
    exec_feConst (c := Fe.a24) rfl rd s, exec_feConst (c := Fe.nine) rfl rd s,
    fun _ h => exec_feConst_of_three_lt h rd s⟩

/-! ### Move and swap (R129, R125) -/

theorem exec_feMov (rd ra : FReg) (s : State) :
    exec (.feMov rd ra) s = .next (respond [] (setF rd (getF s ra) s)) := rfl

theorem exec_feCswap_zero (ra rb : FReg) (s : State) : exec (.feCswap ra rb 0#8) s = .next (respond [] s) := by
  change done [] (setF rb (getF s rb) (setF ra (getF s ra) s)) = _
  rw [setF_getF, setF_getF, done]

theorem exec_feCswap_one (ra rb : FReg) (s : State) :
    exec (.feCswap ra rb 1#8) s = .next (respond [] (setF rb (getF s ra) (setF ra (getF s rb) s))) := rfl

theorem exec_feCswap_of_one_lt {sel : BitVec 8} (h : 1 < sel.toNat) (ra rb : FReg) (s : State) :
    exec (.feCswap ra rb sel) s = .next (raise .invalidSelector s) := by
  change execFeCswap ra rb sel s = _
  rw [execFeCswap, swapBitOf_none.mpr h, failed]

/-- The exchange, also of a register with itself (R125). -/
theorem getF_exchange (ra rb i : FReg) (s : State) :
    getF (setF rb (getF s ra) (setF ra (getF s rb) s)) i =
      if i = ra then getF s rb else if i = rb then getF s ra else getF s i := by
  rw [getF_setF, getF_setF]
  split_ifs with hb ha
  · rw [← ha, ← hb]
  all_goals rfl

/-- Settles O41: both commands are writes of field registers, which `getF_setF` reads back. -/
theorem feMovCswap : Obligations.FeMovCswap :=
  ⟨fun rd ra s => ⟨_, exec_feMov rd ra s, fun i => getF_setF rd i (getF s ra) s⟩, fun ra rb s =>
    ⟨exec_feCswap_zero ra rb s, ⟨_, exec_feCswap_one ra rb s, fun i => getF_exchange ra rb i s⟩,
      fun _ h => exec_feCswap_of_one_lt h ra rb s⟩⟩

end Sys2Proof.Machine
end

section
/-! PROOFS. The clamped scalar, its bytes and its bits (R136), the ladder as one step per bit (R138), and `X25519` (R140). -/

namespace Sys2Proof.Machine

/-! ### The bits of a string as an integer (R31) -/

/-- Bit `i` of `le(z)` is bit `i mod 8` of byte `i / 8`; there are none beyond the string. -/
theorem testBit_leNat (z : Bytes) (i : Nat) : (leNat z).testBit i = scalarBit z i := by
  induction z generalizing i with
  | nil => simp [leNat, scalarBit]
  | cons b z ih =>
    have hle : leNat (b :: z) = 2 ^ 8 * leNat z + b.toNat := Nat.add_comm _ _
    rw [hle, Nat.testBit_two_pow_mul_add _ b.isLt, ih]
    split_ifs with hi
    · rw [scalarBit, Nat.div_eq_of_lt hi, Nat.mod_eq_of_lt hi]
      rfl
    · obtain ⟨j, rfl⟩ := Nat.exists_eq_add_of_le' (not_lt.mp hi)
      simp [scalarBit]

/-! ### Clamping (R136) -/

@[simp] theorem length_clamp (s : Bytes) : (clamp s).length = s.length := by simp [clamp]

/-- What clamping makes of byte `i` of a scalar of `n` bytes. -/
def clampByte (n i : Nat) (b : Byte) : Byte :=
  if i = 0 then b &&& 0xF8#8 else if i = n - 1 then b &&& 0x7F#8 ||| 0x40#8 else b

theorem clampByte_clampByte (n i : Nat) (b : Byte) : clampByte n i (clampByte n i b) = clampByte n i b := by
  unfold clampByte
  split_ifs
  · rw [BitVec.and_assoc]; rfl
  · revert b; decide
  · rfl

theorem getElem_clamp {s : Bytes} (hs : 2 ≤ s.length) {i : Nat} (hi : i < s.length) :
    (clamp s)[i]'(by simpa using hi) = clampByte s.length i s[i] := by
  have hlast : s.length - 1 ≠ 0 := by omega
  simp only [clamp, clampByte, List.getElem_set]
  by_cases h0 : i = 0
  · subst h0
    rw [if_neg hlast, if_pos rfl, if_pos rfl, List.getD_eq_getElem _ _ hi]
  rw [if_neg h0, if_neg (Ne.symm h0)]
  by_cases h : i = s.length - 1
  · subst h
    rw [if_pos rfl, if_pos rfl, List.getD_eq_getElem _ _ (by simpa using hi), List.getElem_set_ne hlast.symm]
  · rw [if_neg h, if_neg (Ne.symm h)]

theorem getD_clamp {s : Bytes} (hs : 2 ≤ s.length) {i : Nat} (hi : i < s.length) :
    (clamp s).getD i 0#8 = clampByte s.length i (s.getD i 0#8) := by
  rw [List.getD_eq_getElem _ _ (by simpa using hi), List.getD_eq_getElem _ _ hi, getElem_clamp hs hi]

theorem clamp_clamp {s : Bytes} (hs : 2 ≤ s.length) : clamp (clamp s) = clamp s := by
  refine List.ext_getElem (length_clamp _) fun i _ hi => ?_
  have hi' : i < s.length := by simpa using hi
  rw [getElem_clamp (by simpa using hs) hi, getElem_clamp hs hi', length_clamp, clampByte_clampByte]

section
variable {s : Bytes} (hs : 2 ≤ s.length)
include hs

theorem scalarBit_clamp_of_lt_three {i : Nat} (hi : i < 3) : scalarBit (clamp s) i = false := by
  have hbyte : i / 8 = 0 := by omega
  rw [scalarBit, hbyte, getD_clamp hs (by omega)]
  interval_cases i <;> simp [clampByte]

theorem getD_clamp_last : (clamp s).getD (s.length - 1) 0#8 = s.getD (s.length - 1) 0#8 &&& 0x7F#8 ||| 0x40#8 := by
  rw [getD_clamp hs (by omega), clampByte, if_neg (by omega), if_pos rfl]

theorem scalarBit_clamp_top : scalarBit (clamp s) (8 * s.length - 2) = true := by
  have hbyte : (8 * s.length - 2) / 8 = s.length - 1 := by omega
  have hbit : (8 * s.length - 2) % 8 = 6 := by omega
  rw [scalarBit, hbyte, hbit, getD_clamp_last hs]
  simp

theorem scalarBit_clamp_above_top {i : Nat} (hi : 8 * s.length - 1 ≤ i) : scalarBit (clamp s) i = false := by
  rcases hi.eq_or_lt with rfl | hi
  · have hbyte : (8 * s.length - 1) / 8 = s.length - 1 := by omega
    have hbit : (8 * s.length - 1) % 8 = 7 := by omega
    rw [scalarBit, hbyte, hbit, getD_clamp_last hs]
    simp
  · rw [scalarBit, List.getD_eq_default _ _ (by rw [length_clamp]; omega), BitVec.getLsbD_zero]

theorem leNat_clamp_mod_eight : leNat (clamp s) % 8 = 0 := by
  refine Nat.eq_of_testBit_eq fun i => ?_
  rw [Nat.testBit_mod_two_pow (j := 3), testBit_leNat, Nat.zero_testBit]
  by_cases hi : i < 3
  · rw [scalarBit_clamp_of_lt_three hs hi, Bool.and_false]
  · rw [decide_eq_false hi, Bool.false_and]

theorem two_pow_le_leNat_clamp : 2 ^ (8 * s.length - 2) ≤ leNat (clamp s) :=
  Nat.ge_two_pow_of_testBit ((testBit_leNat _ _).trans (scalarBit_clamp_top hs))

theorem leNat_clamp_lt_two_pow : leNat (clamp s) < 2 ^ (8 * s.length - 1) :=
  Nat.lt_pow_two_of_testBit _ fun i hi => (testBit_leNat _ i).trans (scalarBit_clamp_above_top hs hi)

end

/-- Settles O51: the bytes are `getD_clamp`; the integer's range and divisibility are read off its bits. -/
theorem clampScalars : Obligations.ClampScalars := by
  intro s hlen
  have hs : 2 ≤ s.length := by omega
  refine ⟨length_clamp s, fun i hi => ?_, leNat_clamp_mod_eight hs, two_pow_le_leNat_clamp hs, leNat_clamp_lt_two_pow hs,
    clamp_clamp hs⟩
  rw [getD_clamp hs hi, clampByte]
  split_ifs with h0
  · rw [h0]
  all_goals rfl

/-! ### One step per bit (R138) -/

/-- The states `ladderLoop` runs through, indexed by the bits still to come. -/
theorem exists_ladderLoop_states (z : Bytes) (x : Fe) (n : Nat) (start : Ladder) :
    ∃ l : Nat → Ladder, l n = start ∧ (∀ i < n, l i = ladderStep x (scalarBit z i) (l (i + 1))) ∧
      ladderLoop z x n start = l 0 := by
  induction n generalizing start with
  | zero => exact ⟨fun _ => start, rfl, fun i hi => absurd hi i.not_lt_zero, rfl⟩
  | succ n ih =>
    obtain ⟨l, hfirst, hsteps, hlast⟩ := ih (ladderStep x (scalarBit z n) start)
    refine ⟨Function.update l (n + 1) start, Function.update_self .., fun i hi => ?_, ?_⟩
    · rw [Function.update_of_ne hi.ne]
      rcases (Nat.lt_succ_iff.mp hi).eq_or_lt with rfl | hi'
      · rw [Function.update_self, hfirst]
      · rw [Function.update_of_ne (by omega), hsteps i hi']
    · rw [Function.update_of_ne n.succ_ne_zero.symm, ← hlast, ladderLoop]

/-- Settles O52: the loop's states, each bit of the string read as a bit of the integer. -/
theorem ladderSteps : Obligations.LadderSteps := by
  intro s q _ _
  obtain ⟨l, hfirst, hsteps, hlast⟩ :=
    exists_ladderLoop_states (clamp s) (Fe.unpack q) (8 * s.length - 1) (ladderStart (Fe.unpack q))
  refine ⟨l, hfirst, fun i hi => ?_, ?_⟩
  · rw [testBit_leNat, hsteps i hi]
  · rw [scalarMult, hlast]

/-! ### The command (R140) -/

theorem withScalar_of_lengths {n : Nat} {a b : Bytes} (ha : a.length = n) (hb : b.length = 32) (s : State) (k : Result) :
    withScalar n a b s k = k := by
  rw [withScalar, decide_eq_true ⟨ha, hb⟩, require_true]

theorem withScalar_of_not_lengths {n : Nat} {a b : Bytes} (h : ¬(a.length = n ∧ b.length = 32)) (s : State) (k : Result) :
    withScalar n a b s k = .next (raise .invalidInputLength s) := by
  rw [withScalar, decide_eq_false h, require_false, failed]

theorem exec_x25519 (k q : Bytes) (s : State) :
    exec (.x25519 k q) s = withScalar 32 k q s (done (scalarMult k q) s) := rfl

/-- Settles O55: the length check of R140, then the response alone. -/
theorem x25519 : Obligations.X25519 := fun k q s =>
  ⟨fun h => (exec_x25519 k q s).trans (withScalar_of_not_lengths h s _), fun hk hq =>
    (exec_x25519 k q s).trans (withScalar_of_lengths hk hq s _)⟩

end Sys2Proof.Machine
end

section
/-! PROOFS. The product of `PRIV` and a peer's value (R147). -/

namespace Sys2Proof.Machine

theorem exec_kxShared (q : Bytes) (s : State) :
    exec (.kxShared q) s = require .notConfigured s.kx.privv s
      (require .invalidInputLength (decide (q.length = 32)) s (done (scalarMult s.kx.priv.toList q) s)) := rfl

theorem exec_kxShared_of_not_privv {s : State} (hpriv : s.kx.privv = false) (q : Bytes) :
    exec (.kxShared q) s = .next (raise .notConfigured s) := by
  rw [exec_kxShared, hpriv, require_false, failed]

theorem exec_kxShared_of_length_ne {s : State} (hpriv : s.kx.privv = true) {q : Bytes} (hq : q.length ≠ 32) :
    exec (.kxShared q) s = .next (raise .invalidInputLength s) := by
  rw [exec_kxShared, hpriv, require_true, decide_eq_false hq, require_false, failed]

theorem exec_kxShared_of_length {s : State} (hpriv : s.kx.privv = true) {q : Bytes} (hq : q.length = 32) :
    exec (.kxShared q) s = .next (respond (scalarMult s.kx.priv.toList q) s) := by
  rw [exec_kxShared, hpriv, require_true, decide_eq_true hq, require_true, done]

/-- Settles O58: the check for a key pair comes before the check of the length, and `respond` writes the response alone. -/
theorem kxShared : Obligations.KxShared := fun q _ =>
  ⟨fun hpriv => exec_kxShared_of_not_privv hpriv q, fun hpriv hq => exec_kxShared_of_length_ne hpriv hq,
    fun hpriv hq => exec_kxShared_of_length hpriv hq⟩

end Sys2Proof.Machine
end

section
/-! PROOFS. The system commands (R150 to R152), and the bytes of `STATUS` (R14). -/

namespace Sys2Proof.Machine

/-! ### `NOP` and `SOFT_RESET` (R150, R152) -/

theorem exec_nop (s : State) : exec .nop s = .next (respond [] s) := rfl

theorem exec_softReset (s : State) : exec .softReset s = .next (respond [] (resetState s)) :=
  exec_softReset_eq_next.mpr rfl

/-! ### The bytes of `STATUS` (R14, R151) -/

/-- Byte 0 of `STATUS` as a number: R13's flags, `NKF`, `HSEL`. Byte 1 is `LASTERR`. -/
def statusByte0 (s : State) : Nat :=
  bit s.ciph.keyed + 2 * nkf s.ciph.nk + 8 * bit s.hmac.hcfg + 16 * hselBit s.hmac.hsel + 32 * bit s.kx.privv
    + 128 * bit s.errs

theorem bit_le_one (b : Bool) : bit b ≤ 1 := by cases b <;> decide

theorem nkf_le_three (n : KeyLen) : nkf n ≤ 3 := by cases n <;> decide

theorem hselBit_le_one (v : Variant) : hselBit v ≤ 1 := by cases v <;> decide

theorem statusByte0_lt (s : State) : statusByte0 s < 256 := by
  have hkeyed := bit_le_one s.ciph.keyed
  have hnk := nkf_le_three s.ciph.nk
  have hhcfg := bit_le_one s.hmac.hcfg
  have hhsel := hselBit_le_one s.hmac.hsel
  have hprivv := bit_le_one s.kx.privv
  have herrs := bit_le_one s.errs
  unfold statusByte0
  omega

theorem statusWord_eq (s : State) : statusWord s = BitVec.ofNat 32 (statusByte0 s + 256 * s.lasterr.toNat) := rfl

/-- `STATUS` is below `2^12`, so its 32 bits lose nothing. -/
theorem toNat_statusWord (s : State) : (statusWord s).toNat = statusByte0 s + 256 * s.lasterr.toNat := by
  have hlow := statusByte0_lt s
  have hcode := s.lasterr.isLt
  rw [statusWord_eq, BitVec.toNat_ofNat, Nat.mod_eq_of_lt (by omega)]

theorem leBytes_succ (n v : Nat) : leBytes (n + 1) v = BitVec.ofNat 8 v :: leBytes n (v / 256) := rfl

/-- The low byte of a number written as a byte and the rest. -/
theorem leBytes_succ_add {lo : Nat} (h : lo < 256) (n hi : Nat) :
    leBytes (n + 1) (lo + 256 * hi) = BitVec.ofNat 8 lo :: leBytes n hi := by
  have hlow : BitVec.ofNat 8 (lo + 256 * hi) = BitVec.ofNat 8 lo :=
    BitVec.eq_of_toNat_eq (by rw [BitVec.toNat_ofNat, BitVec.toNat_ofNat, Nat.add_mul_mod_self_left])
  rw [leBytes_succ, hlow, Nat.add_mul_div_left lo hi (by decide), Nat.div_eq_of_lt h, Nat.zero_add]

theorem leBytes_statusWord (s : State) :
    leBytes 4 (statusWord s).toNat = [BitVec.ofNat 8 (statusByte0 s), s.lasterr.setWidth 8, 0#8, 0#8] := by
  have hcode : s.lasterr.toNat / 256 = 0 := Nat.div_eq_of_lt (s.lasterr.isLt.trans (by decide))
  rw [toNat_statusWord, leBytes_succ_add (statusByte0_lt s), leBytes_succ, hcode, BitVec.ofNat_toNat]
  rfl

theorem exec_rdStatus (s : State) :
    exec .rdStatus s = .next (respond [BitVec.ofNat 8 (statusByte0 s), s.lasterr.setWidth 8, 0#8, 0#8] s) := by
  rw [← leBytes_statusWord]
  rfl

/-- Settles O16: each command is `respond` on the state it leaves, and `STATUS` is its flag byte, `LASTERR` and zeros. -/
theorem systemCommands : Obligations.SystemCommands :=
  ⟨exec_nop, fun s => ⟨_, exec_softReset s, rfl, same_reset_of_exec_softReset (exec_softReset s)⟩, exec_rdStatus⟩

end Sys2Proof.Machine
end

section
/-! PROOFS. The order of a command's checks after decoding (R164): the selector (R162), then the configuration (R165), then the
operand lengths (R167). -/

namespace Sys2Proof.Machine

/-! ### Results that complete only with `OK` (R36) -/

/-- A result that answers `OK` whenever it gives a next state. -/
def AnswersOk (k : Result) : Prop := ∀ t, k = .next t → ∃ d, OkWith t d

theorem answersOk_done (d : Bytes) (s : State) : AnswersOk (done d s) := by
  intro t h
  obtain rfl := done_eq_next.mp h
  exact ⟨d, rfl⟩

theorem answersOk_refused (r : Refusal) : AnswersOk (.refused r) := fun _ h => nomatch h

/-- A command that is refused outside its domain (R68). -/
theorem answersOk_ite_refused {p : Prop} [Decidable p] {k : Result} (hk : AnswersOk k) (r : Refusal) :
    AnswersOk (if p then k else .refused r) := by
  split
  · exact hk
  · exact answersOk_refused r

theorem answersOk_ifInDomain {ok : Bool} {k : Result} (hk : AnswersOk k) : AnswersOk (ifInDomain ok k) :=
  answersOk_ite_refused hk .limbOutOfDomain

/-! ### The three checks in R164's order -/

/-- The checks of a decoded command, in R164's order, before its effect `k`. -/
def checks (i : Instr) (s : State) (k : Result) : Result :=
  require .invalidSelector i.selLegal s
    (require .notConfigured (!needsConfig i s) s (require .invalidInputLength i.lengthsLegal s k))

section
variable {i : Instr} {s : State} {k : Result}

theorem checks_of_not_selLegal (hsel : i.selLegal = false) : checks i s k = .next (raise .invalidSelector s) := by
  rw [checks, hsel, require_false, failed]

theorem checks_of_needsConfig (hsel : i.selLegal = true) (hcfg : needsConfig i s = true) :
    checks i s k = .next (raise .notConfigured s) := by
  rw [checks, hsel, require_true, hcfg, Bool.not_true, require_false, failed]

theorem checks_of_configured (hsel : i.selLegal = true) (hcfg : needsConfig i s = false) :
    checks i s k = require .invalidInputLength i.lengthsLegal s k := by
  rw [checks, hsel, require_true, hcfg, Bool.not_false, require_true]

theorem checks_of_not_lengthsLegal (hsel : i.selLegal = true) (hcfg : needsConfig i s = false)
    (hlen : i.lengthsLegal = false) : checks i s k = .next (raise .invalidInputLength s) := by
  rw [checks_of_configured hsel hcfg, hlen, require_false, failed]

theorem checks_of_passed (hsel : i.selLegal = true) (hcfg : needsConfig i s = false) (hlen : i.lengthsLegal = true) :
    checks i s k = k := by
  rw [checks_of_configured hsel hcfg, hlen, require_true]

/-- The configuration check of a command without a selector, on the flag it needs. -/
theorem checks_of_flag {flag : Bool} (hsel : i.selLegal = true) (hcfg : needsConfig i s = !flag) :
    checks i s k = require .notConfigured flag s (require .invalidInputLength i.lengthsLegal s k) := by
  rw [checks, hsel, require_true, hcfg, Bool.not_not]

end

/-! ### Every command makes its checks in that order -/

/-- Command `i` makes its checks in R164's order, and answers `OK` if it passes them and completes. -/
def ChecksInOrder (i : Instr) (s : State) : Prop := ∃ k, AnswersOk k ∧ exec i s = checks i s k

section
variable {i : Instr} {s : State}

theorem checksInOrder_of_no_checks (hsel : i.selLegal = true) (hcfg : needsConfig i s = false)
    (hlen : i.lengthsLegal = true) (hexec : AnswersOk (exec i s)) : ChecksInOrder i s :=
  ⟨exec i s, hexec, (checks_of_passed hsel hcfg hlen).symm⟩

theorem checksInOrder_of_lengths {k : Result} (hsel : i.selLegal = true) (hcfg : needsConfig i s = false)
    (hk : AnswersOk k) (hexec : exec i s = require .invalidInputLength i.lengthsLegal s k) : ChecksInOrder i s :=
  ⟨k, hk, hexec.trans (checks_of_configured hsel hcfg).symm⟩

theorem checksInOrder_of_flag {flag : Bool} {k : Result} (hsel : i.selLegal = true) (hcfg : needsConfig i s = !flag)
    (hk : AnswersOk k)
    (hexec : exec i s = require .notConfigured flag s (require .invalidInputLength i.lengthsLegal s k)) :
    ChecksInOrder i s :=
  ⟨k, hk, hexec.trans (checks_of_flag hsel hcfg).symm⟩

/-- A command with a selector, legal up to `top`: beyond it `InvalidSelector`, up to it whatever the rest shows. -/
theorem checksInOrder_of_selector {sel : BitVec 8} {top : Nat} (hsel : i.selLegal = decide (sel.toNat ≤ top))
    (hbad : top < sel.toNat → exec i s = .next (raise .invalidSelector s))
    (hgood : i.selLegal = true → sel.toNat ≤ top → ChecksInOrder i s) : ChecksInOrder i s := by
  rcases Nat.lt_or_ge top sel.toNat with hlt | hle
  · have hillegal : i.selLegal = false := hsel.trans (decide_eq_false (by omega))
    exact ⟨done [] s, answersOk_done [] s, (hbad hlt).trans (checks_of_not_selLegal hillegal).symm⟩
  · exact hgood (hsel.trans (decide_eq_true hle)) hle

/-- A command whose one check is for a hash variant (R162). -/
theorem checksInOrder_of_withVariant {sel : BitVec 8} {k : Variant → Result}
    (hsel : i.selLegal = decide (sel.toNat ≤ 1)) (hcfg : needsConfig i s = false) (hlen : i.lengthsLegal = true)
    (hk : ∀ v, AnswersOk (k v)) (hexec : exec i s = withVariant sel s k) : ChecksInOrder i s := by
  refine checksInOrder_of_selector hsel (fun hbad => hexec.trans (withVariant_of_one_lt hbad s k)) fun hlegal hle => ?_
  obtain ⟨v, hv⟩ := exists_variantOf_eq_some hle
  refine checksInOrder_of_no_checks hlegal hcfg hlen ?_
  rw [hexec, withVariant_of_eq_some hv]
  exact hk v

end

theorem checksInOrder_feCswap (ra rb : FReg) (sel : BitVec 8) (s : State) : ChecksInOrder (.feCswap ra rb sel) s := by
  refine checksInOrder_of_selector rfl (fun hbad => exec_feCswap_of_one_lt hbad ra rb s) fun hlegal hle => ?_
  refine checksInOrder_of_no_checks hlegal rfl rfl ?_
  obtain ⟨b, hb⟩ := Option.ne_none_iff_exists'.mp (mt swapBitOf_none.mp (not_lt.mpr hle))
  change AnswersOk (execFeCswap ra rb sel s)
  rw [execFeCswap, hb]
  exact answersOk_done [] _

theorem checksInOrder_feConst (rd : FReg) (sel : BitVec 8) (s : State) : ChecksInOrder (.feConst rd sel) s := by
  refine checksInOrder_of_selector rfl (fun hbad => exec_feConst_of_three_lt hbad rd s) fun hlegal hle => ?_
  refine checksInOrder_of_no_checks hlegal rfl rfl ?_
  obtain ⟨e, he⟩ := Option.ne_none_iff_exists'.mp (mt constOf_none.mp (not_lt.mpr hle))
  rw [exec_feConst he]
  exact answersOk_done [] _

/-- `AES_KEYEXP` judges the key's length by its selector, and so after it: `4 · NK` is R32's length. -/
theorem checksInOrder_aesKeyexp (sel : BitVec 8) (key : Bytes) (s : State) : ChecksInOrder (.aesKeyexp sel key) s := by
  refine checksInOrder_of_selector rfl (fun hbad => exec_aesKeyexp_of_two_lt hbad key s) fun hlegal hle => ?_
  obtain ⟨nk, hnk, hwords⟩ := exists_keyLenOf_eq_some hle
  refine checksInOrder_of_lengths hlegal rfl (answersOk_done [] (setKey nk (keySchedule nk key) s)) ?_
  have hlen : 4 * nk.words = 16 + 8 * sel.toNat := by omega
  rw [exec_aesKeyexp hnk, hlen]
  simp only [Instr.lengthsLegal, require, decide_eq_true_eq, done, failed]

/-- R164, command by command. -/
theorem exec_checksInOrder (s : State) : ∀ i : Instr, ChecksInOrder i s
  | .nop | .rdStatus | .softReset | .hmacRead | .feMov _ _ | .kxKeygen =>
    checksInOrder_of_no_checks rfl rfl rfl (answersOk_done _ _)
  | .fePack _ | .feAdd _ _ _ | .feSub _ _ _ | .feMul _ _ _ | .feSqr _ _ | .feCarry _ _ | .feInv _ _ =>
    checksInOrder_of_no_checks rfl rfl rfl (answersOk_ifInDomain (answersOk_done _ _))
  | .hashInit _ | .hashFinal _ | .hmacConfig _ =>
    checksInOrder_of_withVariant rfl rfl rfl (fun _ => answersOk_done _ _) rfl
  | .hashUpdate _ _ | .hashDigest _ _ =>
    checksInOrder_of_withVariant rfl rfl rfl (fun _ => answersOk_ite_refused (answersOk_done _ _) _) rfl
  | .feCswap ra rb sel => checksInOrder_feCswap ra rb sel s
  | .feConst rd sel => checksInOrder_feConst rd sel s
  | .aesKeyexp sel key => checksInOrder_aesKeyexp sel key s
  | .aesCipher _ | .aesInvcipher _ | .cbcEncrypt _ | .cbcDecrypt _ | .kxShared _ =>
    checksInOrder_of_flag rfl rfl (answersOk_done _ _) rfl
  | .hmacDigest _ _ => checksInOrder_of_flag rfl rfl (answersOk_ite_refused (answersOk_done _ _) _) rfl
  | .feUnpack _ _ | .x25519 _ _ | .x25519_64 _ _ => checksInOrder_of_lengths rfl rfl (answersOk_done _ _) rfl

/-! ### The step -/

/-- What a command needs is no matter of the inputs still to come. -/
theorem needsConfig_inputs (i : Instr) (s : State) (rest : List Input) :
    needsConfig i { s with inputs := rest } = needsConfig i s := by
  cases i <;> rfl

/-- Settles O8: the step of a decoded command is its checks in R164's order, and the first that fails raises its error. -/
theorem errorOrder : Obligations.ErrorOrder := by
  refine fun s c rest hs => ⟨step_of_malformed hs, fun i hd => ?_⟩
  obtain ⟨k, hk, hexec⟩ := exec_checksInOrder { s with inputs := rest } i
  rw [step_of_decode_ok hs hd, hexec, ← needsConfig_inputs i s rest]
  refine ⟨checks_of_not_selLegal, checks_of_needsConfig, checks_of_not_lengthsLegal, fun hsel hcfg hlen => ?_⟩
  rw [checks_of_passed hsel hcfg hlen]
  exact hk

end Sys2Proof.Machine
end

section
/-! PROOFS. The encoder and the decoder undo each other (R45, R48, D31), and the rows of the table select disjoint sets of
words. -/

namespace Sys2Proof

/-! ### A command word is its opcode and its fields (R45) -/

theorem wordOf_eq_layout (opc : BitVec 8) (f : Fields) :
    wordOf opc f = layout opc (.ofFin (w := 4) f.rd) (.ofFin (w := 4) f.ra) (.ofFin (w := 4) f.rb) 0#4 f.sel := by
  have hfields := fieldsOf_wordOf opc f
  rw [← layout_fields (wordOf opc f), opcOf_wordOf, rsvOf_wordOf]
  conv_rhs => rw [← hfields]
  rfl

/-- A word whose `rsv` is 0 is the word of the fields read from it. -/
theorem wordOf_fieldsOf {w : BitVec 32} (h : rsvOf w = 0#4) : wordOf (opcOf w) (fieldsOf w) = w := by
  rw [wordOf_eq_layout, ← h]
  exact layout_fields w

/-! ### Decoding an encoding -/

theorem decode_enc {opc : BitVec 8} {din : List Bytes} {rd ra rb : FReg} {sel : BitVec 8} {r : Row} {i : Instr}
    (hrow : rowOf opc = some r)
    (hmask : (enc opc din rd ra rb sel).word &&& r.mask = opc.setWidth 32 <<< 24)
    (hbuild : r.build ⟨rd, ra, rb, sel⟩ din = some i) : decode (enc opc din rd ra rb sel) = .ok i := by
  have hopc : opcOf (enc opc din rd ra rb sel).word = opc := opcOf_wordOf ..
  have hrsv : rsvOf (enc opc din rd ra rb sel).word = 0#4 := rsvOf_wordOf ..
  have hfields : fieldsOf (enc opc din rd ra rb sel).word = ⟨rd, ra, rb, sel⟩ := fieldsOf_wordOf ..
  have hmatch : r.matchWord = opc.setWidth 32 <<< 24 := by rw [Row.matchWord, (rowOf_eq_some hrow).2]
  have hdin : (enc opc din rd ra rb sel).din = din := rfl
  simp only [decode, hopc, hrow, hrsv, hmask, hmatch, hfields, hdin, hbuild, ne_eq, not_true_eq_false, if_false]

open Laws.TableMatch in
/-- Settles O1: each command's opcode has its row, whose mask passes the fields the command uses and whose builder reads
them back. -/
theorem decodeInvertsEncode : Obligations.DecodeInvertsEncode
  | .nop | .rdStatus | .softReset | .hmacRead | .kxKeygen | .hmacDigest _ _ | .aesCipher _ | .aesInvcipher _
  | .cbcEncrypt _ | .cbcDecrypt _ | .x25519 _ _ | .x25519_64 _ _ | .kxShared _ => decode_enc rfl (mask_plain _ _) rfl
  | .hashInit sel | .hashUpdate sel _ | .hashFinal sel | .hashDigest sel _ | .hmacConfig sel | .aesKeyexp sel _ =>
    decode_enc rfl (mask_sel _ _ sel) rfl
  | .feUnpack rd _ => decode_enc rfl (mask_rd _ _ rd) rfl
  | .fePack ra => decode_enc rfl (mask_ra _ _ ra) rfl
  | .feAdd rd ra rb | .feSub rd ra rb | .feMul rd ra rb => decode_enc rfl (mask_rdRaRb _ _ rd ra rb) rfl
  | .feSqr rd ra | .feCarry rd ra | .feInv rd ra | .feMov rd ra => decode_enc rfl (mask_rdRa _ _ rd ra) rfl
  | .feCswap ra rb sel => decode_enc rfl (mask_raRbSel _ _ ra rb sel) rfl
  | .feConst rd sel => decode_enc rfl (mask_rdSel _ _ rd sel) rfl

/-! ### The rows of the table -/

/-- A row that passes a word has the word's opcode: every mask holds `opc` whole (R48). -/
theorem opcOf_eq_of_and_mask {w : BitVec 32} {u : Machine.Uses} {opc : BitVec 8}
    (h : w &&& u.mask = opc.setWidth 32 <<< 24) : opcOf w = opc := by
  rw [← layout_fields w, shiftLeft_eq_layout, Machine.Uses.mask, layout_and, layout_eq_layout_iff, BitVec.and_allOnes] at h
  exact h.1

theorem rowOf_opc : ∀ r ∈ rows, rowOf r.opc = some r := by
  intro r hr
  fin_cases hr <;> rfl

theorem exists_usesOf_of_rowOf {opc : BitVec 8} {r : Row} (h : rowOf opc = some r) :
    ∃ u, Machine.usesOf opc = some u ∧ r.mask = u.mask ∧ r.din = u.din := by
  have hcol := rowOf_columns opc
  rw [h, Option.map_some, eq_comm, Option.map_eq_some_iff] at hcol
  obtain ⟨u, hu, hrow⟩ := hcol
  obtain ⟨hmask, hdin⟩ := Prod.mk.inj hrow
  exact ⟨u, hu, hmask.symm, hdin.symm⟩

theorem opcOf_eq_of_selects {r : Row} (hr : r ∈ rows) {w : BitVec 32} (h : w &&& r.mask = r.matchWord) :
    opcOf w = r.opc := by
  obtain ⟨u, -, hmask, -⟩ := exists_usesOf_of_rowOf (rowOf_opc r hr)
  exact opcOf_eq_of_and_mask (hmask ▸ h)

theorem rsvOf_eq_zero_of_selects {r : Row} (hr : r ∈ rows) {w : BitVec 32} (h : w &&& r.mask = r.matchWord) :
    rsvOf w = 0#4 := by
  obtain ⟨u, -, hmask, -⟩ := exists_usesOf_of_rowOf (rowOf_opc r hr)
  have hw : w &&& u.mask = (opcOf w).setWidth 32 <<< 24 := by rw [opcOf_eq_of_selects hr h, ← hmask]; exact h
  obtain ⟨-, -, -, hrsv, -⟩ := (and_mask_eq_iff w u).mp hw
  exact hrsv

theorem rows_pairwise_opc_ne : rows.Pairwise fun r q => r.opc ≠ q.opc := by
  rw [← List.pairwise_map (R := (· ≠ ·))]
  decide

/-- Settles O5: a row that passes a word has the word's opcode, and no two rows share one. -/
theorem rowSelection : Obligations.RowSelection := by
  refine ⟨rows_pairwise_opc_ne.imp_of_mem fun {r q} hr hq hne w ⟨hwr, hwq⟩ => ?_, fun c => ?_⟩
  · exact hne ((opcOf_eq_of_selects hr hwr).symm.trans (opcOf_eq_of_selects hq hwq))
  · rw [exists_decode_eq_ok_iff]
    constructor
    · rintro ⟨r, hrow, -, hw, hdin⟩
      exact ⟨r, (rowOf_eq_some hrow).1, hw, hdin⟩
    · rintro ⟨r, hr, hw, hdin⟩
      exact ⟨r, opcOf_eq_of_selects hr hw ▸ rowOf_opc r hr, rsvOf_eq_zero_of_selects hr hw, hw, hdin⟩

/-! ### Encoding what was decoded (D31) -/

theorem exists_row_of_decode_eq_ok {c : Command} {i : Instr} (h : decode c = .ok i) :
    ∃ r, rowOf (opcOf c.word) = some r ∧ c.word &&& r.mask = r.matchWord ∧ r.build (fieldsOf c.word) c.din = some i := by
  unfold decode at h
  split at h
  · exact nomatch h
  · next r hrow =>
    split_ifs at h with _ hmask
    split at h
    · exact nomatch h
    · next hbuild =>
      obtain rfl := Except.ok.inj h
      exact ⟨r, hrow, not_not.mp hmask, hbuild⟩

/-- The fields a command uses; the others 0. -/
def Machine.Uses.keep (u : Machine.Uses) (f : Fields) : Fields :=
  { rd := if u.rd then f.rd else 0, ra := if u.ra then f.ra else 0, rb := if u.rb then f.rb else 0,
    sel := if u.sel then f.sel else 0 }

/-- A word its row passes has nothing in the fields its command does not use. -/
theorem keep_fieldsOf {w : BitVec 32} {u : Machine.Uses} (h : w &&& u.mask = (opcOf w).setWidth 32 <<< 24) :
    u.keep (fieldsOf w) = fieldsOf w := by
  obtain ⟨hrd, hra, hrb, -, hsel⟩ := (and_mask_eq_iff w u).mp h
  have keeps {α : Type} {used : Bool} {x z : α} (hx : used = false → x = z) : (if used then x else z) = x := by
    cases used
    · exact (hx rfl).symm
    · rfl
  simp only [Machine.Uses.keep, fieldsOf]
  congr 1
  · exact keeps fun hu => congrArg BitVec.toFin (hrd hu)
  · exact keeps fun hu => congrArg BitVec.toFin (hra hu)
  · exact keeps fun hu => congrArg BitVec.toFin (hrb hu)
  · exact keeps hsel

/-- The encoding of what a row builds holds the strings it was built from, and the fields the columns say it uses. -/
def Row.EncodesBuilt (r : Row) : Prop :=
  ∀ f d i, r.build f d = some i →
    (Machine.usesOf r.opc).map (fun u => Command.mk (wordOf r.opc (u.keep f)) d) = some (encode i)

section
variable {opc : BitVec 8} {mnemonic : String} {mask : BitVec 32}

theorem row0_encodesBuilt_iff {mk : Fields → Instr} : (row0 opc mnemonic mask mk).EncodesBuilt ↔
    ∀ f, (Machine.usesOf opc).map (fun u => Command.mk (wordOf opc (u.keep f)) []) = some (encode (mk f)) := by
  refine ⟨fun h f => h f [] (mk f) rfl, ?_⟩
  rintro h f (_ | ⟨a, d⟩) i hb
  · obtain rfl := Option.some.inj hb
    exact h f
  · exact nomatch hb

theorem row1_encodesBuilt_iff {mk : Fields → Bytes → Instr} : (row1 opc mnemonic mask mk).EncodesBuilt ↔
    ∀ f a, (Machine.usesOf opc).map (fun u => Command.mk (wordOf opc (u.keep f)) [a]) = some (encode (mk f a)) := by
  refine ⟨fun h f a => h f [a] (mk f a) rfl, ?_⟩
  rintro h f (_ | ⟨a, _ | ⟨b, d⟩⟩) i hb
  · exact nomatch hb
  · obtain rfl := Option.some.inj hb
    exact h f a
  · exact nomatch hb

theorem row2_encodesBuilt_iff {mk : Fields → Bytes → Bytes → Instr} : (row2 opc mnemonic mask mk).EncodesBuilt ↔
    ∀ f a b, (Machine.usesOf opc).map (fun u => Command.mk (wordOf opc (u.keep f)) [a, b]) = some (encode (mk f a b)) := by
  refine ⟨fun h f a b => h f [a, b] (mk f a b) rfl, ?_⟩
  rintro h f (_ | ⟨a, _ | ⟨b, _ | ⟨x, d⟩⟩⟩) i hb
  · exact nomatch hb
  · exact nomatch hb
  · obtain rfl := Option.some.inj hb
    exact h f a b
  · exact nomatch hb

end

/-- The table read row by row against the encoder. -/
theorem rows_encodesBuilt : ∀ r ∈ rows, r.EncodesBuilt := by
  simp only [rows, rowsA, rowsB, rowsC, rowsD, List.forall_mem_append, List.forall_mem_cons, row0_encodesBuilt_iff,
    row1_encodesBuilt_iff, row2_encodesBuilt_iff, List.not_mem_nil, false_imp_iff, implies_true, and_true]
  and_intros <;> intros <;> rfl

/-- Settles O2: a row builds a command from the fields it uses, and its mask has made sure the others are 0. -/
theorem encodeInvertsDecode : Obligations.EncodeInvertsDecode := by
  intro c i h
  obtain ⟨r, hrow, hmask, hbuild⟩ := exists_row_of_decode_eq_ok h
  obtain ⟨hr, hopc⟩ := rowOf_eq_some hrow
  obtain ⟨u, hu, humask, -⟩ := exists_usesOf_of_rowOf hrow
  have hw : c.word &&& u.mask = (opcOf c.word).setWidth 32 <<< 24 := by rw [← humask, hmask, ← hopc]; rfl
  have hbuilt := rows_encodesBuilt r hr _ _ i hbuild
  rw [hopc, hu, Option.map_some, keep_fieldsOf hw, wordOf_fieldsOf (rsvOf_eq_zero_of_selects hr hmask)] at hbuilt
  exact (Option.some.inj hbuilt).symm

end Sys2Proof
end

section
/-! PROOFS. One normal form for every command: its checks in R164's order, then its domain (R68, R116), then its result
(R36) and its effect on the state. -/

namespace Sys2Proof.Machine

/-! ### What a command does once its checks have passed -/

/-- The result string of a command that executes (R36). -/
def resultOf : Instr → State → Bytes
  | .rdStatus, s => leBytes 4 (statusWord s).toNat
  | .hashFinal sel, s => (variantOf sel).elim [] fun v => finalDigest (getUnit s v)
  | .hashDigest sel m, _ => (variantOf sel).elim [] fun v => finalDigest (absorb (HashUnit.init v) m)
  | .hmacDigest key m, s => hmac s.hmac.hsel key m
  | .hmacRead, s => if s.hmac.hcfg then s.hmac.hout.readBytes 0 s.hmac.hsel.digestBytes else []
  | .aesCipher b, s => cipher s.ciph.w s.ciph.nk.rounds b
  | .aesInvcipher b, s => invCipher s.ciph.w s.ciph.nk.rounds b
  | .cbcEncrypt p, s => cbcEncrypt Config.cbcIv.toList s.ciph.w s.ciph.nk.rounds p
  | .cbcDecrypt c, s => cbcDecrypt Config.cbcIv.toList s.ciph.w s.ciph.nk.rounds c
  | .fePack ra, s => Fe.pack (feOf s ra)
  | .x25519 k q, _ | .x25519_64 k q, _ => scalarMult k q
  | .kxKeygen, s => scalarMult (drawValue s).toList basePoint
  | .kxShared q, s => scalarMult s.kx.priv.toList q
  | .nop, _ | .softReset, _ | .hashInit _, _ | .hashUpdate _ _, _ | .hmacConfig _, _ | .aesKeyexp _ _, _ | .feUnpack _ _, _
  | .feAdd _ _ _, _ | .feSub _ _ _, _ | .feMul _ _ _, _ | .feSqr _ _, _ | .feCarry _ _, _ | .feCswap _ _ _, _
  | .feInv _ _, _ | .feConst _ _, _ | .feMov _ _, _ => []

/-- The state a command that executes leaves, its response apart. -/
def effectOf : Instr → State → State
  | .softReset, s => resetState s
  | .hashUpdate sel data, s => (variantOf sel).elim s fun v => setUnit v (absorb (getUnit s v) data) s
  | .hashInit sel, s | .hashFinal sel, s | .hashDigest sel _, s => (variantOf sel).elim s fun v => initUnit v s
  | .hmacConfig sel, s => (variantOf sel).elim s fun v => setHmacConfig v s
  | .hmacDigest key m, s => initUnit s.hmac.hsel (setHout (houtOf (hmac s.hmac.hsel key m)) s)
  | .aesKeyexp sel key, s => (keyLenOf sel).elim s fun nk => setKey nk (keySchedule nk key) s
  | .cbcEncrypt _, s | .cbcDecrypt _, s => resetChain s
  | .feUnpack rd b, s => setF rd (Fe.unpack b).toElem s
  | .feAdd rd ra rb, s => setF rd (Fe.add (feOf s ra) (feOf s rb)).toElem s
  | .feSub rd ra rb, s => setF rd (Fe.sub (feOf s ra) (feOf s rb)).toElem s
  | .feMul rd ra rb, s => setF rd (Fe.mul (feOf s ra) (feOf s rb)).toElem s
  | .feSqr rd ra, s => setF rd (Fe.sqr (feOf s ra)).toElem s
  | .feCarry rd ra, s => setF rd (Fe.carry (feOf s ra)).toElem s
  | .feInv rd ra, s => setF rd (Fe.inv (feOf s ra)).toElem s
  | .feConst rd sel, s => (constOf sel).elim s fun c => setF rd c.toElem s
  | .feMov rd ra, s => setF rd (getF s ra) s
  | .feCswap ra rb sel, s => (swapBitOf sel).elim s fun b =>
    setF rb (cswap (getF s ra) (getF s rb) b).2 (setF ra (cswap (getF s ra) (getF s rb) b).1 s)
  | .kxKeygen, s => setPriv (drawValue s) (drawConsumed s)
  | .nop, s | .rdStatus, s | .hmacRead, s | .aesCipher _, s | .aesInvcipher _, s | .fePack _, s | .x25519 _ _, s
  | .x25519_64 _ _, s | .kxShared _, s => s

/-- A property of a state that a selector's effect has, whichever value it names, and that the state itself has. -/
theorem elim_of {α : Type} {P : State → Prop} {o : Option α} {s : State} {k : α → State} (hs : P s)
    (hk : ∀ a, o = some a → P (k a)) : P (o.elim s k) := by
  cases o with
  | none => exact hs
  | some a => exact hk a rfl

/-- Whether the spec gives a command that passes its checks a meaning (R68, R116). -/
def hasMeaning : Instr → State → Bool
  | .hashUpdate sel data, s => (variantOf sel).elim true fun v => lengthFits (getUnit s v) data.length
  | .hashDigest sel m, _ => (variantOf sel).elim true fun v => lengthFits (HashUnit.init v) m.length
  | .hmacDigest key m, s => hmacDomain s.hmac.hsel key m
  | .feAdd _ ra rb, s => inDomain (Fe.add (feOf s ra) (feOf s rb))
  | .feSub _ ra rb, s => inDomain (Fe.sub (feOf s ra) (feOf s rb))
  | .feMul _ ra rb, s => inDomain (Fe.mulNamed (feOf s ra) (feOf s rb))
  | .feSqr _ ra, s => inDomain (Fe.mulNamed (feOf s ra) (feOf s ra))
  | .feCarry _ ra, s => inDomain (Fe.carryNamed (feOf s ra))
  | .feInv _ ra, s => Fe.invDomain (feOf s ra)
  | .fePack ra, s => inDomain (Fe.packNamed (feOf s ra))
  | .nop, _ | .rdStatus, _ | .softReset, _ | .hashInit _, _ | .hashFinal _, _ | .hmacConfig _, _ | .hmacRead, _
  | .aesKeyexp _ _, _ | .aesCipher _, _ | .aesInvcipher _, _ | .cbcEncrypt _, _ | .cbcDecrypt _, _ | .feUnpack _ _, _
  | .feCswap _ _ _, _ | .feConst _ _, _ | .feMov _ _, _ | .x25519 _ _, _ | .x25519_64 _ _, _ | .kxKeygen, _
  | .kxShared _, _ => true

/-- The refusal of a command without a meaning (R68, R116). -/
def refusalOf : Instr → Refusal
  | .hashUpdate _ _ | .hashDigest _ _ | .hmacDigest _ _ => .hashLengthOutOfDomain
  | _ => .limbOutOfDomain

/-- What a command ends in once its checks have passed. -/
def complete (i : Instr) (s : State) : Result :=
  if hasMeaning i s then done (resultOf i s) (effectOf i s) else .refused (refusalOf i)

/-! ### The normal form -/

section
variable {i : Instr} {s : State}

theorem exec_eq_checks_of_no_checks (hsel : i.selLegal = true) (hcfg : needsConfig i s = false)
    (hlen : i.lengthsLegal = true) (h : exec i s = complete i s) : exec i s = checks i s (complete i s) :=
  h.trans (checks_of_passed hsel hcfg hlen).symm

theorem exec_eq_checks_of_lengths (hsel : i.selLegal = true) (hcfg : needsConfig i s = false)
    (h : exec i s = require .invalidInputLength i.lengthsLegal s (complete i s)) : exec i s = checks i s (complete i s) :=
  h.trans (checks_of_configured hsel hcfg).symm

theorem exec_eq_checks_of_flag {flag : Bool} (hsel : i.selLegal = true) (hcfg : needsConfig i s = !flag)
    (h : exec i s = require .notConfigured flag s (require .invalidInputLength i.lengthsLegal s (complete i s))) :
    exec i s = checks i s (complete i s) :=
  h.trans (checks_of_flag hsel hcfg).symm

/-- An illegal selector ends a command whatever would follow, so only a legal one is left to look at. -/
theorem exec_eq_checks_of_selLegal (h : i.selLegal = true → exec i s = checks i s (complete i s)) :
    exec i s = checks i s (complete i s) := by
  cases hsel : i.selLegal with
  | true => exact h hsel
  | false =>
    obtain ⟨k, -, hexec⟩ := exec_checksInOrder s i
    rw [hexec, checks_of_not_selLegal hsel, checks_of_not_selLegal hsel]

/-- A command whose one check is for a hash variant. -/
theorem exec_eq_checks_of_variant {sel : BitVec 8} (hsel : i.selLegal = decide (sel.toNat ≤ 1))
    (hcfg : needsConfig i s = false) (hlen : i.lengthsLegal = true)
    (h : ∀ v, variantOf sel = some v → exec i s = complete i s) : exec i s = checks i s (complete i s) := by
  refine exec_eq_checks_of_selLegal fun hlegal => exec_eq_checks_of_no_checks hlegal hcfg hlen ?_
  obtain ⟨v, hv⟩ := exists_variantOf_eq_some (of_decide_eq_true (hsel ▸ hlegal))
  exact h v hv

end

theorem exec_feCswap {sel : BitVec 8} {b : Bool} (h : swapBitOf sel = some b) (ra rb : FReg) (s : State) :
    exec (.feCswap ra rb sel) s =
      .next (respond [] (setF rb (cswap (getF s ra) (getF s rb) b).2 (setF ra (cswap (getF s ra) (getF s rb) b).1 s))) := by
  change execFeCswap ra rb sel s = _
  rw [execFeCswap, h]
  rfl

/-- Every command makes its checks in R164's order, and then it is `complete`. -/
theorem exec_eq_checks (s : State) : ∀ i : Instr, exec i s = checks i s (complete i s)
  | .nop | .rdStatus | .softReset | .hmacRead | .feMov _ _ | .kxKeygen | .fePack _ | .feAdd _ _ _ | .feSub _ _ _
  | .feMul _ _ _ | .feSqr _ _ | .feCarry _ _ | .feInv _ _ => exec_eq_checks_of_no_checks rfl rfl rfl rfl
  | .aesCipher _ | .aesInvcipher _ | .cbcEncrypt _ | .cbcDecrypt _ | .kxShared _ | .hmacDigest _ _ =>
    exec_eq_checks_of_flag rfl rfl rfl
  | .feUnpack _ _ | .x25519 _ _ | .x25519_64 _ _ => exec_eq_checks_of_lengths rfl rfl rfl
  | .hashInit sel => exec_eq_checks_of_variant rfl rfl rfl fun v hv => by
    simp [exec_hashInit hv, complete, hasMeaning, resultOf, effectOf, hv, done, initUnit]
  | .hashFinal sel => exec_eq_checks_of_variant rfl rfl rfl fun v hv => by
    simp [exec_hashFinal hv, complete, hasMeaning, resultOf, effectOf, hv, done, initUnit]
  | .hmacConfig sel => exec_eq_checks_of_variant rfl rfl rfl fun v hv => by
    simp [exec_hmacConfig hv, complete, hasMeaning, resultOf, effectOf, hv, done]
  | .hashUpdate sel data => exec_eq_checks_of_variant rfl rfl rfl fun v hv => by
    simp [exec_hashUpdate hv, complete, hasMeaning, resultOf, effectOf, hv, done, lengthFits, refusalOf]
  | .hashDigest sel m => exec_eq_checks_of_variant rfl rfl rfl fun v hv => by
    simp [exec_hashDigest hv, complete, hasMeaning, resultOf, effectOf, hv, done, lengthFits, refusalOf, initUnit]
  | .aesKeyexp sel key => exec_eq_checks_of_selLegal fun hlegal => by
    obtain ⟨nk, hnk, hwords⟩ := exists_keyLenOf_eq_some (of_decide_eq_true hlegal)
    have hlen : 4 * nk.words = 16 + 8 * sel.toNat := by omega
    rw [checks_of_configured hlegal rfl, exec_aesKeyexp hnk, hlen]
    simp [Instr.lengthsLegal, require, complete, hasMeaning, resultOf, effectOf, hnk, done, failed]
  | .feCswap ra rb sel => exec_eq_checks_of_selLegal fun hlegal => by
    obtain ⟨b, hb⟩ := Option.ne_none_iff_exists'.mp (mt swapBitOf_none.mp (not_lt.mpr (of_decide_eq_true hlegal)))
    rw [checks_of_passed hlegal rfl rfl, exec_feCswap hb]
    simp [complete, hasMeaning, resultOf, effectOf, hb, done]
  | .feConst rd sel => exec_eq_checks_of_selLegal fun hlegal => by
    obtain ⟨c, hc⟩ := Option.ne_none_iff_exists'.mp (mt constOf_none.mp (not_lt.mpr (of_decide_eq_true hlegal)))
    rw [checks_of_passed hlegal rfl rfl, exec_feConst hc]
    simp [complete, hasMeaning, resultOf, effectOf, hc, done]

/-! ### What a command can end in -/

/-- The error a command's checks end in, if one fails (R164). -/
def failureOf (i : Instr) (s : State) : Option Err :=
  if i.selLegal = false then some .invalidSelector
  else if needsConfig i s = true then some .notConfigured
  else if i.lengthsLegal = false then some .invalidInputLength
  else none

theorem failureOf_eq_none_iff {i : Instr} {s : State} :
    failureOf i s = none ↔ i.selLegal = true ∧ needsConfig i s = false ∧ i.lengthsLegal = true := by
  unfold failureOf
  split_ifs <;> simp_all

theorem exec_of_failureOf {i : Instr} {s : State} {e : Err} (h : failureOf i s = some e) :
    exec i s = .next (raise e s) := by
  rw [exec_eq_checks]
  unfold failureOf at h
  split_ifs at h with hsel hcfg hlen <;> obtain rfl := Option.some.inj h
  · exact checks_of_not_selLegal hsel
  · exact checks_of_needsConfig (by simpa using hsel) hcfg
  · exact checks_of_not_lengthsLegal (by simpa using hsel) (by simpa using hcfg) hlen

theorem exec_of_failureOf_eq_none {i : Instr} {s : State} (h : failureOf i s = none) : exec i s = complete i s := by
  obtain ⟨hsel, hcfg, hlen⟩ := failureOf_eq_none_iff.mp h
  rw [exec_eq_checks, checks_of_passed hsel hcfg hlen]

/-- A command that gives a next state has raised the error of its first failed check, or has executed. -/
theorem exec_eq_next_iff {i : Instr} {s t : State} :
    exec i s = .next t ↔
      (∃ e, failureOf i s = some e ∧ t = raise e s) ∨
        (failureOf i s = none ∧ hasMeaning i s = true ∧ t = respond (resultOf i s) (effectOf i s)) := by
  cases hf : failureOf i s with
  | some e => simp [exec_of_failureOf hf, eq_comm (a := t)]
  | none => cases hm : hasMeaning i s <;> simp [exec_of_failureOf_eq_none hf, complete, hm, done, eq_comm (a := t)]

theorem exec_eq_refused_iff {i : Instr} {s : State} {r : Refusal} :
    exec i s = .refused r ↔ failureOf i s = none ∧ hasMeaning i s = false ∧ r = refusalOf i := by
  cases hf : failureOf i s with
  | some e => simp [exec_of_failureOf hf]
  | none => cases hm : hasMeaning i s <;> simp [exec_of_failureOf_eq_none hf, complete, hm, done, eq_comm (a := r)]

theorem Err.code_ne_zero (e : Err) : e.code ≠ 0#4 := by cases e <;> decide

/-- An error response is not `OK` (R163). -/
theorem not_okWith_raise (e : Err) (s : State) (d : Bytes) : ¬OkWith (raise e s) d := by
  simp [OkWith, e.code_ne_zero]

theorem okWith_respond_iff {d d' : Bytes} {s : State} : OkWith (respond d s) d' ↔ d = d' := by
  simp [OkWith, okCode]

end Sys2Proof.Machine
end

section
/-! PROOFS. One step (R33, R38, R177, R180), and the invariants every step keeps (R15, R17, R18, R19, R30, R36, R163). -/

namespace Sys2Proof.Machine

/-! ### The step -/

theorem step_of_no_inputs {s : State} (h : s.inputs = []) : step s = .next s := by
  simp [step, fetch, h]

theorem step_of_reset {s : State} {rest : List Input} (h : s.inputs = .reset :: rest) :
    step s = .next (resetState { s with inputs := rest }) := by
  simp [step, fetch, h]

/-- Settles O7: an idle step keeps the state, and an asserted reset is `resetState`. -/
theorem stepIdleAndReset : Obligations.StepIdleAndReset :=
  ⟨fun _ => step_of_no_inputs, fun _ _ => step_of_reset⟩

theorem decode_probeCommand {nbits w : Nat} {i : Instr} (h : decodeTableWord nbits w = some i) :
    decode (probeCommand w) = .ok i := by
  unfold decodeTableWord at h
  split_ifs at h
  split at h
  · next hd => rw [hd, Option.some.inj h]
  · exact nomatch h

/-- Settles O6: the step takes the command off the port and runs what it decodes to; `withFetchWord` puts the probed word
there. -/
theorem stepRunsDecodedCommand : Obligations.StepRunsDecodedCommand :=
  ⟨fun _ _ _ _ => step_of_decode_ok, fun s nbits w _ h =>
    step_of_decode_ok (s := s.withFetchWord nbits w) (rest := s.inputs) rfl (decode_probeCommand h)⟩

/-- Settles O3: each word of R51 is computed through the decoder. -/
theorem exampleWordsDecode : Obligations.ExampleWordsDecode :=
  ⟨rfl, rfl, rfl, rfl, rfl, rfl, rfl, rfl, rfl, rfl, rfl⟩

/-! ### The reset state -/

/-- Settles O60: both hash units are initialised, and the other clauses are read off the reset values. -/
theorem invariantAtReset : Obligations.InvariantAtReset :=
  ⟨⟨rfl, rfl, rfl⟩, ⟨HashUnit.inv_init .s32, HashUnit.inv_init .s64⟩, ⟨rfl, rfl⟩,
    ⟨by decide, fun i _ => Vector.getElem_replicate i.isLt⟩, fun _ => rfl, .inl ⟨rfl, rfl⟩, nofun⟩

/-! ### Each operation on the state keeps the invariants -/

theorem HashUnit.Inv.absorb {v : Variant} {u : HashUnit v} (hu : u.Inv) (data : Bytes)
    (hfit : u.len.toNat + 8 * data.length < 2 ^ v.lenBits) : (absorb u data).Inv := by
  induction data generalizing u with
  | nil => exact hu
  | cons b data ih =>
    rw [List.length_cons] at hfit
    have hb : u.len.toNat + 8 < 2 ^ v.lenBits := by omega
    rw [absorb_cons]
    exact ih (hu.absorbByte b hb) (by rw [toNat_len_absorbByte b hb]; omega)

theorem inv_resetState (s : State) : (resetState s).Inv := invariantAtReset

section
variable {s : State} (hs : s.Inv)
include hs

theorem inv_getUnit (v : Variant) : (getUnit s v).Inv := by
  obtain ⟨-, ⟨h32, h64⟩, -⟩ := hs
  cases v
  · exact h32
  · exact h64

/-- An error is recorded as it is answered (R163). -/
theorem inv_raise (e : Err) : (raise e s).Inv := by
  obtain ⟨hmem, hhash, hchain, hkey, hpriv, -, -⟩ := hs
  have hcode : 1 ≤ e.code.toNat ∧ e.code.toNat ≤ 4 := by cases e <;> decide
  refine ⟨hmem, hhash, hchain, hkey, hpriv, .inr ⟨rfl, hcode⟩, fun r hr => ?_⟩
  obtain rfl := Option.some.inj hr
  exact ⟨hcode.2, fun _ => ⟨rfl, rfl, rfl⟩⟩

theorem inv_respond (d : Bytes) : (respond d s).Inv := by
  obtain ⟨hmem, hhash, hchain, hkey, hpriv, herr, -⟩ := hs
  refine ⟨hmem, hhash, hchain, hkey, hpriv, herr, fun r hr => ?_⟩
  obtain rfl := Option.some.inj hr
  exact ⟨Nat.zero_le 4, fun h => absurd rfl h⟩

theorem inv_setUnit {v : Variant} {u : HashUnit v} (hu : u.Inv) : (setUnit v u s).Inv := by
  obtain ⟨⟨hm32, hm64, hmout⟩, ⟨h32, h64⟩, hrest⟩ := hs
  cases v
  · exact ⟨⟨hu.1, hm64, hmout⟩, ⟨hu, h64⟩, hrest⟩
  · exact ⟨⟨hm32, hu.1, hmout⟩, ⟨h32, hu⟩, hrest⟩

theorem inv_initUnit (v : Variant) : (initUnit v s).Inv := inv_setUnit hs (HashUnit.inv_init v)

theorem inv_setHmacConfig (v : Variant) : (setHmacConfig v s).Inv := hs

theorem inv_setHout {m : Memory} (hm : m.wf 64 = true) : (setHout m s).Inv := by
  obtain ⟨⟨hm32, hm64, -⟩, hrest⟩ := hs
  exact ⟨⟨hm32, hm64, hm⟩, hrest⟩

theorem inv_setF (i : FReg) (e : Elem) : (setF i e s).Inv := hs

theorem inv_resetChain : (resetChain s).Inv := by
  obtain ⟨hmem, hhash, -, hrest⟩ := hs
  exact ⟨hmem, hhash, ⟨rfl, rfl⟩, hrest⟩

/-- A key pair is held once it is written, so nothing is asked of `PRIV` (R19). -/
theorem inv_setPriv (d : Vector Byte 32) : (setPriv d s).Inv := by
  obtain ⟨hmem, hhash, hchain, hkey, -, hrest⟩ := hs
  exact ⟨hmem, hhash, hchain, hkey, nofun, hrest⟩

theorem inv_drawConsumed : (drawConsumed s).Inv := hs

/-- A schedule of a named key size leaves the words above it zero (R95). -/
theorem inv_setKey_keySchedule {sel : BitVec 8} {nk : KeyLen} (hnk : keyLenOf sel = some nk) (key : Bytes) :
    (setKey nk (keySchedule nk key) s).Inv := by
  obtain ⟨hmem, hhash, hchain, -, hrest⟩ := hs
  have hwords := words_of_keyLenOf_eq_some hnk
  have hne : nk ≠ .zero := by rintro rfl; simp [KeyLen.words] at hwords; omega
  refine ⟨hmem, hhash, hchain, ⟨iff_of_true rfl hne, fun i hi => ?_⟩, hrest⟩
  have hlen : (keyWords nk key).length ≤ i := by
    rw [length_keyWords]
    cases nk
    · exact absurd rfl hne
    all_goals exact hi
  exact (Vector.getElem_ofFn i.isLt).trans (List.getD_eq_default _ _ hlen)

/-- The effect of a command that has a meaning keeps the invariants. -/
theorem inv_effectOf : ∀ {i : Instr}, hasMeaning i s = true → (effectOf i s).Inv
  | .softReset, _ => inv_resetState s
  | .hashUpdate sel data, h => elim_of hs fun v hv => by
    have hfit : (getUnit s v).len.toNat + 8 * data.length < 2 ^ v.lenBits := by
      simpa [hasMeaning, hv, lengthFits] using h
    exact inv_setUnit hs ((inv_getUnit hs v).absorb data hfit)
  | .hashInit _, _ | .hashFinal _, _ | .hashDigest _ _, _ => elim_of hs fun v _ => inv_initUnit hs v
  | .hmacConfig _, _ => elim_of hs fun v _ => inv_setHmacConfig hs v
  | .hmacDigest key m, _ =>
    inv_initUnit (inv_setHout hs (wf_houtOf ((length_hmac _ key m).trans_le (digestBytes_le _)))) _
  | .aesKeyexp _ key, _ => elim_of hs fun _ hnk => inv_setKey_keySchedule hs hnk key
  | .cbcEncrypt _, _ | .cbcDecrypt _, _ => inv_resetChain hs
  | .feUnpack _ _, _ | .feAdd _ _ _, _ | .feSub _ _ _, _ | .feMul _ _ _, _ | .feSqr _ _, _ | .feCarry _ _, _
  | .feInv _ _, _ | .feMov _ _, _ => inv_setF hs _ _
  | .feConst rd _, _ => elim_of hs fun _ _ => inv_setF hs rd _
  | .feCswap ra rb _, _ => elim_of hs fun _ _ => inv_setF (inv_setF hs ra _) rb _
  | .kxKeygen, _ => inv_setPriv (inv_drawConsumed hs) _
  | .nop, _ | .rdStatus, _ | .hmacRead, _ | .aesCipher _, _ | .aesInvcipher _, _ | .fePack _, _ | .x25519 _ _, _
  | .x25519_64 _ _, _ | .kxShared _, _ => hs

theorem inv_of_exec_eq_next {i : Instr} {t : State} (h : exec i s = .next t) : t.Inv := by
  rcases exec_eq_next_iff.mp h with ⟨e, -, rfl⟩ | ⟨-, hm, rfl⟩
  · exact inv_raise hs e
  · exact inv_respond (inv_effectOf hs hm) _

end

/-- Settles O59: an idle step keeps the state, a reset starts it afresh, a malformed command raises an error, and a command
that decodes is `exec`. -/
theorem invariantKept : Obligations.InvariantKept := by
  intro s t hs h
  rcases fetch_cases s with ⟨hi, -⟩ | ⟨rest, hi, -⟩ | ⟨c, rest, e, hi, hd, -⟩ | ⟨c, rest, i, hi, hd, -⟩
  · rw [step_of_no_inputs hi] at h
    obtain rfl := Host.Outcome.next.inj h
    exact hs
  · rw [step_of_reset hi] at h
    obtain rfl := Host.Outcome.next.inj h
    exact inv_resetState _
  · rw [step_of_decode_error hi hd] at h
    obtain rfl := Host.Outcome.next.inj h
    exact inv_raise (s := { s with inputs := rest }) hs _
  · rw [step_of_decode_ok hi hd] at h
    exact inv_of_exec_eq_next (s := { s with inputs := rest }) hs h

end Sys2Proof.Machine
end

section
/-! PROOFS. What a command writes and what it reads (R24), with what rests on it: the flags (R13), idempotence (R33) and the
secrecy of `PRIV` (R19, R149). -/

namespace Sys2Proof.Machine

/-! ### What each operation on the state leaves as it was (R23) -/

@[simp] theorem getUnit_setF (i : FReg) (e : Elem) (s : State) (v : Variant) : getUnit (setF i e s) v = getUnit s v := by
  cases v <;> rfl
@[simp] theorem getUnit_setHmacConfig (w : Variant) (s : State) (v : Variant) :
    getUnit (setHmacConfig w s) v = getUnit s v := by
  cases v <;> rfl
@[simp] theorem getUnit_setKey (nk : KeyLen) (w : Vector (BitVec 32) 60) (s : State) (v : Variant) :
    getUnit (setKey nk w s) v = getUnit s v := by
  cases v <;> rfl
@[simp] theorem getUnit_setCbc (iv last : Vector Byte 16) (s : State) (v : Variant) :
    getUnit (setCbc iv last s) v = getUnit s v := by
  cases v <;> rfl
@[simp] theorem getUnit_setPriv (d : Vector Byte 32) (s : State) (v : Variant) :
    getUnit (setPriv d s) v = getUnit s v := by
  cases v <;> rfl
@[simp] theorem getUnit_drawConsumed (s : State) (v : Variant) : getUnit (drawConsumed s) v = getUnit s v := by
  cases v <;> rfl

section
variable {x : Element}

theorem same_raise (hx : x ≠ .errs) (hx' : x ≠ .lasterr) (e : Err) (s : State) : Same x s (raise e s) := by
  cases x <;> simp_all [Same]

theorem same_setF {rd : FReg} (hx : x ≠ .f rd) (e : Elem) (s : State) : Same x s (setF rd e s) := by
  cases x <;> simp_all [Same, getF_setF_other]

theorem same_setHmacConfig (hx : x ≠ .hcfg) (hx' : x ≠ .hsel) (v : Variant) (s : State) :
    Same x s (setHmacConfig v s) := by
  cases x <;> simp_all [Same, getF]

theorem same_setHout (hx : x ≠ .hout) (m : Memory) (s : State) : Same x s (setHout m s) := by
  cases x <;> simp_all [Same, getF]

theorem same_setKey (hx : x.inCipher = false) (nk : KeyLen) (w : Vector (BitVec 32) 60) (s : State) :
    Same x s (setKey nk w s) := by
  cases x <;> simp_all [Same, getF, Element.inCipher]

theorem same_resetChain (hx : x ≠ .iv) (hx' : x ≠ .last) (s : State) : Same x s (resetChain s) := by
  cases x <;> simp_all [Same, getF, resetChain]

theorem same_setPriv (hx : x ≠ .priv) (hx' : x ≠ .privv) (d : Vector Byte 32) (s : State) : Same x s (setPriv d s) := by
  cases x <;> simp_all [Same, getF]

theorem same_drawConsumed (s : State) : Same x s (drawConsumed s) := by
  cases x <;> simp [Same, getF]

end

/-! ### The column "writes" (R24) -/

theorem inSelected_of_eq_some {sel : BitVec 8} {v : Variant} (h : variantOf sel = some v) (x : Element) :
    inSelected sel x = x.inUnit v := by
  simp [inSelected, h]

/-- An executed command leaves what its row does not write. -/
theorem same_effectOf {x : Element} {s : State} : ∀ {i : Instr}, writes i s x = false → Same x s (effectOf i s)
  | .softReset, h => nomatch h
  | .hashUpdate _ _, h | .hashInit _, h | .hashFinal _, h | .hashDigest _ _, h =>
    elim_of (P := Same x s) (Same.refl x s) fun _ hv => same_setUnit (inSelected_of_eq_some hv x ▸ h) _ s
  | .hmacConfig sel, h => by
    have hx : x ≠ .hcfg ∧ x ≠ .hsel := by simpa [writes] using h
    exact elim_of (P := Same x s) (Same.refl x s) fun v _ => same_setHmacConfig hx.1 hx.2 v s
  | .hmacDigest key m, h => by
    have hx : x ≠ .hout ∧ x.inUnit s.hmac.hsel = false := by simpa [writes] using h
    exact (same_setHout hx.1 _ s).trans (same_setUnit hx.2 _ _)
  | .aesKeyexp sel key, h => elim_of (P := Same x s) (Same.refl x s) fun _ _ => same_setKey h _ _ s
  | .cbcEncrypt _, h | .cbcDecrypt _, h => by
    have hx : x ≠ .iv ∧ x ≠ .last := by simpa [writes] using h
    exact same_resetChain hx.1 hx.2 s
  | .feUnpack _ _, h | .feAdd _ _ _, h | .feSub _ _ _, h | .feMul _ _ _, h | .feSqr _ _, h | .feCarry _ _, h
  | .feInv _ _, h | .feMov _ _, h => same_setF (of_decide_eq_false h) _ s
  | .feConst _ _, h => elim_of (P := Same x s) (Same.refl x s) fun _ _ => same_setF (of_decide_eq_false h) _ s
  | .feCswap ra rb sel, h => by
    have hx : x ≠ .f ra ∧ x ≠ .f rb := by simpa [writes] using h
    exact elim_of (P := Same x s) (Same.refl x s) fun _ _ => (same_setF hx.1 _ s).trans (same_setF hx.2 _ _)
  | .kxKeygen, h => by
    have hx : x ≠ .priv ∧ x ≠ .privv := by simpa [writes] using h
    exact (same_drawConsumed s).trans (same_setPriv hx.1 hx.2 _ _)
  | .nop, _ | .rdStatus, _ | .hmacRead, _ | .aesCipher _, _ | .aesInvcipher _, _ | .fePack _, _ | .x25519 _ _, _
  | .x25519_64 _ _, _ | .kxShared _, _ => Same.refl x s

/-- `t` has the inputs and the entropy source of `s`: the fields outside CORE, the last response apart. -/
def SamePorts (s t : State) : Prop := t.inputs = s.inputs ∧ t.rnd = s.rnd ∧ t.drawn = s.drawn

theorem samePorts_refl (s : State) : SamePorts s s := ⟨rfl, rfl, rfl⟩

theorem samePorts_effectOf (s : State) : ∀ {i : Instr}, i ≠ .kxKeygen → SamePorts s (effectOf i s)
  | .kxKeygen, h => absurd rfl h
  | .hashUpdate _ _, _ | .hashInit _, _ | .hashFinal _, _ | .hashDigest _ _, _ =>
    elim_of (P := SamePorts s) (samePorts_refl s) fun _ _ => ⟨setUnit_inputs .., setUnit_rnd .., setUnit_drawn ..⟩
  | .hmacDigest _ _, _ => ⟨setUnit_inputs .., setUnit_rnd .., setUnit_drawn ..⟩
  | .hmacConfig _, _ | .aesKeyexp _ _, _ | .feConst _ _, _ | .feCswap _ _ _, _ =>
    elim_of (P := SamePorts s) (samePorts_refl s) fun _ _ => samePorts_refl s
  | .softReset, _ | .cbcEncrypt _, _ | .cbcDecrypt _, _ | .feUnpack _ _, _ | .feAdd _ _ _, _ | .feSub _ _ _, _
  | .feMul _ _ _, _ | .feSqr _ _, _ | .feCarry _ _, _ | .feInv _ _, _ | .feMov _ _, _ | .nop, _ | .rdStatus, _
  | .hmacRead, _ | .aesCipher _, _ | .aesInvcipher _, _ | .fePack _, _ | .x25519 _ _, _ | .x25519_64 _ _, _
  | .kxShared _, _ => samePorts_refl s

theorem inputs_effectOf (i : Instr) (s : State) : (effectOf i s).inputs = s.inputs := by
  by_cases h : i = .kxKeygen
  · subst h
    rfl
  · exact (samePorts_effectOf s h).1

/-- Settles O11: an error writes `ERRS` and `LASTERR` alone, and an executed command what `effectOf` writes. -/
theorem writeSets : Obligations.WriteSets := by
  intro i s t h
  rcases exec_eq_next_iff.mp h with ⟨e, -, rfl⟩ | ⟨-, -, rfl⟩
  · exact ⟨fun x _ hx hx' => same_raise hx hx' e s, fun d hok => absurd hok (not_okWith_raise e s d),
      fun _ x hx hx' => same_raise hx hx' e s, rfl, fun _ => ⟨rfl, rfl⟩⟩
  · have hsame (x : Element) (hx : writes i s x = false) : Same x s (respond (resultOf i s) (effectOf i s)) :=
      (same_effectOf hx).trans (same_respond x _ _).symm
    exact ⟨fun x hx _ _ => hsame x hx, fun _ _ => hsame, fun hno => absurd (okWith_respond_iff.mpr rfl) (hno _),
      inputs_effectOf i s, fun hi => (samePorts_effectOf s hi).2⟩

/-! ### The flags (R13) -/

/-- A flag that one command sets and `SOFT_RESET` clears. -/
theorem flag_iff {i : Instr} {sets : Prop} {before after : Bool} (hset : sets → after = true)
    (hreset : i = .softReset → ¬sets ∧ after = false) (hkeep : i ≠ .softReset → ¬sets → after = before) :
    after = true ↔ sets ∨ (before = true ∧ i ≠ .softReset) := by
  by_cases hi : i = .softReset
  · simp [hi, hreset hi]
  · by_cases hs : sets
    · simp [hs, hset hs]
    · simp [hs, hi, hkeep hi hs]

theorem keyLenOf_isSome {sel : BitVec 8} {key : Bytes} (h : (Instr.aesKeyexp sel key).selLegal = true) :
    ∃ nk, keyLenOf sel = some nk := by
  obtain ⟨nk, hnk, -⟩ := exists_keyLenOf_eq_some (of_decide_eq_true h)
  exact ⟨nk, hnk⟩

theorem inSelected_eq_false_iff {sel : BitVec 8} {x : Element} :
    inSelected sel x = false ↔ ∀ v, variantOf sel = some v → x.inUnit v = false := by
  cases h : variantOf sel <;> simp [inSelected, h]

section
variable {i : Instr} {s : State} (hf : failureOf i s = none)
include hf

theorem keyed_effectOf : (effectOf i s).ciph.keyed = true ↔
    (∃ sel key, i = .aesKeyexp sel key) ∨ (s.ciph.keyed = true ∧ i ≠ .softReset) := by
  refine flag_iff ?_ ?_ fun hi hsets => (same_effectOf (x := .keyed) ?_).symm
  · rintro ⟨sel, key, rfl⟩
    obtain ⟨nk, hnk⟩ := keyLenOf_isSome (failureOf_eq_none_iff.mp hf).1
    simp [effectOf, hnk]
  · rintro rfl
    exact ⟨by simp, rfl⟩
  · cases i <;> simp_all [writes, Element.inUnit, inSelected_eq_false_iff]

theorem hcfg_effectOf : (effectOf i s).hmac.hcfg = true ↔
    (∃ sel, i = .hmacConfig sel) ∨ (s.hmac.hcfg = true ∧ i ≠ .softReset) := by
  refine flag_iff ?_ ?_ fun hi hsets => (same_effectOf (x := .hcfg) ?_).symm
  · rintro ⟨sel, rfl⟩
    obtain ⟨v, hv⟩ := exists_variantOf_eq_some (of_decide_eq_true (failureOf_eq_none_iff.mp hf).1)
    simp [effectOf, hv]
  · rintro rfl
    exact ⟨by simp, rfl⟩
  · cases i <;> simp_all [writes, Element.inUnit, Element.inCipher, inSelected_eq_false_iff]

omit hf in
theorem privv_effectOf : (effectOf i s).kx.privv = true ↔ i = .kxKeygen ∨ (s.kx.privv = true ∧ i ≠ .softReset) := by
  refine flag_iff ?_ ?_ fun hi hsets => (same_effectOf (x := .privv) ?_).symm
  · rintro rfl
    rfl
  · rintro rfl
    exact ⟨by simp, rfl⟩
  · cases i <;> simp_all [writes, Element.inUnit, Element.inCipher, inSelected_eq_false_iff]

end

/-- An executed command keeps `ERRS` and `LASTERR`, unless it is `SOFT_RESET`. -/
theorem same_error_effectOf {i : Instr} (hi : i ≠ .softReset) (s : State) :
    (effectOf i s).errs = s.errs ∧ (effectOf i s).lasterr = s.lasterr := by
  have hw (x : Element) (hx : x = .errs ∨ x = .lasterr) : writes i s x = false := by
    rcases hx with rfl | rfl <;>
      cases i <;> simp_all [writes, Element.inUnit, Element.inCipher, inSelected_eq_false_iff]
  exact ⟨(same_effectOf (hw .errs (.inl rfl))).symm, (same_effectOf (hw .lasterr (.inr rfl))).symm⟩

/-- Settles O9: an error leaves the flags and records its code; an executed command sets its own flag, and `SOFT_RESET`, which
cannot fail, clears them all. -/
theorem flagTable : Obligations.FlagTable := by
  intro i s t h
  rcases exec_eq_next_iff.mp h with ⟨e, hf, rfl⟩ | ⟨hf, -, rfl⟩
  · have hi : i ≠ .softReset := by
      rintro rfl
      exact nomatch hf
    have hno := not_okWith_raise e s
    simp [hi, hno]
  · have hcode (r : Response) : some { code := okCode, dout := resultOf i s } = some r → r.code = 0#4 := by
      rintro ⟨⟩
      rfl
    by_cases hi : i = .softReset
    · subst hi
      simp [okWith_respond_iff, effectOf, State.reset, okCode]
    · obtain ⟨herrs, hlasterr⟩ := same_error_effectOf hi s
      simp [okWith_respond_iff, keyed_effectOf hf, hcfg_effectOf hf, privv_effectOf, herrs, hlasterr, hi, okCode]

end Sys2Proof.Machine
end

section
/-! PROOFS. A command depends on nothing outside its row's reads (R24), and what follows of it: a command that writes nothing
it reads is idempotent (R33), and `PRIV` stays secret (R19, R149). -/

namespace Sys2Proof.Machine

/-! ### States that agree on what a command reads -/

/-- The two states agree on every element in the command's column "reads". -/
def AgreeOnReads (i : Instr) (s t : State) : Prop := ∀ x : Element, reads i x = true → Same x s t

theorem hashUnit_ext {v : Variant} {u u' : HashUnit v} (hh : u.h = u'.h) (hbuf : u.buf = u'.buf) (hfill : u.fill = u'.fill)
    (hlen : u.len = u'.len) : u = u' := by
  cases u
  cases u'
  simp_all

section
variable {s t : State}

theorem getUnit_eq_of_same {v : Variant} (h : ∀ x : Element, x.inUnit v = true → Same x s t) : getUnit s v = getUnit t v :=
  hashUnit_ext (h (.h v) (decide_eq_true rfl)) (h (.buf v) (decide_eq_true rfl)) (h (.fill v) (decide_eq_true rfl))
    (h (.len v) (decide_eq_true rfl))

theorem getUnit_eq_of_selected {sel : BitVec 8} {v : Variant} (hv : variantOf sel = some v)
    (h : ∀ x : Element, inSelected sel x = true → Same x s t) : getUnit s v = getUnit t v :=
  getUnit_eq_of_same fun x hx => h x (inSelected_of_eq_some hv x ▸ hx)

theorem ciph_eq_of_same (h : ∀ x : Element, x.inCipher = true → Same x s t) : s.ciph = t.ciph := by
  have hkeyed : s.ciph.keyed = t.ciph.keyed := h .keyed rfl
  have hnk : s.ciph.nk = t.ciph.nk := h .nk rfl
  have hw : s.ciph.w = t.ciph.w := h .w rfl
  cases hs : s.ciph
  cases ht : t.ciph
  simp_all

theorem feOf_eq_of_same {i : FReg} (h : Same (.f i) s t) : feOf s i = feOf t i :=
  congrArg Elem.toFe h

theorem statusWord_eq_of_same (h : ∀ x : Element, x.inStatus = true → Same x s t) : statusWord s = statusWord t := by
  have hkeyed : s.ciph.keyed = t.ciph.keyed := h .keyed rfl
  have hnk : s.ciph.nk = t.ciph.nk := h .nk rfl
  have hhcfg : s.hmac.hcfg = t.hmac.hcfg := h .hcfg rfl
  have hhsel : s.hmac.hsel = t.hmac.hsel := h .hsel rfl
  have hprivv : s.kx.privv = t.kx.privv := h .privv rfl
  have herrs : s.errs = t.errs := h .errs rfl
  have hlasterr : s.lasterr = t.lasterr := h .lasterr rfl
  rw [statusWord, statusWord, hkeyed, hnk, hhcfg, hhsel, hprivv, herrs, hlasterr]

/-! ### They end the command in the same way -/

theorem needsConfig_eq_of_agree {i : Instr} (h : AgreeOnReads i s t) : needsConfig i s = needsConfig i t := by
  cases i
  case aesCipher | aesInvcipher | cbcEncrypt | cbcDecrypt =>
    exact congrArg (fun c => !c.keyed) (ciph_eq_of_same h)
  case hmacDigest => exact congrArg (! ·) (h .hcfg rfl)
  case kxShared => exact congrArg (! ·) (h .privv rfl)
  all_goals rfl

theorem failureOf_eq_of_agree {i : Instr} (h : AgreeOnReads i s t) : failureOf i s = failureOf i t := by
  rw [failureOf, failureOf, needsConfig_eq_of_agree h]

/-- The register operands of a command are the same in both states. -/
theorem feOf_eq_of_reads {i : Instr} (h : AgreeOnReads i s t) {r : FReg} (hr : reads i (.f r) = true) :
    feOf s r = feOf t r :=
  feOf_eq_of_same (h (.f r) hr)

theorem hasMeaning_eq_of_agree {i : Instr} (h : AgreeOnReads i s t) : hasMeaning i s = hasMeaning i t := by
  cases i
  case hashUpdate sel data =>
    cases hv : variantOf sel with
    | none => simp [hasMeaning, hv]
    | some v => simp [hasMeaning, hv, getUnit_eq_of_selected hv h]
  case hmacDigest key m => exact congrArg (hmacDomain · key m) (h .hsel rfl)
  case feAdd rd ra rb | feSub rd ra rb | feMul rd ra rb =>
    simp [hasMeaning, feOf_eq_of_reads h (r := ra) (by simp [reads]), feOf_eq_of_reads h (r := rb) (by simp [reads])]
  case feSqr rd ra | feCarry rd ra | feInv rd ra | fePack ra =>
    simp [hasMeaning, feOf_eq_of_reads h (r := ra) (by simp [reads])]
  all_goals rfl

theorem resultOf_eq_of_agree {i : Instr} (h : AgreeOnReads i s t) (hdraw : i = .kxKeygen → drawValue s = drawValue t) :
    resultOf i s = resultOf i t := by
  cases i
  case rdStatus => exact congrArg (fun w => leBytes 4 w.toNat) (statusWord_eq_of_same h)
  case hashFinal sel =>
    cases hv : variantOf sel with
    | none => simp [resultOf, hv]
    | some v => simp [resultOf, hv, getUnit_eq_of_selected hv h]
  case hmacDigest key m => exact congrArg (hmac · key m) (h .hsel rfl)
  case hmacRead =>
    have hhcfg : s.hmac.hcfg = t.hmac.hcfg := h .hcfg rfl
    have hhsel : s.hmac.hsel = t.hmac.hsel := h .hsel rfl
    have hhout : s.hmac.hout = t.hmac.hout := h .hout rfl
    rw [resultOf, resultOf, hhcfg, hhsel, hhout]
  case aesCipher b | aesInvcipher b | cbcEncrypt b | cbcDecrypt b => simp [resultOf, ciph_eq_of_same h]
  case fePack ra => exact congrArg Fe.pack (feOf_eq_of_reads h (r := ra) (by simp [reads]))
  case kxKeygen => simp [resultOf, hdraw rfl]
  case kxShared q =>
    have hpriv : s.kx.priv = t.kx.priv := h .priv rfl
    rw [resultOf, resultOf, hpriv]
  all_goals rfl

/-! ### They leave the same values in what the command writes -/

theorem same_setUnit_inside {v : Variant} {x : Element} (hx : x.inUnit v = true) (u : HashUnit v) (s t : State) :
    Same x (setUnit v u s) (setUnit v u t) := by
  cases x <;> simp [Element.inUnit] at hx <;> subst hx <;> simp [Same]

theorem same_setF_inside (rd : FReg) (e : Elem) (s t : State) : Same (.f rd) (setF rd e s) (setF rd e t) := by
  simp [Same]

/-- A register command writes what it computes from its sources. -/
theorem same_setF_of_eq {x : Element} {rd : FReg} (hx : decide (x = .f rd) = true) {e e' : Elem} (he : e = e') (s t : State) :
    Same x (setF rd e s) (setF rd e' t) := by
  obtain rfl := of_decide_eq_true hx
  subst he
  exact same_setF_inside rd e s t

theorem same_cswap {x : Element} {ra rb : FReg} (hx : x = .f ra ∨ x = .f rb) (b : Bool) (ha : getF s ra = getF t ra)
    (hb : getF s rb = getF t rb) :
    Same x (setF rb (cswap (getF s ra) (getF s rb) b).2 (setF ra (cswap (getF s ra) (getF s rb) b).1 s))
      (setF rb (cswap (getF t ra) (getF t rb) b).2 (setF ra (cswap (getF t ra) (getF t rb) b).1 t)) := by
  rcases hx with rfl | rfl <;> simp [Same, getF_setF, ha, hb]

theorem same_effectOf_of_agree {i : Instr} (h : AgreeOnReads i s t) (hdraw : i = .kxKeygen → drawValue s = drawValue t)
    (hf : failureOf i s = none) {x : Element} (hx : writes i s x = true) : Same x (effectOf i s) (effectOf i t) := by
  obtain ⟨hsel, -, -⟩ := failureOf_eq_none_iff.mp hf
  have src {r : FReg} := feOf_eq_of_reads h (r := r)
  cases i
  case softReset => exact (same_resetState x s).trans (same_resetState x t).symm
  case hashUpdate sel data =>
    obtain ⟨v, hv⟩ := exists_variantOf_eq_some (of_decide_eq_true hsel)
    simp only [effectOf, hv, Option.elim_some, getUnit_eq_of_selected hv h]
    exact same_setUnit_inside (inSelected_of_eq_some hv x ▸ hx) _ s t
  case hashInit sel | hashFinal sel | hashDigest sel _ =>
    obtain ⟨v, hv⟩ := exists_variantOf_eq_some (of_decide_eq_true hsel)
    simp only [effectOf, hv, Option.elim_some]
    exact same_setUnit_inside (inSelected_of_eq_some hv x ▸ hx) _ s t
  case hmacConfig sel =>
    obtain ⟨v, hv⟩ := exists_variantOf_eq_some (of_decide_eq_true hsel)
    rcases of_decide_eq_true hx with rfl | rfl <;> simp [effectOf, hv, Same]
  case hmacDigest key m =>
    have hhsel : s.hmac.hsel = t.hmac.hsel := h .hsel rfl
    have hwritten : x = .hout ∨ x.inUnit s.hmac.hsel = true := by simpa [writes] using hx
    simp only [effectOf, ← hhsel]
    rcases hwritten with rfl | hunit
    · simp [Same, initUnit]
    · exact same_setUnit_inside hunit _ _ _
  case aesKeyexp sel key =>
    obtain ⟨nk, hnk⟩ := keyLenOf_isSome hsel
    cases x <;> simp_all [writes, Element.inCipher, effectOf, Same]
  case cbcEncrypt p | cbcDecrypt c => rcases of_decide_eq_true hx with rfl | rfl <;> rfl
  case feUnpack rd b => exact same_setF_of_eq hx rfl s t
  case feAdd rd ra rb | feSub rd ra rb | feMul rd ra rb =>
    exact same_setF_of_eq hx (by rw [src (r := ra) (by simp [reads]), src (r := rb) (by simp [reads])]) s t
  case feSqr rd ra | feCarry rd ra | feInv rd ra =>
    exact same_setF_of_eq hx (by rw [src (r := ra) (by simp [reads])]) s t
  case feMov rd ra => exact same_setF_of_eq hx (h (.f ra) (by simp [reads])) s t
  case feConst rd sel =>
    obtain ⟨c, hc⟩ := Option.ne_none_iff_exists'.mp (mt constOf_none.mp (not_lt.mpr (of_decide_eq_true hsel)))
    simp only [effectOf, hc, Option.elim_some]
    exact same_setF_of_eq hx rfl s t
  case feCswap ra rb sel =>
    obtain ⟨b, hb⟩ := Option.ne_none_iff_exists'.mp (mt swapBitOf_none.mp (not_lt.mpr (of_decide_eq_true hsel)))
    simp only [effectOf, hb, Option.elim_some]
    exact same_cswap (of_decide_eq_true hx) b (h (.f ra) (by simp [reads])) (h (.f rb) (by simp [reads]))
  case kxKeygen => rcases of_decide_eq_true hx with rfl | rfl <;> simp [effectOf, Same, hdraw rfl]
  all_goals exact nomatch hx

end

/-- Settles O12: the failed check, the domain, the result and the written values are each computed from what the command
reads. -/
theorem readSets : Obligations.ReadSets := by
  intro i s t h hdraw
  have hfail := failureOf_eq_of_agree h
  cases hf : failureOf i s with
  | some e =>
    rw [exec_of_failureOf hf, exec_of_failureOf (hfail ▸ hf)]
    exact ⟨rfl, fun d hok => absurd hok (not_okWith_raise e s d)⟩
  | none =>
    rw [exec_of_failureOf_eq_none hf, exec_of_failureOf_eq_none (hfail ▸ hf), complete, complete,
      ← hasMeaning_eq_of_agree h, ← resultOf_eq_of_agree h hdraw]
    cases hasMeaning i s with
    | false => exact rfl
    | true =>
      exact ⟨rfl, fun _ _ x hx => (same_respond x _ _).trans
        ((same_effectOf_of_agree h hdraw hf hx).trans (same_respond x _ _).symm)⟩

/-! ### Idempotence (R33) -/

theorem state_eq_of_same {s t : State} (h : ∀ x, Same x s t) (hresp : s.resp = t.resp) (hports : SamePorts t s) : s = t := by
  obtain ⟨hinputs, hrnd, hdrawn⟩ := hports
  have hf : s.f = t.f := Vector.ext fun i hi => h (.f ⟨i, hi⟩)
  have hunit (v : Variant) : getUnit s v = getUnit t v := getUnit_eq_of_same fun x _ => h x
  have hs32 : s.s32 = t.s32 := hunit .s32
  have hs64 : s.s64 = t.s64 := hunit .s64
  have hciph : s.ciph = t.ciph := ciph_eq_of_same fun x _ => h x
  have hhcfg : s.hmac.hcfg = t.hmac.hcfg := h .hcfg
  have hhsel : s.hmac.hsel = t.hmac.hsel := h .hsel
  have hhout : s.hmac.hout = t.hmac.hout := h .hout
  have hiv : s.cbc.iv = t.cbc.iv := h .iv
  have hlast : s.cbc.last = t.cbc.last := h .last
  have hprivv : s.kx.privv = t.kx.privv := h .privv
  have hpriv : s.kx.priv = t.kx.priv := h .priv
  have herrs : s.errs = t.errs := h .errs
  have hlasterr : s.lasterr = t.lasterr := h .lasterr
  obtain ⟨_, _, _, ⟨_, _, _⟩, _, ⟨_, _⟩, ⟨_, _⟩, _, _, _, _, _, _⟩ := s
  obtain ⟨_, _, _, ⟨_, _, _⟩, _, ⟨_, _⟩, ⟨_, _⟩, _, _, _, _, _, _⟩ := t
  simp_all

/-- A command that R33 lists finds what it reads as it was: it writes none of it, or writes back what is there. -/
theorem agreeOnReads_of_idempotent {i : Instr} (hi : idempotent i = true) (s : State) (d : Bytes) :
    AgreeOnReads i s (respond d (effectOf i s)) := by
  intro x hx
  refine Same.trans ?_ (same_respond x d _).symm
  by_cases hw : writes i s x = false
  · exact same_effectOf hw
  · cases i
    case feMov rd ra =>
      obtain rfl := of_decide_eq_true hx
      simp [effectOf, Same, getF_setF]
    case feCswap ra rb sel =>
      obtain rfl := of_decide_eq_true hi
      have hnone : effectOf (.feCswap ra rb 0#8) s = s := by simp [effectOf, swapBitOf, setF_getF]
      rw [hnone]
      exact Same.refl x s
    case hmacDigest | cbcEncrypt | cbcDecrypt => cases x <;> simp_all [reads, writes, Element.inUnit, Element.inCipher]
    all_goals simp_all [reads, writes, idempotent]

theorem writes_eq_of_agree {i : Instr} {s t : State} (h : AgreeOnReads i s t) (x : Element) :
    writes i s x = writes i t x := by
  cases i
  case hmacDigest key m =>
    have hhsel : s.hmac.hsel = t.hmac.hsel := h .hsel rfl
    simp [writes, hhsel]
  all_goals rfl

/-- A command that finds its reads as they were leaves a state it has left already. -/
theorem effectOf_again {i : Instr} {s t : State} {d : Bytes} (ht : t = respond d (effectOf i s))
    (hagree : AgreeOnReads i s t) (hf : failureOf i s = none) (hi : i ≠ .kxKeygen) : respond d (effectOf i t) = t := by
  refine state_eq_of_same (fun x => (same_respond x d _).trans ?_) (by rw [ht]; rfl) (samePorts_effectOf t hi)
  cases hw : writes i s x with
  | false => exact (same_effectOf (writes_eq_of_agree hagree x ▸ hw)).symm
  | true =>
    have hsame := same_effectOf_of_agree hagree (fun hk => absurd hk hi) hf hw
    exact hsame.symm.trans (ht ▸ (same_respond x d _).symm)

/-- Settles O14: an error is raised again; an executed command meets the same reads, so it writes the same values again. -/
theorem idempotentCommands : Obligations.IdempotentCommands := by
  intro i s t hi h
  rcases exec_eq_next_iff.mp h with ⟨e, hf, rfl⟩ | ⟨hf, hm, rfl⟩
  · have hf' : failureOf i (raise e s) = some e := by rw [← hf]; cases i <;> rfl
    exact exec_of_failureOf hf'
  · have hagree := agreeOnReads_of_idempotent hi s (resultOf i s)
    have hkx : i ≠ .kxKeygen := by
      rintro rfl
      exact nomatch hi
    rw [exec_eq_next_iff, ← failureOf_eq_of_agree hagree, ← hasMeaning_eq_of_agree hagree,
      ← resultOf_eq_of_agree hagree fun hk => absurd hk hkx]
    exact .inr ⟨hf, hm, (effectOf_again rfl hagree hf hkx).symm⟩

/-! ### The secrecy of `PRIV` (R19, R149) -/

/-- The state with another `PRIV`. -/
def withPriv (p : Vector Byte 32) (s : State) : State := { s with kx := { s.kx with priv := p } }

theorem withPriv_priv (s : State) : withPriv s.kx.priv s = s := rfl

@[simp] theorem getUnit_withPriv (p : Vector Byte 32) (s : State) (v : Variant) :
    getUnit (withPriv p s) v = getUnit s v := by cases v <;> rfl

@[simp] theorem setUnit_withPriv (v : Variant) (u : HashUnit v) (p : Vector Byte 32) (s : State) :
    setUnit v u (withPriv p s) = withPriv p (setUnit v u s) := by cases v <;> rfl

theorem failureOf_withPriv (i : Instr) (p : Vector Byte 32) (s : State) : failureOf i (withPriv p s) = failureOf i s := by
  cases i <;> rfl

theorem hasMeaning_withPriv (i : Instr) (p : Vector Byte 32) (s : State) :
    hasMeaning i (withPriv p s) = hasMeaning i s := by
  cases i
  case hashUpdate sel data => simp [hasMeaning]
  all_goals rfl

theorem resultOf_withPriv {i : Instr} (hi : ∀ q, i ≠ .kxShared q) (p : Vector Byte 32) (s : State) :
    resultOf i (withPriv p s) = resultOf i s := by
  cases i
  case hashFinal sel => simp [resultOf]
  case kxShared q => exact absurd rfl (hi q)
  all_goals rfl

theorem elim_withPriv {α : Type} {o : Option α} {p : Vector Byte 32} {s : State} {k k' : α → State}
    (h : ∀ a, k' a = withPriv p (k a)) : o.elim (withPriv p s) k' = withPriv p (o.elim s k) := by
  cases o with
  | none => rfl
  | some a => exact h a

/-- Whatever `PRIV` holds, a command leaves states that differ at most there. -/
theorem exists_effectOf_withPriv (p : Vector Byte 32) (s : State) :
    ∀ i : Instr, ∃ q, effectOf i (withPriv p s) = withPriv q (effectOf i s)
  | .softReset => ⟨_, (withPriv_priv (resetState s)).symm⟩
  | .kxKeygen => ⟨_, (withPriv_priv (setPriv (drawValue s) (drawConsumed s))).symm⟩
  | .hashUpdate _ _ => ⟨p, elim_withPriv fun v => by rw [getUnit_withPriv, setUnit_withPriv]⟩
  | .hashInit _ | .hashFinal _ | .hashDigest _ _ => ⟨p, elim_withPriv fun v => setUnit_withPriv v _ p s⟩
  | .hmacDigest key m =>
    ⟨p, setUnit_withPriv s.hmac.hsel _ p (setHout (houtOf (hmac s.hmac.hsel key m)) s)⟩
  | .hmacConfig _ | .aesKeyexp _ _ | .feConst _ _ | .feCswap _ _ _ => ⟨p, elim_withPriv fun _ => rfl⟩
  | .nop | .rdStatus | .hmacRead | .aesCipher _ | .aesInvcipher _ | .cbcEncrypt _ | .cbcDecrypt _ | .feUnpack _ _
  | .fePack _ | .feAdd _ _ _ | .feSub _ _ _ | .feMul _ _ _ | .feSqr _ _ | .feCarry _ _ | .feInv _ _ | .feMov _ _
  | .x25519 _ _ | .x25519_64 _ _ | .kxShared _ => ⟨p, rfl⟩

/-- Any command but `KX_SHARED` answers the same whatever `PRIV` holds, and then leaves states that differ at most there. -/
theorem responses_withPriv {is : List Instr} (his : ∀ i ∈ is, ∀ q, i ≠ .kxShared q) (s : State) (p : Vector Byte 32) :
    responses is (withPriv p s) = responses is s := by
  induction is generalizing s p with
  | nil => rfl
  | cons i is ih =>
    obtain ⟨hi, his⟩ := List.forall_mem_cons.mp his
    rw [responses, responses]
    cases hf : failureOf i s with
    | some e =>
      rw [exec_of_failureOf hf, exec_of_failureOf ((failureOf_withPriv i p s).trans hf)]
      exact congrArg ((raise e s).resp :: ·) (ih his (raise e s) p)
    | none =>
      rw [exec_of_failureOf_eq_none hf, exec_of_failureOf_eq_none ((failureOf_withPriv i p s).trans hf), complete, complete,
        hasMeaning_withPriv, resultOf_withPriv hi]
      obtain ⟨q, hq⟩ := exists_effectOf_withPriv p s i
      rw [hq]
      cases hasMeaning i s with
      | false => rfl
      | true =>
        exact congrArg ((respond (resultOf i s) (effectOf i s)).resp :: ·)
          (ih his (respond (resultOf i s) (effectOf i s)) q)

/-- Settles O13: `withPriv` is the state the statement compares with. -/
theorem privStaysSecret : Obligations.PrivStaysSecret := fun _ s p his => responses_withPriv his s p

end Sys2Proof.Machine
end

section
/-! PROOFS. Messages in pieces (R65, R69), the padded message (R69), and the keys that HMAC does not tell apart (R84). -/

namespace Sys2Proof.Machine

/-! ### A message in pieces (R65, R69) -/

/-- Settles O19: a unit absorbs two pieces as it absorbs the whole, and the bound of R68 counts the same bits. -/
theorem hashUpdateSplits : Obligations.HashUpdateSplits := by
  intro sel x y s t h
  rcases Nat.lt_or_ge 1 sel.toNat with hsel | hsel
  · have hbad (data : Bytes) (s : State) : exec (.hashUpdate sel data) s = .next (raise .invalidSelector s) :=
      withVariant_of_one_lt hsel s _
    rw [hbad] at h
    obtain rfl := Host.Outcome.next.inj h
    rw [hbad, hbad]
    rfl
  · obtain ⟨v, hv⟩ := exists_variantOf_eq_some hsel
    rw [exec_hashUpdate hv] at h
    split at h
    · next hfit =>
      obtain rfl := Host.Outcome.next.inj h
      simp [exec_hashUpdate hv, toNat_len_absorb x hfit, absorb_append, Nat.mul_add, Nat.add_assoc]
    · exact nomatch h

/-- What is left of a run when a unit has taken in `m`: the pieces to come, then the digest of it all. -/
theorem runAll_updates_final {v : Variant} {sel : BitVec 8} (hv : variantOf sel = some v) {m : Bytes} {s : State}
    (pieces : List Bytes) (hs : (getUnit s v).Holds m) (hfit : 8 * (m.length + pieces.flatten.length) < 2 ^ v.lenBits) :
    runAll (pieces.map (Instr.hashUpdate sel) ++ [.hashFinal sel]) s =
      .next (respond (digest v (m ++ pieces.flatten)) (setUnit v (HashUnit.init v) s)) := by
  induction pieces generalizing m s with
  | nil => simp [runAll, exec_hashFinal hv, hs.finalDigest]
  | cons p pieces ih =>
    rw [List.flatten_cons, List.length_append] at hfit
    have hp : (getUnit s v).len.toNat + 8 * p.length < 2 ^ v.lenBits := by rw [hs.len]; omega
    have hnext : (getUnit (respond [] (setUnit v (absorb (getUnit s v) p) s)) v).Holds (m ++ p) := by
      rw [getUnit_respond, getUnit_setUnit_same]
      exact hs.absorb p (by omega)
    have hrest := ih hnext (by rw [List.length_append]; omega)
    simpa [runAll, exec_hashUpdate hv, hp] using hrest

/-- Settles O23: `HASH_INIT` leaves a unit that holds the empty message, as an initialised one does. -/
theorem streamingEqualsDigest : Obligations.StreamingEqualsDigest := by
  intro v sel pieces s hv hfit
  have run (t : State) (ht : getUnit t v = HashUnit.init v) :=
    runAll_updates_final hv (m := []) (s := t) pieces (ht ▸ HashUnit.holds_init v) (by simpa using hfit)
  refine ⟨?_, run s⟩
  have hinit := run (respond [] (setUnit v (HashUnit.init v) s)) (by simp)
  simpa [runAll, exec_hashInit hv] using hinit

/-! ### The padded message (R69) -/

theorem padZeros_fills (v : Variant) (n : Nat) : (n + 1 + padZeros v n) % v.blockBytes = v.blockBytes - v.lenBytes := by
  cases v <;> simp only [padZeros, Variant.blockBytes, Variant.lenBytes] <;> omega

theorem padZeros_le {v : Variant} {n z : Nat} (h : (n + 1 + z) % v.blockBytes = v.blockBytes - v.lenBytes) :
    padZeros v n ≤ z := by
  cases v <;> simp only [padZeros, Variant.blockBytes, Variant.lenBytes] at h ⊢ <;> omega

theorem length_padded (v : Variant) (m : Bytes) :
    (padded v m).length = m.length + 1 + padZeros v m.length + v.lenBytes := by
  simp [padded]
  omega

/-- Settles O24: `padZeros` is R69's z. -/
theorem paddingLayout : Obligations.PaddingLayout := by
  refine fun v m => ⟨padZeros v m.length, padZeros_fills v _, fun _ => padZeros_le, rfl, ?_⟩
  rw [length_padded, Nat.add_mod, padZeros_fills]
  cases v <;> rfl

/-! ### Keys that HMAC does not tell apart (R84) -/

theorem hmac_congr {v : Variant} {key key' : Bytes} (h : hmacK0 v key = hmacK0 v key') (message : Bytes) :
    hmac v key message = hmac v key' message := by
  rw [hmac_eq_digest_hmacK0, hmac_eq_digest_hmacK0, h]

theorem hmacKey_of_le {v : Variant} {key : Bytes} (h : key.length ≤ v.blockBytes) : hmacKey v key = key :=
  if_neg h.not_gt

theorem hmacKey_of_lt {v : Variant} {key : Bytes} (h : v.blockBytes < key.length) : hmacKey v key = digest v key :=
  if_pos h

theorem length_digest_le_blockBytes (v : Variant) (m : Bytes) : (digest v m).length ≤ v.blockBytes := by
  rw [length_digest]
  cases v <;> decide

/-- Settles O29: in each case the two keys have the same prepared key. -/
theorem hmacKeyPreparation : Obligations.HmacKeyPreparation := by
  refine ⟨fun v key message n hlen => hmac_congr (eq_hmacK0 (length_hmacK0 v _) fun j _ => ?_) message,
    fun v key message hlong => hmac_congr ?_ message⟩
  · have hlonger : (key ++ zeros n).length ≤ v.blockBytes := by simpa using hlen
    rw [getD_hmacK0, hmacKey_of_le hlonger, hmacKey_of_le (by omega), getD_append_zeros]
  · rw [hmacK0, hmacK0, hmacKey_of_lt hlong, hmacKey_of_le (length_digest_le_blockBytes v key)]

end Sys2Proof.Machine
end

section
/-! PROOFS. The algebra of the S-box (R93), the four pairs of round transformations (R94), and the inverse cipher against the
cipher (R98). -/

namespace Sys2Proof.Machine

/-! ### The S-box (R93) -/

/-- The affine map of R93. -/
def affine (x : Byte) : Byte :=
  x ^^^ x.rotateRight 4 ^^^ x.rotateRight 5 ^^^ x.rotateRight 6 ^^^ x.rotateRight 7 ^^^ 0x63#8

/-- The inverse of R93's affine map. -/
def affineInverse (y : Byte) : Byte := y.rotateLeft 1 ^^^ y.rotateLeft 3 ^^^ y.rotateLeft 6 ^^^ 0x05#8

theorem affine_affineInverse (y : Byte) : affine (affineInverse y) = y := by
  revert y
  decide +kernel

/-- What the affine map takes to `SBOX[a]` is the inverse of `a` in GF(2^8), and 0 for 0. -/
theorem gmul_affineInverse_sbox (a : Byte) :
    if a = 0#8 then affineInverse (sbox a) = 0#8 else gmul a (affineInverse (sbox a)) = 1#8 := by
  revert a
  decide +kernel

@[simp] theorem invSbox_sbox (a : Byte) : invSbox (sbox a) = a := by
  revert a
  decide +kernel

/-- On the finite set of bytes a left inverse is a right inverse. -/
@[simp] theorem sbox_invSbox (a : Byte) : sbox (invSbox a) = a :=
  Function.LeftInverse.rightInverse_of_card_le invSbox_sbox le_rfl a

theorem rc_succ (j : Nat) (h1 : 1 ≤ j) (h10 : j < 10) : rc (j + 1) = xtime (rc j) := by
  interval_cases j <;> decide

/-- Settles O34: each entry is taken back through the affine map, and what it comes from is multiplied out. -/
theorem sboxAlgebra : Obligations.SboxAlgebra :=
  ⟨fun a => ⟨_, gmul_affineInverse_sbox a, (affine_affineInverse (sbox a)).symm⟩, fun a => ⟨invSbox_sbox a, sbox_invSbox a⟩, rfl, rc_succ⟩

/-! ### `SubBytes`, `ShiftRows`, `AddRoundKey` (R94) -/

theorem invSubBytes_subBytes (s : Bytes) : invSubBytes (subBytes s) = s := by
  simp [invSubBytes, subBytes, Function.comp_def]

theorem subBytes_invSubBytes (s : Bytes) : subBytes (invSubBytes s) = s := by
  simp [invSubBytes, subBytes, Function.comp_def]

theorem length_permute (src : Nat → Nat → Nat) (s : Bytes) : (permute src s).length = 16 := by simp [permute]

theorem getD_permute (src : Nat → Nat → Nat) (s : Bytes) {i : Nat} (hi : i < 16) :
    (permute src s).getD i 0#8 = s.getD (src (i % 4) (i / 4)) 0#8 := by
  simp [permute, List.getD_eq_getElem?_getD, hi]

/-- A permutation of the state is undone by one that takes every place from where the first has put it. -/
theorem permute_permute {src src' : Nat → Nat → Nat}
    (h : ∀ i < 16, src (i % 4) (i / 4) < 16 ∧ src' (src (i % 4) (i / 4) % 4) (src (i % 4) (i / 4) / 4) = i)
    {s : Bytes} (hs : s.length = 16) : permute src (permute src' s) = s := by
  refine List.ext_getElem (by rw [length_permute, hs]) fun i hi hi' => ?_
  have hlt : i < 16 := hs ▸ hi'
  obtain ⟨hsrc, hback⟩ := h i hlt
  rw [← List.getD_eq_getElem _ 0#8 hi, ← List.getD_eq_getElem _ 0#8 hi', getD_permute _ _ hlt, getD_permute _ _ hsrc,
    hback]

section
variable {s : Bytes} (hs : s.length = 16)
include hs

theorem invShiftRows_shiftRows : invShiftRows (shiftRows s) = s := permute_permute (by decide) hs

theorem shiftRows_invShiftRows : shiftRows (invShiftRows s) = s := permute_permute (by decide) hs

theorem addRoundKey_addRoundKey (w : Vector (BitVec 32) 60) {r : Nat} (hr : r ≤ 14) :
    addRoundKey w r (addRoundKey w r s) = s :=
  xorBytes_cancel (by rw [hs, length_roundKey w hr])

end

/-! ### `MixColumns` (R94): a product of matrices over GF(2^8) -/

theorem xtime_eq_xor (a : Byte) : xtime a = (a <<< 1) ^^^ (if a.msb then 0x1b#8 else 0#8) := by
  revert a
  decide

theorem xtime_xor (a b : Byte) : xtime (a ^^^ b) = xtime a ^^^ xtime b := by
  rw [xtime_eq_xor, xtime_eq_xor a, xtime_eq_xor b, BitVec.shiftLeft_xor_distrib, BitVec.msb_xor]
  have hcond : (if (a.msb ^^ b.msb) then 0x1b#8 else 0#8) =
      (if a.msb then 0x1b#8 else 0#8) ^^^ (if b.msb then 0x1b#8 else 0#8) := by
    cases a.msb <;> cases b.msb <;> rfl
  rw [hcond]
  ac_rfl

theorem gmulBits_xor (n : Nat) (a b c : Byte) : gmulBits n (a ^^^ b) c = gmulBits n a c ^^^ gmulBits n b c := by
  induction n generalizing a b c with
  | zero => exact (BitVec.xor_self).symm
  | succ n ih =>
    rw [gmulBits, gmulBits, gmulBits, xtime_xor, ih]
    split
    · ac_rfl
    · simp only [BitVec.zero_xor]

/-- Multiplication by a constant is linear. -/
theorem gmul_xor (a b c : Byte) : gmul (a ^^^ b) c = gmul a c ^^^ gmul b c := gmulBits_xor 8 a b c

theorem gmul_one (a : Byte) : gmul a 1 = a := by
  revert a
  decide +kernel

/-- A row of a matrix times a column of the state. -/
def rowTimes (k0 k1 k2 k3 a0 a1 a2 a3 : Byte) : Byte := gmul a0 k0 ^^^ gmul a1 k1 ^^^ gmul a2 k2 ^^^ gmul a3 k3

/-- The entry a row and a column of two matrices make, times a byte of the state. -/
def entryTimes (k0 k1 k2 k3 m0 m1 m2 m3 a : Byte) : Byte :=
  gmul (gmul a m0) k0 ^^^ gmul (gmul a m1) k1 ^^^ gmul (gmul a m2) k2 ^^^ gmul (gmul a m3) k3

/-- The circulant matrix of a row, times a column of the state: row by row the column is turned against it. -/
def circulantTimes (k0 k1 k2 k3 a0 a1 a2 a3 : Byte) : Bytes :=
  [rowTimes k0 k1 k2 k3 a0 a1 a2 a3, rowTimes k0 k1 k2 k3 a1 a2 a3 a0, rowTimes k0 k1 k2 k3 a2 a3 a0 a1,
    rowTimes k0 k1 k2 k3 a3 a0 a1 a2]

theorem mixColumn_eq_circulantTimes : mixColumn = circulantTimes 2 3 1 1 := by
  funext a0 a1 a2 a3
  simp only [mixColumn, circulantTimes, rowTimes, gmul_one, List.cons.injEq, and_true, true_and]
  refine ⟨?_, ?_, ?_⟩ <;> ac_rfl

theorem invMixColumn_eq_circulantTimes : invMixColumn = circulantTimes 14 11 13 9 := by
  funext a0 a1 a2 a3
  simp only [invMixColumn, circulantTimes, rowTimes, List.cons.injEq, and_true, true_and]
  refine ⟨?_, ?_, ?_⟩ <;> ac_rfl

theorem rowTimes_circulantTimes (k0 k1 k2 k3 m0 m1 m2 m3 a0 a1 a2 a3 : Byte) :
    rowTimes k0 k1 k2 k3 (rowTimes m0 m1 m2 m3 a0 a1 a2 a3) (rowTimes m0 m1 m2 m3 a1 a2 a3 a0)
        (rowTimes m0 m1 m2 m3 a2 a3 a0 a1) (rowTimes m0 m1 m2 m3 a3 a0 a1 a2) =
      entryTimes k0 k1 k2 k3 m0 m3 m2 m1 a0 ^^^ entryTimes k0 k1 k2 k3 m1 m0 m3 m2 a1
        ^^^ entryTimes k0 k1 k2 k3 m2 m1 m0 m3 a2 ^^^ entryTimes k0 k1 k2 k3 m3 m2 m1 m0 a3 := by
  simp only [rowTimes, entryTimes, gmul_xor]
  ac_rfl

/-- The first row of the product of the circulant matrices of `k` and `m` is that of the identity. -/
def InverseRows (k0 k1 k2 k3 m0 m1 m2 m3 : Byte) : Prop :=
  ∀ a, entryTimes k0 k1 k2 k3 m0 m3 m2 m1 a = a ∧ entryTimes k0 k1 k2 k3 m1 m0 m3 m2 a = 0#8 ∧
    entryTimes k0 k1 k2 k3 m2 m1 m0 m3 a = 0#8 ∧ entryTimes k0 k1 k2 k3 m3 m2 m1 m0 a = 0#8

theorem inverseRows_mixColumns : InverseRows 2 3 1 1 14 11 13 9 := by
  unfold InverseRows
  decide +kernel

theorem inverseRows_invMixColumns : InverseRows 14 11 13 9 2 3 1 1 := by
  unfold InverseRows
  decide +kernel

section
variable {k0 k1 k2 k3 m0 m1 m2 m3 : Byte} (h : InverseRows k0 k1 k2 k3 m0 m1 m2 m3)
include h

theorem rowTimes_cancel (a0 a1 a2 a3 : Byte) :
    rowTimes k0 k1 k2 k3 (rowTimes m0 m1 m2 m3 a0 a1 a2 a3) (rowTimes m0 m1 m2 m3 a1 a2 a3 a0)
        (rowTimes m0 m1 m2 m3 a2 a3 a0 a1) (rowTimes m0 m1 m2 m3 a3 a0 a1 a2) = a0 := by
  obtain ⟨h0, -⟩ := h a0
  obtain ⟨-, h1, -⟩ := h a1
  obtain ⟨-, -, h2, -⟩ := h a2
  obtain ⟨-, -, -, h3⟩ := h a3
  rw [rowTimes_circulantTimes, h0, h1, h2, h3, BitVec.xor_zero, BitVec.xor_zero, BitVec.xor_zero]

end

theorem exists_eq_of_length_sixteen {s : Bytes} (hs : s.length = 16) :
    ∃ b0 b1 b2 b3 b4 b5 b6 b7 b8 b9 b10 b11 b12 b13 b14 b15 : Byte,
      s = [b0, b1, b2, b3, b4, b5, b6, b7, b8, b9, b10, b11, b12, b13, b14, b15] := by
  match s, hs with
  | [b0, b1, b2, b3, b4, b5, b6, b7, b8, b9, b10, b11, b12, b13, b14, b15], _ =>
    exact ⟨b0, b1, b2, b3, b4, b5, b6, b7, b8, b9, b10, b11, b12, b13, b14, b15, rfl⟩

theorem onColumns_onColumns {k0 k1 k2 k3 m0 m1 m2 m3 : Byte} (h : InverseRows k0 k1 k2 k3 m0 m1 m2 m3) {s : Bytes}
    (hs : s.length = 16) : onColumns (circulantTimes k0 k1 k2 k3) (onColumns (circulantTimes m0 m1 m2 m3) s) = s := by
  obtain ⟨b0, b1, b2, b3, b4, b5, b6, b7, b8, b9, b10, b11, b12, b13, b14, b15, rfl⟩ := exists_eq_of_length_sixteen hs
  simp [onColumns, List.range_succ, circulantTimes, rowTimes_cancel h]

section
variable {s : Bytes} (hs : s.length = 16)
include hs

theorem invMixColumns_mixColumns : invMixColumns (mixColumns s) = s := by
  rw [invMixColumns, mixColumns, invMixColumn_eq_circulantTimes, mixColumn_eq_circulantTimes]
  exact onColumns_onColumns inverseRows_invMixColumns hs

theorem mixColumns_invMixColumns : mixColumns (invMixColumns s) = s := by
  rw [invMixColumns, mixColumns, invMixColumn_eq_circulantTimes, mixColumn_eq_circulantTimes]
  exact onColumns_onColumns inverseRows_mixColumns hs

end

/-- Settles O33: a table, a permutation, a matrix over GF(2^8) and an XOR, each with its inverse. -/
theorem roundTransformsInvert : Obligations.RoundTransformsInvert := fun s hs =>
  ⟨⟨invSubBytes_subBytes s, subBytes_invSubBytes s⟩, ⟨invShiftRows_shiftRows hs, shiftRows_invShiftRows hs⟩,
    ⟨invMixColumns_mixColumns hs, mixColumns_invMixColumns hs⟩, fun w _ hr => addRoundKey_addRoundKey hs w hr⟩

/-! ### The inverse cipher meets the cipher's states (R98) -/

section
variable {w : Vector (BitVec 32) 60} {nr : Nat} {b : Bytes}

theorem cipher_eq (w : Vector (BitVec 32) 60) (nr : Nat) (b : Bytes) :
    cipher w (nr + 1) b = addRoundKey w (nr + 1) (shiftRows (subBytes (cipherStateAt w b nr))) := rfl

theorem invCipher_eq (w : Vector (BitVec 32) 60) (nr : Nat) (b : Bytes) :
    invCipher w (nr + 1) b = addRoundKey w 0 (invSubBytes (invShiftRows (invCipherStateAt w (nr + 1) b 1))) := rfl

theorem length_cipherStateAt (hb : b.length = 16) {r : Nat} (hr : r ≤ 14) : (cipherStateAt w b r).length = 16 := by
  cases r with
  | zero => exact length_addRoundKey w hr hb
  | succ r =>
    rw [cipherStateAt_succ]
    exact length_addRoundKey w hr (length_mixColumns _)

theorem length_invCipherStateAt (hnr : nr ≤ 14) (hb : b.length = 16) {r : Nat} (hr : r ≤ nr) :
    (invCipherStateAt w nr b r).length = 16 := by
  rcases hr.eq_or_lt with rfl | hlt
  · rw [invCipherStateAt_last]
    exact length_addRoundKey w hnr hb
  · rw [invCipherStateAt_of_lt w b hlt]
    exact length_invMixColumns _

/-- From the ciphertext, the state before inverse round `r` is the cipher's state after round `r`, before its round key and
`MixColumns`. -/
theorem invCipherStateAt_cipher (hnr : nr + 1 ≤ 14) (hb : b.length = 16) {r : Nat} (hr : r ≤ nr) :
    invCipherStateAt w (nr + 1) (cipher w (nr + 1) b) (r + 1) = shiftRows (subBytes (cipherStateAt w b r)) := by
  induction hr using Nat.decreasingInduction with
  | self => rw [invCipherStateAt_last, cipher_eq, addRoundKey_addRoundKey (length_shiftRows _) w hnr]
  | of_succ r hlt ih =>
    have hlen : (subBytes (cipherStateAt w b (r + 1))).length = 16 := by
      rw [length_subBytes, length_cipherStateAt hb (by omega)]
    rw [invCipherStateAt_of_lt w _ (by omega), ih, invCipherRound, invShiftRows_shiftRows hlen, invSubBytes_subBytes,
      cipherStateAt_succ, cipherRound, addRoundKey_addRoundKey (length_mixColumns _) w (by omega),
      invMixColumns_mixColumns (length_shiftRows _)]

/-- From the inverse cipher's plaintext, the cipher's state after round `r` is the state after inverse round `r + 1`, before
its round key. -/
theorem cipherStateAt_invCipher (hnr : nr + 1 ≤ 14) (hb : b.length = 16) {r : Nat} (hr : r ≤ nr) :
    cipherStateAt w (invCipher w (nr + 1) b) r = invSubBytes (invShiftRows (invCipherStateAt w (nr + 1) b (r + 1))) := by
  induction r with
  | zero =>
    exact addRoundKey_addRoundKey (by rw [length_invSubBytes, length_invShiftRows]) w (Nat.zero_le _)
  | succ r ih =>
    have hlen : (invCipherStateAt w (nr + 1) b (r + 1)).length = 16 := length_invCipherStateAt hnr hb (by omega)
    have hlen' : (invSubBytes (invShiftRows (invCipherStateAt w (nr + 1) b (r + 2)))).length = 16 := by
      rw [length_invSubBytes, length_invShiftRows]
    rw [cipherStateAt_succ, ih (by omega), cipherRound, subBytes_invSubBytes, shiftRows_invShiftRows hlen,
      invCipherStateAt_of_lt w b (by omega), invCipherRound,
      mixColumns_invMixColumns (length_addRoundKey w (by omega) hlen'), addRoundKey_addRoundKey hlen' w (by omega)]

/-- R98: the inverse cipher undoes the cipher. -/
theorem invCipher_cipher (hnr : nr + 1 ≤ 14) (hb : b.length = 16) : invCipher w (nr + 1) (cipher w (nr + 1) b) = b := by
  have hlen : (subBytes (cipherStateAt w b 0)).length = 16 := by
    rw [length_subBytes, length_cipherStateAt hb (Nat.zero_le _)]
  rw [invCipher_eq, invCipherStateAt_cipher hnr hb (Nat.zero_le _), invShiftRows_shiftRows hlen, invSubBytes_subBytes]
  exact addRoundKey_addRoundKey hb w (Nat.zero_le _)

/-- R98: the cipher undoes the inverse cipher. -/
theorem cipher_invCipher (hnr : nr + 1 ≤ 14) (hb : b.length = 16) : cipher w (nr + 1) (invCipher w (nr + 1) b) = b := by
  have hlen : (invCipherStateAt w (nr + 1) b (nr + 1)).length = 16 := length_invCipherStateAt hnr hb le_rfl
  rw [cipher_eq, cipherStateAt_invCipher hnr hb le_rfl, subBytes_invSubBytes, shiftRows_invShiftRows hlen,
    invCipherStateAt_last, addRoundKey_addRoundKey hb w hnr]

end

theorem exec_aesCipher {s : State} (hkey : s.ciph.keyed = true) {b : Bytes} (hb : b.length = 16) :
    exec (.aesCipher b) s = .next (respond (cipher s.ciph.w s.ciph.nk.rounds b) s) :=
  withBlock_of_length_eq _ hkey hb

theorem exec_aesInvcipher {s : State} (hkey : s.ciph.keyed = true) {b : Bytes} (hb : b.length = 16) :
    exec (.aesInvcipher b) s = .next (respond (invCipher s.ciph.w s.ciph.nk.rounds b) s) :=
  withBlock_of_length_eq _ hkey hb

/-- Settles O35: the two ciphers undo each other, and neither command changes the key. -/
theorem cipherInverse : Obligations.CipherInverse := by
  intro s b hkey hb
  have hnr := s.ciph.nk.rounds_le
  refine ⟨⟨_, _, _, exec_aesCipher hkey hb, rfl, exec_aesInvcipher hkey (length_cipher _ hnr b), ?_⟩,
    ⟨_, _, _, exec_aesInvcipher hkey hb, rfl, exec_aesCipher hkey (length_invCipher _ _ b), ?_⟩⟩
  · exact okWith_respond_iff.mpr (invCipher_cipher hnr hb)
  · exact okWith_respond_iff.mpr (cipher_invCipher hnr hb)

end Sys2Proof.Machine
end

section
/-! PROOFS. `CBC_DECRYPT` undoes `CBC_ENCRYPT` (R110), and the commands over whole scalars that remain: `X25519_64` in both
modes (R141) and `KX_KEYGEN` (R146). -/

namespace Sys2Proof.Machine

/-! ### Unchaining what was chained -/

/-- The first block of a string, and the blocks of the rest. -/
theorem blocks_succ (n count : Nat) (s : Bytes) : blocks n (count + 1) s = slice s 0 n :: blocks n count (s.drop n) := by
  simp only [blocks, List.range_succ_eq_map, List.map_cons, List.map_map, Nat.mul_zero]
  congr 1
  refine List.map_congr_left fun i _ => ?_
  simp [slice, Nat.mul_succ, Nat.add_comm]

/-- Deciphering each block and taking off the ciphertext block before it leaves the filled plaintext blocks. -/
theorem cbcUnchain_blocks_cbcChain {f g : Bytes → Bytes} (hf : ∀ b, (f b).length = 16)
    (hg : ∀ b, b.length = 16 → g (f b) = b) {last : Bytes} (hlast : last.length = 16) {bs : List Bytes}
    (hbs : ∀ b ∈ bs, b.length ≤ 16) :
    cbcUnchain g last (blocks 16 bs.length (cbcChain f last bs)) = (bs.map fillBlock).flatten := by
  induction bs generalizing last with
  | nil => rfl
  | cons b bs ih =>
    obtain ⟨hb, hrest⟩ := List.forall_mem_cons.mp hbs
    have hfill := length_fillBlock hb
    have hx : (xorBytes (fillBlock b) last).length = 16 := by rw [length_xorBytes, hfill, hlast, Nat.min_self]
    have hout := hf (xorBytes (fillBlock b) last)
    have hfirst (r : Bytes) : slice (f (xorBytes (fillBlock b) last) ++ r) 0 16 = f (xorBytes (fillBlock b) last) :=
      slice_append_block hout r 0
    rw [cbcChain, List.length_cons, blocks_succ, cbcUnchain, hfirst, List.drop_left' hout, ih hout hrest, hg _ hx,
      xorBytes_cancel (hfill.trans hlast.symm)]
    rfl

/-- The zero bytes that fill a string of `n` bytes to whole blocks. -/
def fillZeros (n : Nat) : Nat := (16 - n % 16) % 16

theorem flatten_map_fillBlock_blocks {p : Bytes} {k : Nat} (hk : (p.length + 15) / 16 = k) :
    ((blocks 16 k p).map fillBlock).flatten = p ++ zeros (fillZeros p.length) := by
  induction k generalizing p with
  | zero =>
    obtain rfl : p = [] := List.length_eq_zero_iff.mp (by omega)
    rfl
  | succ k ih =>
    have hrest := ih (p := p.drop 16) (by rw [List.length_drop]; omega)
    rw [blocks_succ, List.map_cons, List.flatten_cons, hrest, slice, List.drop_zero, fillBlock, List.length_take,
      List.length_drop]
    by_cases hp : 16 ≤ p.length
    · have hfill : fillZeros (p.length - 16) = fillZeros p.length := by simp only [fillZeros]; omega
      rw [Nat.min_eq_left hp, Nat.sub_self, hfill, zeros, List.replicate_zero, List.append_nil, ← List.append_assoc,
        List.take_append_drop]
    · have hfill : 16 - p.length = fillZeros p.length := by simp only [fillZeros]; omega
      have hnone : fillZeros (p.length - 16) = 0 := by simp only [fillZeros]; omega
      rw [Nat.min_eq_right (by omega), List.take_of_length_le (by omega), List.drop_eq_nil_of_le (by omega), hnone, hfill]
      simp [zeros]

theorem cbcDecrypt_cbcEncrypt {iv : Bytes} (hiv : iv.length = 16) (w : Vector (BitVec 32) 60) {nr : Nat}
    (hnr : nr + 1 ≤ 14) (p : Bytes) :
    cbcDecrypt iv w (nr + 1) (cbcEncrypt iv w (nr + 1) p) = p ++ zeros (fillZeros p.length) := by
  have hcount : (cbcEncrypt iv w (nr + 1) p).length / 16 = (blocks 16 ((p.length + 15) / 16) p).length := by
    rw [length_cbcEncrypt iv w hnr, length_blocks, Nat.mul_div_cancel_left _ (by decide)]
  have hblocks : ∀ b ∈ blocks 16 ((p.length + 15) / 16) p, b.length ≤ 16 := by
    intro b hb
    obtain ⟨i, -, rfl⟩ := List.mem_map.mp hb
    rw [length_slice]
    exact Nat.min_le_left _ _
  rw [cbcDecrypt, hcount, cbcEncrypt, cbcUnchain_blocks_cbcChain (length_cipher w hnr)
    (fun _ hb => invCipher_cipher hnr hb) hiv hblocks, flatten_map_fillBlock_blocks rfl]

/-- Settles O38: the ciphertext is whole blocks, the key is kept, and each block of the chain is undone. -/
theorem cbcRoundTrip : Obligations.CbcRoundTrip := by
  intro p s hkey
  have hnr := s.ciph.nk.rounds_le
  have hdecrypt (c : Bytes) := exec_cbcDecrypt_of_keyed c (s := respond c (resetChain s)) hkey
  refine ⟨_, _, _, exec_cbcEncrypt_of_keyed p hkey, rfl, (hdecrypt _).trans (if_pos ?_), ?_⟩
  · rw [length_cbcEncrypt _ _ hnr, Nat.mul_mod_right]
  · exact okWith_respond_iff.mpr (cbcDecrypt_cbcEncrypt Vector.length_toList s.ciph.w hnr p)

/-! ### `X25519_64` (R141) and `KX_KEYGEN` (R146) -/

/-- Settles O56: the length check comes first in both modes, and Config takes `extended`. (The model's own function has the
obligation's name.) -/
theorem x25519Long_modes : Obligations.X25519Long := fun _ _ s =>
  ⟨fun _ h => withScalar_of_not_lengths h s _, fun hk hq =>
    ⟨withScalar_of_lengths hk hq s _, withScalar_of_lengths hk hq s _, withScalar_of_lengths hk hq s _⟩, rfl⟩

/-- Settles O57: the draw is the queue's head, or the free value when the queue is empty. -/
theorem kxKeygen : Obligations.KxKeygen := by
  intro s
  have hexec : exec .kxKeygen s =
      .next (respond (scalarMult (drawValue s).toList basePoint) (setPriv (drawValue s) (drawConsumed s))) := rfl
  refine ⟨fun d rest hrnd => ?_, fun hrnd => ?_⟩ <;>
    simp [hexec, drawValue, drawConsumed, hrnd, respond, setPriv, okCode, basePoint]

end Sys2Proof.Machine
end

section
/-! PROOFS. One carry pass (R118): its value, its limbs, its named values, and `FE_CARRY` (R120). -/

namespace Sys2Proof.Machine

/-! ### Bounds on limbs as statements about each limb -/

theorem fn_iff {e : Fe} : Fe.fn e = true ↔ ∀ x ∈ e, 0 ≤ x ∧ x < 2 ^ 16 := by
  simp [Fe.fn]

theorem bounded_iff {β : Int} {e : Fe} : Fe.bounded β e = true ↔ ∀ x ∈ e, -β ≤ x ∧ x ≤ β := by
  simp [Fe.bounded]

theorem fn_cons {x : Int} {e : Fe} : Fe.fn (x :: e) = true ↔ (0 ≤ x ∧ x < 2 ^ 16) ∧ Fe.fn e = true := by
  simp [Fe.fn]

theorem bounded_cons {β x : Int} {e : Fe} :
    Fe.bounded β (x :: e) = true ↔ (-β ≤ x ∧ x ≤ β) ∧ Fe.bounded β e = true := by
  simp [Fe.bounded]

theorem inDomain_cons {x : Int} {l : List Int} : inDomain (x :: l) = true ↔ InRange x ∧ inDomain l = true := by
  rw [← fits64_iff]
  simp [inDomain]

theorem inDomain_iff_forall {l : List Int} : inDomain l = true ↔ ∀ x ∈ l, InRange x := by
  simp [inDomain, fits64_iff]

theorem inDomain_append {l l' : List Int} : inDomain (l ++ l') = true ↔ inDomain l = true ∧ inDomain l' = true := by
  simp [inDomain]

theorem bounded_mono {β β' : Int} (h : β ≤ β') {e : Fe} (he : Fe.bounded β e = true) : Fe.bounded β' e = true :=
  bounded_iff.mpr fun x hx => by
    obtain ⟨hlow, hhigh⟩ := bounded_iff.mp he x hx
    omega

theorem inDomain_of_bounded {β : Int} (hβ : β < 2 ^ 63) {l : List Int} (h : Fe.bounded β l = true) : inDomain l = true :=
  inDomain_iff_forall.mpr fun x hx => by
    obtain ⟨hlow, hhigh⟩ := bounded_iff.mp h x hx
    constructor <;> omega

theorem bounded_of_fn {β : Int} (hβ : 2 ^ 16 ≤ β) {e : Fe} (h : Fe.fn e = true) : Fe.bounded β e = true :=
  bounded_iff.mpr fun x hx => by
    obtain ⟨hlow, hhigh⟩ := fn_iff.mp h x hx
    omega

theorem wn_cons {x : Int} {e : Fe} : Fe.wn (x :: e) = true ↔ (-38 ≤ x ∧ x < 2 ^ 16 + 38) ∧ Fe.fn e = true := by
  simp [Fe.wn]

/-- A weakly normalised element is far below R131's bound. -/
theorem bounded_of_wn {e : Fe} (h : Fe.wn e = true) : Fe.bounded (2 ^ 17) e = true := by
  cases e with
  | nil => rfl
  | cons x e =>
    obtain ⟨hx, he⟩ := wn_cons.mp h
    exact bounded_cons.mpr ⟨by omega, bounded_of_fn (by decide) he⟩

/-! ### The value of an element (R115) -/

@[simp] theorem val_nil : Fe.val [] = 0 := rfl

theorem val_cons (x : Int) (e : Fe) : Fe.val (x :: e) = x + 2 ^ 16 * Fe.val e := rfl

theorem two_pow_sixteen_mul_succ (n : Nat) : (2 : Int) ^ (16 * (n + 1)) = 2 ^ 16 * 2 ^ (16 * n) := by
  rw [Nat.mul_succ, pow_add, mul_comm]

theorem val_append (e e' : Fe) : Fe.val (e ++ e') = Fe.val e + 2 ^ (16 * e.length) * Fe.val e' := by
  induction e with
  | nil => simp
  | cons x e ih => rw [List.cons_append, val_cons, val_cons, ih, List.length_cons, two_pow_sixteen_mul_succ]; ring

theorem val_of_fn {e : Fe} (h : Fe.fn e = true) : 0 ≤ Fe.val e ∧ Fe.val e < 2 ^ (16 * e.length) := by
  induction e with
  | nil => simp
  | cons x e ih =>
    obtain ⟨hx, he⟩ := fn_cons.mp h
    have he := ih he
    rw [val_cons, List.length_cons, two_pow_sixteen_mul_succ]
    omega

/-! ### The chain of carries (R118) -/

/-- A pass keeps the value: what leaves at the top is the last carry. -/
theorem val_carryChain (c : Int) (e : Fe) :
    Fe.val (carryChain c e).1 + 2 ^ (16 * e.length) * (carryChain c e).2 = Fe.val e + c := by
  induction e generalizing c with
  | nil => simp [carryChain]
  | cons x e ih =>
    have hrest := ih ((x + c) / 2 ^ 16)
    simp only [carryChain, val_cons, List.length_cons, two_pow_sixteen_mul_succ]
    linear_combination 2 ^ 16 * hrest

theorem fn_carryChain (c : Int) (e : Fe) : Fe.fn (carryChain c e).1 = true := by
  induction e generalizing c with
  | nil => rfl
  | cons x e ih =>
    exact fn_cons.mpr ⟨by omega, ih _⟩

/-- The last carry out of a pass is the quotient of the value by the weight of the limb above. -/
theorem carryChain_out (c : Int) (e : Fe) : (carryChain c e).2 = (Fe.val e + c) / 2 ^ (16 * e.length) := by
  have hlimbs := val_of_fn (fn_carryChain c e)
  rw [length_carryChain] at hlimbs
  have hpos : (0 : Int) < 2 ^ (16 * e.length) := by positivity
  rw [← val_carryChain, Int.add_mul_ediv_left _ _ hpos.ne', Int.ediv_eq_zero_of_lt hlimbs.1 hlimbs.2, zero_add]

/-- Into normalised limbs a carry no larger than their weight comes out as −1, 0 or 1. -/
theorem carryChain_out_of_fn {c : Int} {e : Fe} (he : Fe.fn e = true) (hlow : -2 ^ (16 * e.length) ≤ c)
    (hhigh : c ≤ 2 ^ (16 * e.length)) : -1 ≤ (carryChain c e).2 ∧ (carryChain c e).2 ≤ 1 := by
  have hpos : (0 : Int) < 2 ^ (16 * e.length) := by positivity
  obtain ⟨h0, hlt⟩ := val_of_fn he
  rw [carryChain_out]
  constructor
  · rw [Int.le_ediv_iff_mul_le hpos]
    linarith
  · rw [← Int.lt_add_one_iff, Int.ediv_lt_iff_lt_mul hpos]
    linarith

/-- Into normalised limbs a carry of −1, 0 or 1 comes out as it went in, or not at all. -/
theorem carryChain_out_eq {c : Int} {e : Fe} (he : Fe.fn e = true) (hlow : -1 ≤ c) (hhigh : c ≤ 1) :
    (carryChain c e).2 = 0 ∨ (carryChain c e).2 = c := by
  induction e generalizing c with
  | nil => exact .inr rfl
  | cons x e ih =>
    obtain ⟨hx, he⟩ := fn_cons.mp he
    have hrest := ih (c := (x + c) / 2 ^ 16) he (by omega) (by omega)
    have hout : (carryChain c (x :: e)).2 = (carryChain ((x + c) / 2 ^ 16) e).2 := rfl
    omega

/-- Under a bound on the limbs every carry has one, and no named value leaves the 64-bit range. -/
theorem carryChain_bounded {c : Int} {e : Fe} (he : Fe.bounded (2 ^ 62) e = true) (hlow : -2 ^ 47 ≤ c) (hhigh : c ≤ 2 ^ 47) :
    inDomain (carryChainNamed c e) = true ∧ -2 ^ 47 ≤ (carryChain c e).2 ∧ (carryChain c e).2 ≤ 2 ^ 47 := by
  induction e generalizing c with
  | nil => exact ⟨rfl, hlow, hhigh⟩
  | cons x e ih =>
    obtain ⟨hx, he⟩ := bounded_cons.mp he
    obtain ⟨hnamed, hout⟩ := ih (c := (x + c) / 2 ^ 16) he (by omega) (by omega)
    have hsum : InRange (x + c) := by constructor <;> omega
    have hcarry : InRange ((x + c) / 2 ^ 16) := by constructor <;> omega
    exact ⟨inDomain_cons.mpr ⟨hsum, inDomain_cons.mpr ⟨hcarry, hnamed⟩⟩, hout⟩

/-! ### The pass (R118) -/

theorem val_addToLimb0 (y x : Int) (e : Fe) : Fe.val (addToLimb0 y (x :: e)) = y + Fe.val (x :: e) := by
  simp only [addToLimb0, val_cons]
  ring

/-- One pass, limb 0 and the carry out of it apart. -/
theorem carry_cons (x : Int) (e : Fe) :
    Fe.carry (x :: e) = (x - x / 2 ^ 16 * 2 ^ 16 + 38 * (carryChain (x / 2 ^ 16) e).2) :: (carryChain (x / 2 ^ 16) e).1 := by
  simp [Fe.carry, carryChain, addToLimb0]

theorem fn_tail_carry (e : Fe) : Fe.fn (Fe.carry e).tail = true := by
  cases e with
  | nil => rfl
  | cons x e =>
    rw [carry_cons]
    exact fn_carryChain _ e

/-- A pass changes the value by a multiple of 2p: 2^256 is 38 modulo 2p. -/
theorem val_carry {e : Fe} (he : e.length = 16) :
    Fe.val (Fe.carry e) = Fe.val e - (carryChain 0 e).2 * (2 * fieldPrime) := by
  have hchain := val_carryChain 0 e
  have hcons : (carryChain 0 e).1 ≠ [] := by
    rw [← List.length_pos_iff, length_carryChain, he]
    decide
  obtain ⟨y, rest, hy⟩ := List.exists_cons_of_ne_nil hcons
  rw [he] at hchain
  rw [Fe.carry, hy, val_addToLimb0, ← hy, fieldPrime]
  linear_combination hchain

theorem fn_carry_of_fn_tail {x : Int} {e : Fe} (he : Fe.fn e = true) (hlow : -65498 ≤ x) (hhigh : x ≤ 131033) :
    Fe.fn (Fe.carry (x :: e)) = true := by
  have hout := carryChain_out_eq (c := x / 2 ^ 16) he (by omega) (by omega)
  rw [carry_cons]
  exact fn_cons.mpr ⟨by omega, fn_carryChain _ e⟩

/-- A second pass, on limbs that only limb 0 keeps from being normalised, is weakly normalised. -/
theorem wn_carry_of_fn_tail {x : Int} {e : Fe} (he : Fe.fn e = true) (hlen : e.length = 15) (hlow : -2 ^ 63 ≤ x)
    (hhigh : x ≤ 2 ^ 63) : Fe.wn (Fe.carry (x :: e)) = true := by
  obtain ⟨hout, hout'⟩ := carryChain_out_of_fn (c := x / 2 ^ 16) he (by rw [hlen]; omega) (by rw [hlen]; omega)
  rw [carry_cons, wn_cons]
  exact ⟨by omega, fn_carryChain _ e⟩

/-- Limb 0 after a pass. -/
theorem bounded_carry {e : Fe} (he : Fe.bounded (2 ^ 62) e = true) : Fe.bounded (2 ^ 53) (Fe.carry e) = true := by
  cases e with
  | nil => rfl
  | cons x e =>
    obtain ⟨hx, he⟩ := bounded_cons.mp he
    obtain ⟨-, hlow, hhigh⟩ := carryChain_bounded (c := x / 2 ^ 16) he (by omega) (by omega)
    rw [carry_cons]
    exact bounded_cons.mpr ⟨by omega, bounded_of_fn (by decide) (fn_carryChain _ e)⟩

theorem inDomain_carryNamed {e : Fe} (he : Fe.bounded (2 ^ 62) e = true) : inDomain (Fe.carryNamed e) = true :=
  inDomain_append.mpr ⟨(carryChain_bounded he (by decide) (by decide)).1, inDomain_of_bounded (by decide) (bounded_carry he)⟩

/-- Two passes on bounded limbs: no named value leaves the range, and the result is weakly normalised. -/
theorem wn_carry_carry {e : Fe} (hlen : e.length = 16) (he : Fe.bounded (2 ^ 62) e = true) :
    Fe.wn (Fe.carry (Fe.carry e)) = true := by
  have hbound := bounded_carry he
  have htail := fn_tail_carry e
  have hlen' : (Fe.carry e).length = 16 := by rw [Fe.length_carry, hlen]
  cases h : Fe.carry e with
  | nil => simp [h] at hlen'
  | cons x rest =>
    rw [h] at hbound htail hlen'
    obtain ⟨hx, -⟩ := bounded_cons.mp hbound
    exact wn_carry_of_fn_tail htail (by simpa using hlen') (by omega) (by omega)

/-- Under R131's bound the last carry is at most 1025, so limb 0 after one pass is within R118's reach of FN. -/
theorem carryChain_out_of_bounded {c : Int} {e : Fe} (he : Fe.bounded (2 ^ 26) e = true) (hlow : -1025 ≤ c) (hhigh : c ≤ 1025) :
    -1025 ≤ (carryChain c e).2 ∧ (carryChain c e).2 ≤ 1025 := by
  induction e generalizing c with
  | nil => exact ⟨hlow, hhigh⟩
  | cons x e ih =>
    obtain ⟨hx, he⟩ := bounded_cons.mp he
    exact ih (c := (x + c) / 2 ^ 16) he (by omega) (by omega)

theorem fn_carry_carry {e : Fe} (he : Fe.bounded (2 ^ 26) e = true) : Fe.fn (Fe.carry (Fe.carry e)) = true := by
  cases e with
  | nil => rfl
  | cons x e =>
    obtain ⟨hx, he⟩ := bounded_cons.mp he
    have hout := carryChain_out_of_bounded (c := x / 2 ^ 16) he (by omega) (by omega)
    rw [carry_cons x e]
    exact fn_carry_of_fn_tail (fn_carryChain _ e) (by omega) (by omega)

/-- Settles O45: the last carry is the multiple of 2p; the bounds on it give the rest. -/
theorem carryNormalises : Obligations.CarryNormalises := by
  refine fun e he => ⟨⟨_, val_carry he⟩, fn_tail_carry e, fun htail hlow hhigh => ?_, fn_carry_carry⟩
  cases e with
  | nil => rfl
  | cons x e => exact fn_carry_of_fn_tail htail hlow hhigh

/-! ### The pass limb by limb (R118, R120) -/

/-- The carry into limb `k`, with `c` coming into limb 0. -/
def carryInto (c : Int) (e : Fe) : Nat → Int
  | 0 => c
  | k + 1 => (e.getD k 0 + carryInto c e k) / 2 ^ 16

theorem carryInto_cons (c x : Int) (e : Fe) (k : Nat) :
    carryInto c (x :: e) (k + 1) = carryInto ((x + c) / 2 ^ 16) e k := by
  induction k with
  | zero => rfl
  | succ k ih => rw [carryInto, ih, List.getD_cons_succ, carryInto]

theorem carryChain_out_eq_carryInto (c : Int) (e : Fe) : (carryChain c e).2 = carryInto c e e.length := by
  induction e generalizing c with
  | nil => rfl
  | cons x e ih => rw [List.length_cons, carryInto_cons, ← ih]; rfl

theorem getD_carryChain {c : Int} {e : Fe} {k : Nat} (hk : k < e.length) :
    (carryChain c e).1.getD k 0 = e.getD k 0 + carryInto c e k - carryInto c e (k + 1) * 2 ^ 16 := by
  induction e generalizing c k with
  | nil => exact absurd hk (Nat.not_lt_zero k)
  | cons x e ih =>
    cases k with
    | zero => rfl
    | succ k =>
      have hrest := ih (c := (x + c) / 2 ^ 16) (Nat.lt_of_succ_lt_succ hk)
      rw [carryInto_cons, carryInto_cons, List.getD_cons_succ]
      exact hrest

theorem getD_addToLimb0 (y : Int) {e : Fe} {k : Nat} (hk : k < e.length) :
    (addToLimb0 y e).getD k 0 = e.getD k 0 + if k = 0 then y else 0 := by
  cases e with
  | nil => exact absurd hk (Nat.not_lt_zero k)
  | cons x e => cases k <;> simp [addToLimb0]

theorem getD_carry {e : Fe} {k : Nat} (hk : k < e.length) :
    (Fe.carry e).getD k 0 = e.getD k 0 + carryInto 0 e k - carryInto 0 e (k + 1) * 2 ^ 16
      + if k = 0 then 38 * carryInto 0 e e.length else 0 := by
  rw [Fe.carry, getD_addToLimb0 _ (by rwa [length_carryChain]), getD_carryChain hk, carryChain_out_eq_carryInto]

theorem length_feOf (s : State) (i : FReg) : (feOf s i).length = 16 := Elem.length_toFe _

theorem exec_feCarry (rd ra : FReg) (s : State) :
    exec (.feCarry rd ra) s =
      ifInDomain (inDomain (Fe.carryNamed (feOf s ra))) (writeFe rd (Fe.carry (feOf s ra)) s) := rfl

/-- Settles O44: the carries are `carryInto`, and in the domain every limb of the result is held exactly. -/
theorem feCarry : Obligations.FeCarry := by
  refine fun rd ra s => ⟨fun hd => ⟨(Fe.carry (feOf s ra)).toElem, fun k => carryInto 0 (feOf s ra) (k + 1), ?_, fun k => ?_⟩,
    fun hd => ?_⟩
  · rw [exec_feCarry, hd]
    rfl
  · have hlen := length_feOf s ra
    have hin : (if k.val = 0 then 0 else carryInto 0 (feOf s ra) (k.val - 1 + 1)) = carryInto 0 (feOf s ra) k := by
      split_ifs with hk
      · rw [hk, carryInto]
      · rw [Nat.sub_add_cancel (by omega)]
    refine ⟨?_, ?_⟩
    · rw [hin, ← getD_feOf]
      rfl
    · rw [toInt_getElem_toElem (by rw [Fe.length_carry, hlen]) (inDomain_append.mp hd).2, getD_carry (by omega), getD_feOf,
        hin, hlen]
  · rw [exec_feCarry, hd]
    rfl

end Sys2Proof.Machine
end

section
/-! PROOFS. The product of two elements (R123): its value modulo p, its limbs, its named values, and `FE_MUL`, `FE_SQR`
(R123, R124). -/

namespace Sys2Proof.Machine

/-! ### Rows added into the product -/

theorem map_mul_cons (x y : Int) (b : Fe) : (y :: b).map (x * ·) = x * y :: b.map (x * ·) := rfl

theorem val_map_mul (x : Int) (b : Fe) : Fe.val (b.map (x * ·)) = x * Fe.val b := by
  induction b with
  | nil => simp
  | cons y b ih =>
    rw [map_mul_cons, val_cons, val_cons, ih]
    ring

theorem getD_map_mul (x : Int) (b : Fe) (n : Nat) : (b.map (x * ·)).getD n 0 = x * b.getD n 0 := by
  rw [← List.getD_map (f := (x * ·)), mul_zero]

theorem val_replicate_zero (n : Nat) : Fe.val (List.replicate n 0) = 0 := by
  induction n with
  | zero => rfl
  | succ n ih => rw [List.replicate_succ, val_cons, ih]; rfl

section
variable {t row : List Int}

theorem val_addInto (h : row.length ≤ t.length) : Fe.val (addInto t row) = Fe.val t + Fe.val row := by
  induction t generalizing row with
  | nil =>
    obtain rfl := List.length_eq_zero_iff.mp (Nat.le_zero.mp h)
    rfl
  | cons x t ih =>
    cases row with
    | nil => exact (add_zero _).symm
    | cons y row =>
      rw [addInto, val_cons, val_cons, val_cons, ih (Nat.le_of_succ_le_succ h)]
      ring

theorem val_addAt {i : Nat} (h : i + row.length ≤ t.length) :
    Fe.val (addAt i t row) = Fe.val t + 2 ^ (16 * i) * Fe.val row := by
  induction i generalizing t with
  | zero =>
    rw [addAt, val_addInto (by omega)]
    ring
  | succ i ih =>
    cases t with
    | nil => exact absurd h (by simp)
    | cons x t =>
      rw [addAt, val_cons, val_cons, ih (by simp at h; omega), two_pow_sixteen_mul_succ]
      ring

theorem getD_addInto (h : row.length ≤ t.length) (n : Nat) :
    (addInto t row).getD n 0 = t.getD n 0 + row.getD n 0 := by
  induction t generalizing row n with
  | nil =>
    obtain rfl := List.length_eq_zero_iff.mp (Nat.le_zero.mp h)
    rfl
  | cons x t ih =>
    cases row with
    | nil => simp [addInto]
    | cons y row =>
      cases n with
      | zero => rfl
      | succ n => exact ih (Nat.le_of_succ_le_succ h) n

theorem getD_addAt {i : Nat} (h : i + row.length ≤ t.length) (n : Nat) :
    (addAt i t row).getD n 0 = t.getD n 0 + if i ≤ n then row.getD (n - i) 0 else 0 := by
  induction i generalizing t n with
  | zero => simpa [addAt] using getD_addInto (by omega) n
  | succ i ih =>
    cases t with
    | nil => exact absurd h (by simp)
    | cons x t =>
      cases n with
      | zero => simp [addAt]
      | succ n => simpa [addAt] using ih (by simp at h; omega) n

variable {β γ : Int}

theorem bounded_map_mul {x : Int} (hx : -β ≤ x ∧ x ≤ β) {b : Fe} (hb : Fe.bounded γ b = true) :
    Fe.bounded (β * γ) (b.map (x * ·)) = true := by
  refine bounded_iff.mpr fun z hz => ?_
  obtain ⟨y, hy, rfl⟩ := List.mem_map.mp hz
  have hxy : |x| * |y| ≤ β * γ :=
    mul_le_mul (abs_le.mpr hx) (abs_le.mpr (bounded_iff.mp hb y hy)) (abs_nonneg y) (by omega)
  exact abs_le.mp ((abs_mul x y).trans_le hxy)

theorem bounded_addInto (hγ : 0 ≤ γ) (ht : Fe.bounded β t = true) (hrow : Fe.bounded γ row = true) :
    Fe.bounded (β + γ) (addInto t row) = true := by
  induction t generalizing row with
  | nil => cases row <;> rfl
  | cons x t ih =>
    cases row with
    | nil => exact bounded_mono (by omega) ht
    | cons y row =>
      obtain ⟨hx, ht⟩ := bounded_cons.mp ht
      obtain ⟨hy, hrow⟩ := bounded_cons.mp hrow
      exact bounded_cons.mpr ⟨by omega, ih ht hrow⟩

theorem bounded_addAt (hγ : 0 ≤ γ) (ht : Fe.bounded β t = true) (hrow : Fe.bounded γ row = true) (i : Nat) :
    Fe.bounded (β + γ) (addAt i t row) = true := by
  induction i generalizing t with
  | zero => exact bounded_addInto hγ ht hrow
  | succ i ih =>
    cases t with
    | nil => rfl
    | cons x t =>
      obtain ⟨hx, ht⟩ := bounded_cons.mp ht
      exact bounded_cons.mpr ⟨by omega, ih ht⟩

end

/-! ### The convolution (R123) -/

theorem val_convolve {a b : Fe} {i : Nat} {t : List Int} (h : i + a.length + b.length ≤ t.length + 1) :
    Fe.val (convolve b i a t) = Fe.val t + 2 ^ (16 * i) * (Fe.val a * Fe.val b) := by
  induction a generalizing i t with
  | nil => simp [convolve]
  | cons x a ih =>
    rw [List.length_cons] at h
    have hrow : i + (b.map (x * ·)).length ≤ t.length := by rw [List.length_map]; omega
    rw [convolve, ih (by rw [length_addAt hrow]; omega), val_addAt hrow, val_map_mul, val_cons, two_pow_sixteen_mul_succ]
    ring

/-- The sum of products a row of the convolution adds to entry `n`, with `a[0]` at place `i`. -/
def convolutionSum (a b : Fe) (i n : Nat) : Int :=
  ((List.range a.length).map fun j => if i + j ≤ n then a.getD j 0 * b.getD (n - (i + j)) 0 else 0).sum

theorem convolutionSum_cons (x : Int) (a b : Fe) (i n : Nat) :
    convolutionSum (x :: a) b i n = (if i ≤ n then x * b.getD (n - i) 0 else 0) + convolutionSum a b (i + 1) n := by
  simp only [convolutionSum, List.length_cons, List.range_succ_eq_map, List.map_cons, List.map_map, List.sum_cons]
  congr 3
  funext j
  simp only [Function.comp_apply, Nat.succ_eq_add_one, List.getD_cons_succ, Nat.add_right_comm i 1 j, Nat.add_assoc]

theorem getD_convolve {a b : Fe} {i : Nat} {t : List Int} (h : i + a.length + b.length ≤ t.length + 1) (n : Nat) :
    (convolve b i a t).getD n 0 = t.getD n 0 + convolutionSum a b i n := by
  induction a generalizing i t with
  | nil => simp [convolve, convolutionSum]
  | cons x a ih =>
    rw [List.length_cons] at h
    have hrow : i + (b.map (x * ·)).length ≤ t.length := by rw [List.length_map]; omega
    rw [convolve, ih (by rw [length_addAt hrow]; omega), getD_addAt hrow, getD_map_mul, convolutionSum_cons, add_assoc]

/-- Each row of bounded operands adds at most 2^52 in absolute value, so 16 of them stay within 2^56. -/
theorem convolve_bounded {a b : Fe} (ha : Fe.bounded (2 ^ 26) a = true) (hb : Fe.bounded (2 ^ 26) b = true) {β : Int}
    (hβ : β + 2 ^ 52 * a.length < 2 ^ 63) {t : List Int} (ht : Fe.bounded β t = true) (i : Nat) :
    inDomain (convolveNamed b i a t) = true ∧ Fe.bounded (β + 2 ^ 52 * a.length) (convolve b i a t) = true := by
  induction a generalizing i t β with
  | nil => exact ⟨rfl, by simpa [convolve] using ht⟩
  | cons x a ih =>
    obtain ⟨hx, ha⟩ := bounded_cons.mp ha
    have hlen : (2 : Int) ^ 52 * (x :: a).length = 2 ^ 52 + 2 ^ 52 * a.length := by push_cast [List.length_cons]; ring
    have hrow : Fe.bounded (2 ^ 52) (b.map (x * ·)) = true := bounded_map_mul hx hb
    have hnext := bounded_addAt (by decide) ht hrow i
    rw [hlen, ← add_assoc] at hβ ⊢
    obtain ⟨hnamed, hbound⟩ := ih ha hβ hnext (i + 1)
    exact ⟨inDomain_append.mpr ⟨inDomain_of_bounded (by omega) hnext, hnamed⟩, hbound⟩

/-! ### The fold (R123) -/

section
variable {t : List Int} (ht : t.length = 31)
include ht

theorem length_fold38 : (fold38 t).length = 16 := by simp [fold38, length_addInto, ht]

theorem length_high_le_low : ((t.drop 16).map (38 * ·)).length ≤ (t.take 16).length := by simp [ht]

theorem val_fold38 : Fe.val (fold38 t) = Fe.val t - Fe.val (t.drop 16) * (2 * fieldPrime) := by
  have hsplit := val_append (t.take 16) (t.drop 16)
  have hlow : (t.take 16).length = 16 := by simp [ht]
  rw [List.take_append_drop, hlow] at hsplit
  rw [fold38, val_addInto (length_high_le_low ht), val_map_mul, fieldPrime]
  linear_combination -hsplit

theorem getD_fold38 {k : Nat} (hk : k < 16) :
    (fold38 t).getD k 0 = if k < 15 then t.getD k 0 + 38 * t.getD (k + 16) 0 else t.getD k 0 := by
  have htake : (t.take 16).getD k 0 = t.getD k 0 := by
    simp [List.getD_eq_getElem?_getD, hk]
  have hdrop : (t.drop 16).getD k 0 = t.getD (k + 16) 0 := by
    simp [List.getD_eq_getElem?_getD, Nat.add_comm]
  rw [fold38, getD_addInto (length_high_le_low ht), getD_map_mul, htake, hdrop]
  split_ifs with h15
  · rfl
  · have hnone : t.getD (k + 16) 0 = 0 := List.getD_eq_default _ _ (by omega)
    rw [hnone, mul_zero, add_zero]

end

/-! ### The product (R123) -/

theorem val_carry_modEq {e : Fe} (he : e.length = 16) : Fe.val (Fe.carry e) ≡ Fe.val e [ZMOD fieldPrime] := by
  rw [val_carry he]
  exact Int.modEq_iff_dvd.mpr ⟨(carryChain 0 e).2 * 2, by ring⟩

section
variable {a b : Fe} (ha : a.length = 16) (hb : b.length = 16)
include ha hb

theorem length_fold38_product : (fold38 (product a b)).length = 16 := length_fold38 (length_product ha hb)

/-- The product's value is the product of the values modulo p: the fold and each pass change it by a multiple of 2p. -/
theorem val_mul_modEq : Fe.val (Fe.mul a b) ≡ Fe.val a * Fe.val b [ZMOD fieldPrime] := by
  have hfold := length_fold38_product ha hb
  have hproduct : Fe.val (product a b) = Fe.val a * Fe.val b := by
    rw [product, val_convolve (by simp [ha, hb]), val_replicate_zero]
    ring
  calc Fe.val (Fe.mul a b) ≡ Fe.val (Fe.carry (fold38 (product a b))) [ZMOD fieldPrime] :=
        val_carry_modEq (by rw [Fe.length_carry, hfold])
    _ ≡ Fe.val (fold38 (product a b)) [ZMOD fieldPrime] := val_carry_modEq hfold
    _ ≡ Fe.val a * Fe.val b [ZMOD fieldPrime] := by
        rw [val_fold38 (length_product ha hb), hproduct]
        exact Int.modEq_iff_dvd.mpr ⟨Fe.val ((product a b).drop 16) * 2, by ring⟩

/-- On bounded operands no named value leaves the 64-bit range and the product is weakly normalised (R131). -/
theorem mul_of_bounded (hab : Fe.bounded (2 ^ 26) a = true) (hbb : Fe.bounded (2 ^ 26) b = true) :
    inDomain (Fe.mulNamed a b) = true ∧ Fe.wn (Fe.mul a b) = true := by
  have hzero : Fe.bounded 0 (List.replicate 31 0) = true := by decide
  obtain ⟨hconv, hbound⟩ := convolve_bounded hab hbb (β := 0) (by rw [ha]; decide) hzero 0
  have hproduct : Fe.bounded (2 ^ 56) (product a b) = true := bounded_mono (by rw [ha]; decide) hbound
  have hlow : Fe.bounded (2 ^ 56) ((product a b).take 16) = true :=
    bounded_iff.mpr fun x hx => bounded_iff.mp hproduct x (List.mem_of_mem_take hx)
  have hhigh : Fe.bounded (2 ^ 56) ((product a b).drop 16) = true :=
    bounded_iff.mpr fun x hx => bounded_iff.mp hproduct x (List.mem_of_mem_drop hx)
  have hfold : Fe.bounded (2 ^ 62) (fold38 (product a b)) = true :=
    bounded_mono (by decide) (bounded_addInto (by decide) hlow (bounded_map_mul (β := 38) (by decide) hhigh))
  have hnext : Fe.bounded (2 ^ 62) (Fe.carry (fold38 (product a b))) = true := bounded_mono (by decide) (bounded_carry hfold)
  refine ⟨?_, wn_carry_carry (length_fold38_product ha hb) hfold⟩
  simp only [Fe.mulNamed, inDomain_append]
  exact ⟨⟨⟨hconv, inDomain_of_bounded (by decide) hfold⟩, inDomain_carryNamed hfold⟩, inDomain_carryNamed hnext⟩

end

/-- Settles O46: the value is followed through the fold and the passes, the bounds through every row. -/
theorem mulValue : Obligations.MulValue := fun _ _ ha hb =>
  ⟨Int.emod_eq_zero_of_dvd (Int.modEq_iff_dvd.mp (val_mul_modEq ha hb).symm), mul_of_bounded ha hb⟩

/-! ### The commands (R123, R124) -/

/-- Where the named values of a product are in the range, so are the limbs of its result. -/
theorem inDomain_mul {a b : Fe} (h : inDomain (Fe.mulNamed a b) = true) : inDomain (Fe.mul a b) = true := by
  simp only [Fe.mulNamed, Fe.carryNamed, inDomain_append] at h
  exact h.2.2

theorem exec_feMul (rd ra rb : FReg) (s : State) :
    exec (.feMul rd ra rb) s =
      ifInDomain (inDomain (Fe.mulNamed (feOf s ra) (feOf s rb))) (writeFe rd (Fe.mul (feOf s ra) (feOf s rb)) s) := rfl

theorem exec_feMul_of_inDomain {rd ra rb : FReg} {s : State} (h : inDomain (Fe.mulNamed (feOf s ra) (feOf s rb)) = true) :
    exec (.feMul rd ra rb) s = .next (respond [] (setF rd (Fe.mul (feOf s ra) (feOf s rb)).toElem s)) := by
  rw [exec_feMul, h]
  rfl

theorem exec_feMul_of_not_inDomain {rd ra rb : FReg} {s : State}
    (h : inDomain (Fe.mulNamed (feOf s ra) (feOf s rb)) = false) :
    exec (.feMul rd ra rb) s = .refused .limbOutOfDomain := by
  rw [exec_feMul, h]
  rfl

/-- The product's limbs, held in containers. -/
theorem toFe_toElem_mul {ra rb : FReg} {s : State} (h : inDomain (Fe.mulNamed (feOf s ra) (feOf s rb)) = true) :
    (Fe.mul (feOf s ra) (feOf s rb)).toElem.toFe = Fe.mul (feOf s ra) (feOf s rb) :=
  Fe.toFe_toElem (Fe.length_mul (length_feOf s ra) (length_feOf s rb)) (inDomain_mul h)

/-- An entry of the product as R123's sum: the terms whose second index is a limb. -/
theorem getD_product {a b : Fe} (ha : a.length = 16) (hb : b.length = 16) (n : Nat) :
    (product a b).getD n 0 =
      ((List.range 16).map fun i => if i ≤ n ∧ n ≤ i + 15 then a.getD i 0 * b.getD (n - i) 0 else 0).sum := by
  have hzero : (List.replicate 31 (0 : Int)).getD n 0 = 0 := by
    rw [List.getD_eq_getElem?_getD, List.getElem?_getD_replicate_default_eq]
  rw [product, getD_convolve (by simp [ha, hb]), hzero, zero_add, convolutionSum, ha]
  congr 2
  funext i
  rw [Nat.zero_add]
  by_cases hle : i ≤ n
  · by_cases hlt : n ≤ i + 15
    · rw [if_pos hle, if_pos ⟨hle, hlt⟩]
    · have hnone : b.getD (n - i) 0 = 0 := List.getD_eq_default _ _ (by omega)
      rw [if_pos hle, if_neg (by omega), hnone, mul_zero]
  · rw [if_neg hle, if_neg (by omega)]

/-- Settles O43: the product is held exactly where its named values fit, and its limbs before the passes are R123's sums. -/
theorem feMulSqr : Obligations.FeMulSqr := by
  refine ⟨fun rd ra rb s => ⟨fun h => ⟨_, fold38 (product (feOf s ra) (feOf s rb)), exec_feMul_of_inDomain h,
    toFe_toElem_mul h, length_fold38_product (length_feOf s ra) (length_feOf s rb), fun k hk => ?_⟩,
    exec_feMul_of_not_inDomain⟩, fun rd ra s => ⟨rfl, fun h => ⟨_, exec_feMul_of_inDomain h, toFe_toElem_mul h⟩⟩⟩
  have hproduct := length_product (length_feOf s ra) (length_feOf s rb)
  simp only [getD_fold38 hproduct hk, getD_product (length_feOf s ra) (length_feOf s rb)]

end Sys2Proof.Machine
end

section
/-! PROOFS. The inversion chain (R126): its exponent, its domain, and `FE_INV`. -/

namespace Sys2Proof.Machine

/-! ### One iteration -/

theorem invStep_of_skip {a c : Fe} {k : Nat} (h : k = 2 ∨ k = 4) : invStep a c k = Fe.sqr c :=
  if_neg (by omega)

theorem invStep_of_not_skip {a c : Fe} {k : Nat} (h : ¬(k = 2 ∨ k = 4)) : invStep a c k = Fe.mul (Fe.sqr c) a :=
  if_pos (by omega)

theorem length_invStep {a c : Fe} (ha : a.length = 16) (hc : c.length = 16) (k : Nat) : (invStep a c k).length = 16 := by
  unfold invStep
  split
  · exact Fe.length_mul (Fe.length_sqr hc) ha
  · exact Fe.length_sqr hc

theorem length_invLoop {a c : Fe} (ha : a.length = 16) (hc : c.length = 16) (n : Nat) : (invLoop a n c).length = 16 := by
  induction n generalizing c with
  | zero => exact hc
  | succ n ih => exact ih (length_invStep ha hc n)

theorem Fe.length_inv {a : Fe} (ha : a.length = 16) : (Fe.inv a).length = 16 := length_invLoop ha ha 254

/-! ### The exponent (R126) -/

/-- The exponent the operand gains in iterations `n − 1` down to 0: its binary digits are 1 but for places 2 and 4. -/
def invExponent : Nat → Nat
  | 0 => 0
  | n + 1 => (if n = 2 ∨ n = 4 then 0 else 2 ^ n) + invExponent n

theorem invExponent_add (n : Nat) : invExponent (n + 5) + 21 = 2 ^ (n + 5) := by
  induction n with
  | zero => rfl
  | succ n ih =>
    have hdigit : invExponent (n + 5 + 1) = 2 ^ (n + 5) + invExponent (n + 5) := by rw [invExponent, if_neg (by omega)]
    rw [Nat.add_right_comm, hdigit, pow_succ 2 (n + 5)]
    omega

section
variable {a c : Fe} (ha : a.length = 16) (hc : c.length = 16)
include ha hc

theorem val_invStep_modEq (k : Nat) :
    Fe.val (invStep a c k) ≡ Fe.val c ^ 2 * Fe.val a ^ (if k = 2 ∨ k = 4 then 0 else 1) [ZMOD fieldPrime] := by
  have hsqr : Fe.val (Fe.sqr c) ≡ Fe.val c ^ 2 [ZMOD fieldPrime] := by
    rw [sq]
    exact val_mul_modEq hc hc
  by_cases h : k = 2 ∨ k = 4
  · rw [invStep_of_skip h, if_pos h, pow_zero, mul_one]
    exact hsqr
  · rw [invStep_of_not_skip h, if_neg h, pow_one]
    exact (val_mul_modEq (Fe.length_sqr hc) ha).trans (hsqr.mul_right _)

omit hc in
theorem val_invLoop_modEq (n : Nat) : ∀ {c : Fe}, c.length = 16 →
    Fe.val (invLoop a n c) ≡ Fe.val c ^ 2 ^ n * Fe.val a ^ invExponent n [ZMOD fieldPrime] := by
  induction n with
  | zero =>
    intro c _
    rw [invLoop, pow_zero, pow_one, invExponent, pow_zero, mul_one]
  | succ n ih =>
    intro c hc
    have hgain : (if n = 2 ∨ n = 4 then 0 else 1) * 2 ^ n = if n = 2 ∨ n = 4 then 0 else 2 ^ n := by
      split_ifs <;> simp
    calc Fe.val (invLoop a (n + 1) c) ≡ Fe.val (invStep a c n) ^ 2 ^ n * Fe.val a ^ invExponent n [ZMOD fieldPrime] :=
          ih (length_invStep ha hc n)
      _ ≡ (Fe.val c ^ 2 * Fe.val a ^ (if n = 2 ∨ n = 4 then 0 else 1)) ^ 2 ^ n * Fe.val a ^ invExponent n [ZMOD fieldPrime] :=
          ((val_invStep_modEq ha hc n).pow _).mul_right _
      _ = Fe.val c ^ 2 ^ (n + 1) * Fe.val a ^ invExponent (n + 1) := by
          rw [mul_pow, ← pow_mul, ← pow_mul, hgain, mul_assoc, ← pow_add, ← Nat.pow_succ', invExponent]

end

/-- The inverse's value is the operand's to the power p − 2 (R126). -/
theorem val_inv_modEq {a : Fe} (ha : a.length = 16) :
    Fe.val (Fe.inv a) ≡ Fe.val a ^ (2 ^ 255 - 21) [ZMOD fieldPrime] := by
  have hexponent : 2 ^ 254 + invExponent 254 = 2 ^ 255 - 21 := by
    have hdigits : invExponent 254 + 21 = 2 ^ 254 := invExponent_add 249
    omega
  rw [← hexponent, pow_add]
  exact val_invLoop_modEq ha 254 ha

/-! ### The domain (R116, R131) -/

/-- A weakly normalised element, and one within R131's bound, may go into a product. -/
theorem bounded_of_wn_or {e : Fe} (h : Fe.wn e = true) : Fe.bounded (2 ^ 26) e = true :=
  bounded_mono (by decide) (bounded_of_wn h)

section
variable {a : Fe} (ha : a.length = 16) (hab : Fe.bounded (2 ^ 26) a = true)
include ha hab

theorem invStep_of_bounded {c : Fe} (hc : c.length = 16) (hcb : Fe.bounded (2 ^ 26) c = true) (k : Nat) :
    inDomain (Fe.mulNamed c c) = true ∧ inDomain (Fe.mulNamed (Fe.sqr c) a) = true ∧ Fe.wn (invStep a c k) = true := by
  obtain ⟨hnamed, hwn⟩ := mul_of_bounded hc hc hcb hcb
  obtain ⟨hnamed', hwn'⟩ := mul_of_bounded (Fe.length_sqr hc) ha (bounded_of_wn_or hwn) hab
  refine ⟨hnamed, hnamed', ?_⟩
  by_cases h : k = 2 ∨ k = 4
  · rw [invStep_of_skip h]
    exact hwn
  · rw [invStep_of_not_skip h]
    exact hwn'

theorem invLoop_of_bounded {c : Fe} (hc : c.length = 16) (hcb : Fe.bounded (2 ^ 26) c = true) (n : Nat) :
    invLoopDomain a n c = true ∧ Fe.bounded (2 ^ 26) (invLoop a n c) = true ∧ (0 < n → Fe.wn (invLoop a n c) = true) := by
  induction n generalizing c with
  | zero => exact ⟨rfl, hcb, fun h => absurd h (lt_irrefl 0)⟩
  | succ n ih =>
    obtain ⟨hsqr, hmul, hwn⟩ := invStep_of_bounded ha hab hc hcb n
    obtain ⟨hdomain, hbound, hlast⟩ := ih (length_invStep ha hc n) (bounded_of_wn_or hwn)
    refine ⟨by simp [invLoopDomain, hsqr, hmul, hdomain], hbound, fun _ => ?_⟩
    cases n with
    | zero => exact hwn
    | succ n => exact hlast n.succ_pos

end

/-- Settles O48: the chain's exponent is 2^254 − 21 beside the operand's own 2^254, and every element in it may go into a
product. -/
theorem invValue : Obligations.InvValue := by
  refine fun a ha => ⟨Int.emod_eq_zero_of_dvd (Int.modEq_iff_dvd.mp (val_inv_modEq ha).symm), fun hab => ?_⟩
  obtain ⟨hdomain, -, hwn⟩ := invLoop_of_bounded ha hab ha hab 254
  exact ⟨hdomain, hwn (by decide)⟩

/-! ### `FE_INV` (R126) -/

theorem exec_feInv (rd ra : FReg) (s : State) :
    exec (.feInv rd ra) s = ifInDomain (Fe.invDomain (feOf s ra)) (writeFe rd (Fe.inv (feOf s ra)) s) := rfl

/-- The model's short way to the domain agrees with all the iterations (R131 (b)). -/
theorem invDomain_eq {a : Fe} (ha : a.length = 16) : Fe.invDomain a = invLoopDomain a 254 a := by
  unfold Fe.invDomain
  cases hab : Fe.bounded (2 ^ 26) a with
  | false => exact Bool.false_or _
  | true => rw [(invLoop_of_bounded ha hab ha hab 254).1, Bool.true_or]

theorem inDomain_invLoop {a c : Fe} {n : Nat} (h : invLoopDomain a n c = true) (hc : inDomain c = true) :
    inDomain (invLoop a n c) = true := by
  induction n generalizing c with
  | zero => exact hc
  | succ n ih =>
    simp only [invLoopDomain, Bool.and_eq_true, Bool.or_eq_true, decide_eq_true_eq] at h
    obtain ⟨⟨hsqr, hmul⟩, hrest⟩ := h
    refine ih hrest ?_
    by_cases hskip : n = 2 ∨ n = 4
    · rw [invStep_of_skip hskip]
      exact inDomain_mul hsqr
    · rw [invStep_of_not_skip hskip]
      exact inDomain_mul (hmul.resolve_left hskip)

/-- The running element of the chain once only iterations `k − 1` down to 0 are left. -/
def invStateAt (a : Fe) (k : Nat) : Fe := (List.range' k (254 - k)).reverse.foldl (invStep a) a

theorem invStateAt_of_lt (a : Fe) {k : Nat} (hk : k < 254) : invStateAt a k = invStep a (invStateAt a (k + 1)) k := by
  obtain ⟨n, hn⟩ := Nat.exists_eq_add_of_lt hk
  have hcount : 254 - k = n + 1 := by omega
  have hrest : 254 - (k + 1) = n := by omega
  rw [invStateAt, hcount, List.range'_succ, List.reverse_cons, List.foldl_append, List.foldl_cons, List.foldl_nil, invStateAt,
    hrest]

theorem invLoop_invStateAt (a : Fe) {k : Nat} (hk : k ≤ 254) : invLoop a k (invStateAt a k) = invStateAt a 0 := by
  induction k with
  | zero => rfl
  | succ k ih =>
    rw [invLoop, ← invStateAt_of_lt a (by omega)]
    exact ih (by omega)

theorem inv_eq_invStateAt (a : Fe) : Fe.inv a = invStateAt a 0 := invLoop_invStateAt a le_rfl

/-- Settles O47: the chain's elements are `invStateAt`, and `invDomain` is the domain of all the iterations. -/
theorem feInv : Obligations.FeInv := by
  refine fun rd ra s => ⟨fun hd => ⟨(Fe.inv (feOf s ra)).toElem, invStateAt (feOf s ra), ?_, rfl, ?_, fun k hk => ?_⟩,
    fun hd => ?_⟩
  · rw [exec_feInv, invDomain_eq (length_feOf s ra), hd]
    rfl
  · rw [Fe.toFe_toElem (Fe.length_inv (length_feOf s ra)) (inDomain_invLoop hd (Elem.inDomain_toFe _)), inv_eq_invStateAt]
  · rw [invStateAt_of_lt _ hk]
    split_ifs with hskip
    · exact invStep_of_skip hskip
    · exact invStep_of_not_skip hskip
  · rw [exec_feInv, invDomain_eq (length_feOf s ra), hd]
    rfl

end Sys2Proof.Machine
end

section
/-! PROOFS. `Pack` (R127): the conditional subtractions, the bytes, the named values, and `FE_PACK`. -/

namespace Sys2Proof.Machine

/-! ### One subtraction of p (R127) -/

/-- The limbs of one subtraction, each with the prime's limb beside it. -/
def LimbPairs (ps : List (Int × Int)) : Prop := ∀ x ∈ ps, (0 ≤ x.1 ∧ x.1 < 2 ^ 16) ∧ 0 ≤ x.2 ∧ x.2 < 2 ^ 16

theorem limbPairs_cons {x : Int × Int} {ps : List (Int × Int)} :
    LimbPairs (x :: ps) ↔ ((0 ≤ x.1 ∧ x.1 < 2 ^ 16) ∧ 0 ≤ x.2 ∧ x.2 < 2 ^ 16) ∧ LimbPairs ps :=
  List.forall_mem_cons

/-- The value of a difference of two elements given limb by limb. -/
def valDiff (ps : List (Int × Int)) : Int := Fe.val (ps.map Prod.fst) - Fe.val (ps.map Prod.snd)

theorem valDiff_cons (t p : Int) (ps : List (Int × Int)) : valDiff ((t, p) :: ps) = t - p + 2 ^ 16 * valDiff ps := by
  simp only [valDiff, List.map_cons, val_cons]
  ring

/-- The borrow of a difference of two limbs: its sign. -/
theorem bit16_eq {m : Int} (hlow : -2 ^ 16 ≤ m) (hhigh : m < 2 ^ 16) : bit16 m = if m < 0 then 1 else 0 := by
  unfold bit16
  split_ifs <;> omega

theorem subtractPrime_cons_cons (bw t p : Int) (x : Int × Int) (ps : List (Int × Int)) :
    subtractPrime bw ((t, p) :: x :: ps) =
      ((t - p - bw) % 2 ^ 16 :: (subtractPrime (bit16 (t - p - bw)) (x :: ps)).1,
        (subtractPrime (bit16 (t - p - bw)) (x :: ps)).2) := rfl

/-- One subtraction: its limbs have the value of the difference, the last borrow is the sign of that value, and without
a last borrow the limbs are normalised. -/
theorem subtractPrime_spec {ps : List (Int × Int)} (hne : ps ≠ []) (hps : LimbPairs ps) {bw : Int} (hbw : bw = 0 ∨ bw = 1) :
    Fe.val (subtractPrime bw ps).1 = valDiff ps - bw ∧
      (subtractPrime bw ps).2 = (if valDiff ps - bw < 0 then 1 else 0) ∧
      (0 ≤ valDiff ps - bw → Fe.fn (subtractPrime bw ps).1 = true) := by
  induction ps generalizing bw with
  | nil => exact absurd rfl hne
  | cons x ps ih =>
    obtain ⟨t, p⟩ := x
    obtain ⟨⟨ht, hp⟩, hrest⟩ := limbPairs_cons.mp hps
    dsimp only at ht hp
    have hbit := bit16_eq (m := t - p - bw) (by omega) (by omega)
    rw [valDiff_cons]
    cases ps with
    | nil =>
      have hzero : valDiff [] = 0 := rfl
      have hone : subtractPrime bw [(t, p)] = ([t - p - bw], bit16 (t - p - bw)) := rfl
      rw [hone, hbit, hzero, mul_zero, add_zero]
      exact ⟨by simp [val_cons], rfl, fun h => fn_cons.mpr ⟨by omega, rfl⟩⟩
    | cons y ps =>
      have hbw' : bit16 (t - p - bw) = 0 ∨ bit16 (t - p - bw) = 1 := by rw [hbit]; split_ifs <;> simp
      obtain ⟨hval, hborrow, hfn⟩ := ih (List.cons_ne_nil y ps) hrest hbw'
      rw [subtractPrime_cons_cons]
      have hlimb : (t - p - bw) % 2 ^ 16 = t - p - bw + 2 ^ 16 * bit16 (t - p - bw) := by
        rw [hbit]
        split_ifs <;> omega
      have hsign : valDiff (y :: ps) - bit16 (t - p - bw) < 0 ↔ t - p + 2 ^ 16 * valDiff (y :: ps) - bw < 0 := by omega
      refine ⟨?_, ?_, fun h => fn_cons.mpr ⟨by omega, hfn (by omega)⟩⟩
      · rw [val_cons, hval, hlimb]
        ring
      · simp only [hborrow, hsign]

/-! ### The conditional subtraction -/

theorem val_primeLimbs : Fe.val primeLimbs = fieldPrime := by decide +kernel

theorem fn_primeLimbs : Fe.fn primeLimbs = true := by decide

section
variable {t : Fe} (hlen : t.length = 16)
include hlen

theorem map_fst_zip_primeLimbs : (t.zip primeLimbs).map Prod.fst = t :=
  List.map_fst_zip (by rw [hlen]; decide)

theorem valDiff_zip_primeLimbs : valDiff (t.zip primeLimbs) = Fe.val t - fieldPrime := by
  rw [valDiff, map_fst_zip_primeLimbs hlen, List.map_snd_zip (by rw [hlen]; decide), val_primeLimbs]

omit hlen in
theorem limbPairs_zip_primeLimbs (hfn : Fe.fn t = true) : LimbPairs (t.zip primeLimbs) := fun _ hx =>
  ⟨fn_iff.mp hfn _ (List.of_mem_zip hx).1, fn_iff.mp fn_primeLimbs _ (List.of_mem_zip hx).2⟩

/-- One round takes p off a value that is at least p, and leaves a smaller one. -/
theorem reduceOnce_spec (hfn : Fe.fn t = true) :
    Fe.val (reduceOnce t) = (if Fe.val t < fieldPrime then Fe.val t else Fe.val t - fieldPrime) ∧
      Fe.fn (reduceOnce t) = true := by
  have hne : t.zip primeLimbs ≠ [] := by
    rw [← List.length_pos_iff, List.length_zip, hlen]
    decide
  obtain ⟨hval, hborrow, hnorm⟩ := subtractPrime_spec hne (limbPairs_zip_primeLimbs hfn) (.inl rfl)
  rw [valDiff_zip_primeLimbs hlen, sub_zero] at hval hborrow hnorm
  by_cases hlt : Fe.val t < fieldPrime
  · have hkeep : reduceOnce t = t := by
      simp only [reduceOnce, hborrow, if_pos (sub_neg.mpr hlt)]
      rfl
    rw [hkeep, if_pos hlt]
    exact ⟨rfl, hfn⟩
  · have htake : reduceOnce t = (subtractPrime 0 (t.zip primeLimbs)).1 := by
      simp only [reduceOnce, hborrow, if_neg (not_lt.mpr (sub_nonneg.mpr (not_lt.mp hlt)))]
      rfl
    rw [htake, if_neg hlt]
    exact ⟨hval, hnorm (sub_nonneg.mpr (not_lt.mp hlt))⟩

end

theorem length_subtractPrime (bw : Int) (ps : List (Int × Int)) : (subtractPrime bw ps).1.length = ps.length := by
  induction ps generalizing bw with
  | nil => rfl
  | cons x ps ih =>
    obtain ⟨t, p⟩ := x
    cases ps with
    | nil => rfl
    | cons y ps => rw [subtractPrime_cons_cons, List.length_cons, ih, List.length_cons (a := (t, p))]

theorem length_reduceOnce {t : Fe} (hlen : t.length = 16) : (reduceOnce t).length = 16 := by
  have hsub : (subtractPrime 0 (t.zip primeLimbs)).1.length = 16 := by
    rw [length_subtractPrime, List.length_zip, hlen]
    decide
  unfold reduceOnce cswap
  dsimp only
  split
  · exact hsub
  · exact hlen

/-! ### The bytes (R31, R127) -/

theorem limbBytes_cons (x : Int) (t : Fe) :
    limbBytes (x :: t) = BitVec.ofInt 8 x :: BitVec.ofInt 8 (x / 256) :: limbBytes t := rfl

theorem length_limbBytes (t : Fe) : (limbBytes t).length = 2 * t.length := by
  induction t with
  | nil => rfl
  | cons x t ih =>
    rw [limbBytes_cons, List.length_cons, List.length_cons, ih, List.length_cons]
    omega

theorem limbBytes_eq_leBytes {t : Fe} (hfn : Fe.fn t = true) : limbBytes t = leBytes (2 * t.length) (Fe.val t).toNat := by
  induction t with
  | nil => rfl
  | cons x t ih =>
    obtain ⟨hx, ht⟩ := fn_cons.mp hfn
    obtain ⟨k, rfl⟩ := Int.eq_ofNat_of_zero_le hx.1
    obtain ⟨m, hm⟩ := Int.eq_ofNat_of_zero_le (val_of_fn ht).1
    have hval : (Fe.val ((k : Int) :: t)).toNat = k + 2 ^ 16 * m := by rw [val_cons, hm]; omega
    have hlow : BitVec.ofInt 8 k = BitVec.ofNat 8 (k + 2 ^ 16 * m) :=
      BitVec.eq_of_toNat_eq (by rw [BitVec.ofInt_natCast, BitVec.toNat_ofNat, BitVec.toNat_ofNat]; omega)
    have hhigh : BitVec.ofInt 8 ((k : Int) / 256) = BitVec.ofNat 8 ((k + 2 ^ 16 * m) / 256) := by
      have hdiv : (k : Int) / 256 = ((k / 256 : Nat) : Int) := by omega
      exact BitVec.eq_of_toNat_eq (by rw [hdiv, BitVec.ofInt_natCast, BitVec.toNat_ofNat, BitVec.toNat_ofNat]; omega)
    have hrest : (k + 2 ^ 16 * m) / 256 / 256 = m := by omega
    rw [limbBytes_cons, ih ht, hm, hlow, hhigh, List.length_cons, Nat.mul_succ, leBytes_succ, leBytes_succ, hval, hrest]
    rfl

/-! ### `Pack` (R127) -/

theorem Fe.length_pack {e : Fe} (hlen : e.length = 16) : (Fe.pack e).length = 32 := by
  rw [Fe.pack, length_limbBytes, length_reduceOnce (length_reduceOnce (by rw [Fe.length_carry, Fe.length_carry, hlen]))]

theorem reduceOnce_modEq {t : Fe} (hlen : t.length = 16) (hfn : Fe.fn t = true) :
    Fe.val (reduceOnce t) ≡ Fe.val t [ZMOD fieldPrime] := by
  rw [(reduceOnce_spec hlen hfn).1]
  split_ifs
  · rfl
  · exact Int.modEq_iff_dvd.mpr ⟨1, by ring⟩

/-- Two rounds take a normalised element to the least value modulo p: 2^256 is below 3p. -/
theorem val_reduceOnce_reduceOnce {t : Fe} (hlen : t.length = 16) (hfn : Fe.fn t = true) :
    Fe.val (reduceOnce (reduceOnce t)) = Fe.val t % fieldPrime := by
  obtain ⟨hval, hfn'⟩ := reduceOnce_spec hlen hfn
  obtain ⟨hval', hfn''⟩ := reduceOnce_spec (length_reduceOnce hlen) hfn'
  obtain ⟨-, hlt⟩ := val_of_fn hfn
  have hsmall : Fe.val (reduceOnce (reduceOnce t)) < fieldPrime := by
    rw [hlen] at hlt
    rw [hval', hval]
    unfold fieldPrime
    split_ifs <;> omega
  have hmod := (reduceOnce_modEq (length_reduceOnce hlen) hfn').trans (reduceOnce_modEq hlen hfn)
  exact (Int.emod_eq_of_lt (val_of_fn hfn'').1 hsmall).symm.trans hmod

theorem pack_eq_leBytes {e : Fe} (hlen : e.length = 16) (hfn : Fe.fn (Fe.carry (Fe.carry e)) = true) :
    Fe.pack e = leBytes 32 (Fe.val e % fieldPrime).toNat := by
  have hlen' : (Fe.carry e).length = 16 := by rw [Fe.length_carry, hlen]
  have hlen'' : (Fe.carry (Fe.carry e)).length = 16 := by rw [Fe.length_carry, hlen']
  obtain ⟨-, hfn'⟩ := reduceOnce_spec hlen'' hfn
  obtain ⟨-, hfn''⟩ := reduceOnce_spec (length_reduceOnce hlen'') hfn'
  have hmod : Fe.val (Fe.carry (Fe.carry e)) % fieldPrime = Fe.val e % fieldPrime :=
    (val_carry_modEq hlen').trans (val_carry_modEq hlen)
  rw [Fe.pack, limbBytes_eq_leBytes hfn'', length_reduceOnce (length_reduceOnce hlen''),
    val_reduceOnce_reduceOnce hlen'' hfn, hmod]

/-- Settles O50: two rounds of the subtraction leave the least value, and normalised limbs are its bytes. -/
theorem packCanonical : Obligations.PackCanonical := fun _ => pack_eq_leBytes

/-! ### The domain and the command -/

theorem inDomain_subtractNamed {ps : List (Int × Int)} (hps : LimbPairs ps) {bw : Int} (hbw : bw = 0 ∨ bw = 1) :
    inDomain (subtractNamed bw ps) = true := by
  induction ps generalizing bw with
  | nil => rfl
  | cons x ps ih =>
    obtain ⟨t, p⟩ := x
    obtain ⟨⟨ht, hp⟩, hrest⟩ := limbPairs_cons.mp hps
    dsimp only at ht hp
    have hm : InRange (t - p - bw) := by constructor <;> omega
    have hbw' : bit16 (t - p - bw) = 0 ∨ bit16 (t - p - bw) = 1 := by unfold bit16; omega
    exact inDomain_cons.mpr ⟨hm, ih hrest hbw'⟩

/-- Under R131's bound no value that `Pack` names leaves the 64-bit range. -/
theorem inDomain_packNamed {e : Fe} (hlen : e.length = 16) (he : Fe.bounded (2 ^ 26) e = true) :
    inDomain (Fe.packNamed e) = true := by
  have hbound := bounded_mono (β' := 2 ^ 62) (by decide) he
  have hfn := fn_carry_carry he
  obtain ⟨-, hfn'⟩ := reduceOnce_spec (by rw [Fe.length_carry, Fe.length_carry, hlen]) hfn
  simp only [Fe.packNamed, inDomain_append]
  exact ⟨⟨⟨inDomain_carryNamed hbound, inDomain_carryNamed (bounded_mono (by decide) (bounded_carry hbound))⟩,
    inDomain_subtractNamed (limbPairs_zip_primeLimbs hfn) (.inl rfl)⟩,
    inDomain_subtractNamed (limbPairs_zip_primeLimbs hfn') (.inl rfl)⟩

theorem exec_fePack (ra : FReg) (s : State) :
    exec (.fePack ra) s = ifInDomain (inDomain (Fe.packNamed (feOf s ra))) (done (Fe.pack (feOf s ra)) s) := rfl

/-- Settles O49: `respond` writes the response alone, and R131's bound keeps every named value in the range. -/
theorem fePack : Obligations.FePack := by
  intro ra s
  refine ⟨fun hd => ⟨?_, Fe.length_pack (length_feOf s ra)⟩, fun hd => ?_, inDomain_packNamed (length_feOf s ra)⟩ <;>
    rw [exec_fePack, hd] <;> rfl

end Sys2Proof.Machine
end

section
/-! PROOFS. The ladder on elements beside the ladder on values (R142): one invariant gives the domain of every step (R139) and
the values modulo p. -/

namespace Sys2Proof.Machine

/-! ### Limbwise sums and differences (R121, R122) -/

theorem val_zipWith {op : Int → Int → Int} {k : Int} (hop : ∀ x y, op x y = x + k * y) {a b : Fe} (h : a.length = b.length) :
    Fe.val (List.zipWith op a b) = Fe.val a + k * Fe.val b := by
  induction a generalizing b with
  | nil =>
    obtain rfl := List.length_eq_zero_iff.mp h.symm
    simp
  | cons x a ih =>
    cases b with
    | nil => exact absurd h (by simp)
    | cons y b =>
      rw [List.zipWith_cons_cons, val_cons, val_cons, val_cons, ih (Nat.succ.inj h), hop]
      ring

theorem val_add {a b : Fe} (h : a.length = b.length) : Fe.val (Fe.add a b) = Fe.val a + Fe.val b := by
  rw [Fe.add, val_zipWith (k := 1) (fun x y => by ring) h, one_mul]

theorem val_sub {a b : Fe} (h : a.length = b.length) : Fe.val (Fe.sub a b) = Fe.val a - Fe.val b := by
  rw [Fe.sub, val_zipWith (k := -1) (fun x y => by ring) h]
  ring

section
variable {β γ : Int} {a b : Fe} (ha : Fe.bounded β a = true) (hb : Fe.bounded γ b = true)
include ha hb

theorem bounded_zipWith {δ : Int} {op : Int → Int → Int}
    (hop : ∀ x y, (-β ≤ x ∧ x ≤ β) → (-γ ≤ y ∧ y ≤ γ) → -δ ≤ op x y ∧ op x y ≤ δ) :
    Fe.bounded δ (List.zipWith op a b) = true := by
  induction a generalizing b with
  | nil => rfl
  | cons x a ih =>
    cases b with
    | nil => rfl
    | cons y b =>
      obtain ⟨hx, ha⟩ := bounded_cons.mp ha
      obtain ⟨hy, hb⟩ := bounded_cons.mp hb
      exact bounded_cons.mpr ⟨hop x y hx hy, ih ha hb⟩

theorem bounded_add : Fe.bounded (β + γ) (Fe.add a b) = true :=
  bounded_zipWith ha hb fun x y hx hy => by constructor <;> omega

theorem bounded_sub : Fe.bounded (β + γ) (Fe.sub a b) = true :=
  bounded_zipWith ha hb fun x y hx hy => by constructor <;> omega

end

/-! ### An element that stands for a value -/

/-- The element has 16 limbs of absolute value at most β, and the value `x` modulo p. -/
structure Holds (β x : Int) (e : Fe) : Prop where
  length : e.length = 16
  bounded : Fe.bounded β e = true
  modEq : Fe.val e ≡ x [ZMOD fieldPrime]

namespace Holds

variable {β x y : Int} {a b e : Fe}

theorem mono {γ : Int} (h : Holds β x e) (hβ : β ≤ γ) : Holds γ x e := ⟨h.length, bounded_mono hβ h.bounded, h.modEq⟩

/-- As a factor of a product: within R131's bound. -/
theorem factor (h : Holds (2 ^ 17) x e) : Holds (2 ^ 26) x e := h.mono (by decide)

/-- The value in GF(p), whichever way it is written. -/
theorem reduce (h : Holds β x e) (hxy : x = y) : Holds β (y % fieldPrime) e :=
  ⟨h.length, h.bounded, hxy ▸ h.modEq.trans (Int.mod_modEq x fieldPrime).symm⟩

theorem inDomain (h : Holds (2 ^ 26) x e) : inDomain e = true := inDomain_of_bounded (by decide) h.bounded

theorem add (ha : Holds (2 ^ 17) x a) (hb : Holds (2 ^ 17) y b) : Holds (2 ^ 26) (x + y) (Fe.add a b) where
  length := by rw [Fe.length_add, ha.length, hb.length, min_self]
  bounded := bounded_mono (by decide) (bounded_add ha.bounded hb.bounded)
  modEq := by
    rw [val_add (ha.length.trans hb.length.symm)]
    exact ha.modEq.add hb.modEq

theorem sub (ha : Holds (2 ^ 17) x a) (hb : Holds (2 ^ 17) y b) : Holds (2 ^ 26) (x - y) (Fe.sub a b) where
  length := by rw [Fe.length_sub, ha.length, hb.length, min_self]
  bounded := bounded_mono (by decide) (bounded_sub ha.bounded hb.bounded)
  modEq := by
    rw [val_sub (ha.length.trans hb.length.symm)]
    exact ha.modEq.sub hb.modEq

theorem mul (ha : Holds (2 ^ 26) x a) (hb : Holds (2 ^ 26) y b) : Holds (2 ^ 17) (x * y) (Fe.mul a b) where
  length := Fe.length_mul ha.length hb.length
  bounded := bounded_of_wn (mul_of_bounded ha.length hb.length ha.bounded hb.bounded).2
  modEq := (val_mul_modEq ha.length hb.length).trans (ha.modEq.mul hb.modEq)

theorem inDomain_mulNamed (ha : Holds (2 ^ 26) x a) (hb : Holds (2 ^ 26) y b) : Machine.inDomain (Fe.mulNamed a b) = true :=
  (mul_of_bounded ha.length hb.length ha.bounded hb.bounded).1

theorem inv (h : Holds (2 ^ 26) x a) : Holds (2 ^ 17) (x ^ (2 ^ 255 - 21)) (Fe.inv a) where
  length := Fe.length_inv h.length
  bounded := bounded_of_wn ((invLoop_of_bounded h.length h.bounded h.length h.bounded 254).2.2 (by decide))
  modEq := (val_inv_modEq h.length).trans (h.modEq.pow _)

theorem pack_eq (h : Holds (2 ^ 26) x e) : Fe.pack e = leBytes 32 (x % fieldPrime).toNat := by
  rw [pack_eq_leBytes h.length (fn_carry_carry h.bounded)]
  exact congrArg (fun n : Int => leBytes 32 n.toNat) h.modEq

theorem one : Holds (2 ^ 17) 1 Fe.one := ⟨rfl, by decide, by decide⟩

theorem zero : Holds (2 ^ 17) 0 Fe.zero := ⟨rfl, by decide, by decide⟩

theorem a24 : Holds (2 ^ 17) 121665 Fe.a24 := ⟨rfl, by decide, by decide⟩

theorem unpack {q : Bytes} (hq : q.length = 32) :
    Holds (2 ^ 17) (((leNat q % 2 ^ 255 : Nat) : Int) % fieldPrime) (Fe.unpack q) where
  length := Fe.length_unpack q
  bounded := bounded_of_fn (by decide) <| fn_iff.mpr fun x hx => by
    rw [unpack_eq_map_unpackLimb] at hx
    obtain ⟨k, -, rfl⟩ := List.mem_map.mp hx
    have hlimb := unpackLimb_lt 15 q k
    omega
  modEq := by
    rw [val_unpack hq]
    exact (Int.mod_modEq _ _).symm

end Holds

/-! ### One step (R137, R142) -/

/-- The four running elements stand for the four running values, within twice a weakly normalised element's limbs. -/
structure Ladder.Represents (l : Ladder) (v : ValueLadder) : Prop where
  a : Holds (2 ^ 17) v.x2 l.a
  b : Holds (2 ^ 17) v.x3 l.b
  c : Holds (2 ^ 17) v.z2 l.c
  d : Holds (2 ^ 17) v.z3 l.d

section
variable {x : Fe} {x1 : Int} (hx : Holds (2 ^ 17) x1 x) {l : Ladder} {v : ValueLadder} (h : l.Represents v)
include h

theorem represents_swap (r : Bool) : (ladderSwap r l).Represents (valueSwap r v) := by
  cases r with
  | false => exact h
  | true => exact ⟨h.b, h.a, h.d, h.c⟩

include hx

/-- The statements of R137 in their order, each beside its value. -/
theorem represents_arith :
    inDomain (ladderArithNamed x l) = true ∧ (ladderArith x l).Represents (valueArith x1 v) := by
  have hA := h.a.add h.c
  have hB := h.a.sub h.c
  have hC := h.b.add h.d
  have hD := h.b.sub h.d
  have hAA := hA.mul hA
  have hBB := hB.mul hB
  have hCB := hC.mul hB
  have hDA := hD.mul hA
  have hsum := hCB.add hDA
  have hdiff := hCB.sub hDA
  have hdiff2 := hdiff.mul hdiff
  have hE := hAA.sub hBB
  have hg := hE.mul Holds.a24.factor
  have hg' := hg.add hAA
  constructor
  · simp only [ladderArithNamed, inDomain_append, Fe.sqr]
    exact ⟨⟨⟨⟨⟨⟨⟨⟨⟨⟨⟨⟨⟨⟨⟨⟨⟨hA.inDomain, hB.inDomain⟩, hC.inDomain⟩, hD.inDomain⟩, hA.inDomain_mulNamed hA⟩,
      hB.inDomain_mulNamed hB⟩, hC.inDomain_mulNamed hB⟩, hD.inDomain_mulNamed hA⟩, hsum.inDomain⟩, hdiff.inDomain⟩,
      hdiff.inDomain_mulNamed hdiff⟩, hE.inDomain⟩, hE.inDomain_mulNamed Holds.a24.factor⟩, hg'.inDomain⟩,
      hE.inDomain_mulNamed hg'⟩, hAA.factor.inDomain_mulNamed hBB.factor⟩, hdiff2.factor.inDomain_mulNamed hx.factor⟩,
      hsum.inDomain_mulNamed hsum⟩
  · constructor <;> simp only [ladderArith, valueArith, Fe.sqr]
    · exact (hAA.factor.mul hBB.factor).reduce (by ring)
    · exact (hsum.mul hsum).reduce (by ring)
    · exact (hE.mul hg').reduce (by ring)
    · exact (hdiff2.factor.mul hx.factor).reduce (by ring)

/-! ### The loop (R138, R142) -/

theorem represents_loop (z : Bytes) (n : Nat) :
    ladderLoopDomain z x n l = true ∧ (ladderLoop z x n l).Represents (valueLoop (leNat z) x1 n v) := by
  induction n generalizing l v with
  | zero => exact ⟨rfl, h⟩
  | succ n ih =>
    obtain ⟨hdomain, harith⟩ := represents_arith hx (represents_swap h (scalarBit z n))
    obtain ⟨hrest, hloop⟩ := ih (represents_swap harith (scalarBit z n))
    rw [ladderLoopDomain, hdomain, Bool.true_and, valueLoop, testBit_leNat]
    exact ⟨hrest, hloop⟩

end

/-! ### The scalar multiplication (R138, R139, R142) -/

/-- The values a scalar multiplication starts from, `u` the point's. -/
theorem represents_start {x : Fe} {u : Int} (hx : Holds (2 ^ 17) u x) :
    (ladderStart x).Represents { x2 := 1, z2 := 0, x3 := u, z3 := 1 } := ⟨.one, hx, .zero, .one⟩

/-- Settles O53: the ladder's elements keep `Represents`, so every product is of factors within R131's bound. -/
theorem ladderInDomain : Obligations.LadderInDomain := by
  intro s q _ hq
  obtain ⟨hloop, hend⟩ :=
    represents_loop (Holds.unpack hq) (represents_start (Holds.unpack hq)) (clamp s) (8 * s.length - 1)
  have hc := hend.c.factor
  have ha := hend.a.factor
  have hinv := (invLoop_of_bounded hc.length hc.bounded hc.length hc.bounded 254).1
  have hresult := (ha.mul hc.inv.factor).factor
  simp only [scalarMultDomain, Bool.and_eq_true]
  exact ⟨⟨⟨hloop, hinv⟩, ha.inDomain_mulNamed hc.inv.factor⟩, inDomain_packNamed hresult.length hresult.bounded⟩

/-- Settles O54: the loop's elements stand for the loop's values, and `Pack` reads the result's value off. -/
theorem ladderValueLevel : Obligations.LadderValueLevel := by
  intro s q _ hq
  obtain ⟨-, hend⟩ :=
    represents_loop (Holds.unpack hq) (represents_start (Holds.unpack hq)) (clamp s) (8 * s.length - 1)
  have hresult := (hend.a.factor.mul hend.c.factor.inv.factor).factor.pack_eq
  simp only [scalarMult, valueScalarMult]
  exact hresult

end Sys2Proof.Machine
end

section
/-! PROOFS. What is refused (R68, R116, R141): a message beyond the length field, and a field command whose operands exceed
R131's bound. -/

namespace Sys2Proof.Machine

section
variable {i : Instr} {s : State}

theorem refusalOf_cases (i : Instr) :
    refusalOf i = .limbOutOfDomain ∨ (∃ sel data, i = .hashUpdate sel data) ∨ (∃ sel m, i = .hashDigest sel m) ∨
      ∃ key m, i = .hmacDigest key m := by
  cases i <;> simp [refusalOf]

/-! ### Messages beyond the length field (R68) -/

theorem length_of_not_hasMeaning_hashUpdate {sel : BitVec 8} {data : Bytes} (h : hasMeaning (.hashUpdate sel data) s = false) :
    ∃ v, variantOf sel = some v ∧ 2 ^ v.lenBits ≤ (getUnit s v).len.toNat + 8 * data.length := by
  cases hv : variantOf sel with
  | none => simp [hasMeaning, hv] at h
  | some v => exact ⟨v, rfl, by simpa [hasMeaning, hv, lengthFits] using h⟩

theorem length_of_not_hasMeaning_hashDigest {sel : BitVec 8} {m : Bytes} (h : hasMeaning (.hashDigest sel m) s = false) :
    ∃ v, variantOf sel = some v ∧ 2 ^ v.lenBits ≤ 8 * m.length := by
  cases hv : variantOf sel with
  | none => simp [hasMeaning, hv] at h
  | some v => exact ⟨v, rfl, by simpa [hasMeaning, hv, lengthFits] using h⟩

theorem length_of_not_hmacDomain {v : Variant} {key m : Bytes} (h : hmacDomain v key m = false) :
    2 ^ v.lenBits ≤ 8 * max key.length (v.blockBytes + m.length) := by
  by_contra hfits
  have hdomain : hmacDomain v key m = true := hmacDomain_iff.mpr ⟨fun _ => by omega, by omega⟩
  exact Bool.false_ne_true (h.symm.trans hdomain)

/-! ### Field commands (R116, R131) -/

theorem leavesDomain_eq_not_hasMeaning (h : refusalOf i = .limbOutOfDomain) : leavesDomain i s = !hasMeaning i s := by
  cases i with
  | hashUpdate | hashDigest | hmacDigest => exact nomatch h
  | feInv rd ra => exact congrArg (!·) (invDomain_eq (length_feOf s ra)).symm
  | _ => rfl

/-- Every operand register of the command is within R131's bound. -/
def SourcesBounded (i : Instr) (s : State) : Prop := ∀ x : FReg, reads i (.f x) = true → Fe.bounded (2 ^ 26) (feOf s x) = true

/-- On bounded operands every field command has a meaning. -/
theorem hasMeaning_of_sourcesBounded (hr : refusalOf i = .limbOutOfDomain) (h : SourcesBounded i s) :
    hasMeaning i s = true := by
  cases i with
  | hashUpdate | hashDigest | hmacDigest => exact nomatch hr
  | feAdd rd ra rb =>
    exact inDomain_of_bounded (by decide) (bounded_add (h ra (by simp [reads])) (h rb (by simp [reads])))
  | feSub rd ra rb =>
    exact inDomain_of_bounded (by decide) (bounded_sub (h ra (by simp [reads])) (h rb (by simp [reads])))
  | feMul rd ra rb =>
    exact (mul_of_bounded (length_feOf s ra) (length_feOf s rb) (h ra (by simp [reads])) (h rb (by simp [reads]))).1
  | feSqr rd ra =>
    have hra := h ra (by simp [reads])
    exact (mul_of_bounded (length_feOf s ra) (length_feOf s ra) hra hra).1
  | feCarry rd ra => exact inDomain_carryNamed (bounded_mono (by decide) (h ra (by simp [reads])))
  | feInv rd ra =>
    have hra := h ra (by simp [reads])
    rw [hasMeaning, Fe.invDomain, hra, Bool.true_or]
  | fePack ra => exact inDomain_packNamed (length_feOf s ra) (h ra (by simp [reads]))
  | _ => rfl

theorem exists_source_of_not_hasMeaning (hr : refusalOf i = .limbOutOfDomain) (h : hasMeaning i s = false) :
    ∃ x : FReg, reads i (.f x) = true ∧ Fe.bounded (2 ^ 26) (feOf s x) = false := by
  by_contra! hnone
  have hbounded : SourcesBounded i s := fun x hx => by simpa using hnone x hx
  exact Bool.false_ne_true (h.symm.trans (hasMeaning_of_sourcesBounded hr hbounded))

end

/-- Settles O10: a refused command has passed its checks and has no meaning, so it is a hash command on too long a message
or a field command with a source beyond R131's bound. -/
theorem onlyDomainRefusals : Obligations.OnlyDomainRefusals := by
  intro i s r h
  obtain ⟨-, hm, rfl⟩ := exec_eq_refused_iff.mp h
  rcases refusalOf_cases i with hr | ⟨sel, data, rfl⟩ | ⟨sel, m, rfl⟩ | ⟨key, m, rfl⟩
  · exact .inr (.inl ⟨hr, by rw [leavesDomain_eq_not_hasMeaning hr, hm]; rfl, exists_source_of_not_hasMeaning hr hm⟩)
  · obtain ⟨v, hv, hlen⟩ := length_of_not_hasMeaning_hashUpdate hm
    exact .inl ⟨rfl, .inl ⟨sel, data, v, rfl, hv, hlen⟩⟩
  · obtain ⟨v, hv, hlen⟩ := length_of_not_hasMeaning_hashDigest hm
    exact .inl ⟨rfl, .inr (.inl ⟨sel, m, v, rfl, hv, hlen⟩)⟩
  · exact .inl ⟨rfl, .inr (.inr ⟨key, m, rfl, length_of_not_hmacDomain hm⟩)⟩

end Sys2Proof.Machine
end
